-- ==== Sys2Proof/Word.lean ====
section
/-! DEFINITION. The two word types of the device: a register is 32 bits wide (spec 00_scope.md R5, `REG_WIDTH`), external
memory is addressed in bytes (20_memory.md R70). All values are unsigned (R10). -/

namespace Sys2Proof

/-- A 32-bit word: a register value, a command word, an external-memory address (00_scope.md R5, R10). -/
abbrev Word := BitVec 32

/-- A byte of external memory or of the card's data stream (20_memory.md R70, R73). -/
abbrev Byte := BitVec 8

end Sys2Proof
end

