-- ==== Sys2Proof/Syntax.lean ====
section
/-! DEFINITION. The names and data the device's operations speak of, and `Instr`: one constructor for each row of
spec/opcode_table.json (00_scope.md R4, 30_encoding.md R100 to R112). Also the inputs the device is given (`Input`), the
four formats (`Encoded`) and the pseudo-operations of R122. -/

namespace Sys2Proof

/-- The 40 register names of 10_state.md R24. -/
inductive Reg where
  | gctl
  | ckcr
  | tmor
  | bwdr
  | bksr
  | bycr
  | cmdr
  | cagr
  | resp0
  | resp1
  | resp2
  | resp3
  | imkr
  | misr
  | risr
  | star
  | fwlr
  | funs
  | dbgc
  | a12a
  | ntsr
  | sdbg
  | hwrst
  | dmac
  | dlba
  | idst
  | idie
  | thldc
  | dsbd
  | resCrc
  | data7Crc
  | data6Crc
  | data5Crc
  | data4Crc
  | data3Crc
  | data2Crc
  | data1Crc
  | data0Crc
  | crcSta
  | fifo
deriving DecidableEq, Repr

/-- The 28 register names that have a storage cell (10_state.md R20 `RegName`, R24). -/
inductive Cell where
  | gctl
  | ckcr
  | tmor
  | bwdr
  | bksr
  | bycr
  | cmdr
  | cagr
  | resp0
  | resp1
  | resp2
  | resp3
  | imkr
  | risr
  | star
  | fwlr
  | funs
  | dbgc
  | a12a
  | ntsr
  | sdbg
  | hwrst
  | dmac
  | dlba
  | idst
  | idie
  | thldc
  | dsbd
deriving DecidableEq, Repr

/-- The register file's 28 storage cells (10_state.md R20 component `x`, R24). -/
structure Regs where
  /-- `GCTL`, global control (R25). -/
  gctl : Word
  /-- `CKCR`, clock control (R26). -/
  ckcr : Word
  /-- `TMOR`, timeout (R27). -/
  tmor : Word
  /-- `BWDR`, bus width (R28). -/
  bwdr : Word
  /-- `BKSR`, block size (R29). -/
  bksr : Word
  /-- `BYCR`, byte count (R30). -/
  bycr : Word
  /-- `CMDR`, command (R31). -/
  cmdr : Word
  /-- `CAGR`, command argument (R32). -/
  cagr : Word
  /-- `RESP0`, response word 0 (R33). -/
  resp0 : Word
  /-- `RESP1`, response word 1 (R33). -/
  resp1 : Word
  /-- `RESP2`, response word 2 (R33). -/
  resp2 : Word
  /-- `RESP3`, response word 3 (R33). -/
  resp3 : Word
  /-- `IMKR`, interrupt mask (R34). -/
  imkr : Word
  /-- `RISR`, raw interrupt status (R36). -/
  risr : Word
  /-- `STAR`, status (R37). -/
  star : Word
  /-- `FWLR`, FIFO water level (R38). -/
  fwlr : Word
  /-- `FUNS`, FIFO function select (R39). -/
  funs : Word
  /-- `DBGC`, debug enable (R40). -/
  dbgc : Word
  /-- `A12A`, auto command 12 argument (R41). -/
  a12a : Word
  /-- `NTSR`, new timing set (R42). -/
  ntsr : Word
  /-- `SDBG`, new timing set debug (R43). -/
  sdbg : Word
  /-- `HWRST`, hardware reset (R44). -/
  hwrst : Word
  /-- `DMAC`, internal DMA controller control (R45). -/
  dmac : Word
  /-- `DLBA`, descriptor list base address (R46). -/
  dlba : Word
  /-- `IDST`, internal DMA controller status (R47). -/
  idst : Word
  /-- `IDIE`, internal DMA controller interrupt enable (R48). -/
  idie : Word
  /-- `THLDC`, card threshold control (R49). -/
  thldc : Word
  /-- `DSBD`, eMMC DDR start bit detection (R49). -/
  dsbd : Word
deriving DecidableEq, Repr

/-- A state snapshot, the pair (`x`, `XFER`) (10_state.md R57, 70_reset_and_hazards.md R388). Its bytes are
what `Config.snapshotCodec` encodes it in (`SNAPSHOT_CODEC`, D32). -/
structure Snapshot where
  x    : Regs
  xfer : Word
deriving DecidableEq, Repr

/-- A transfer descriptor as four words (30_encoding.md R104). -/
structure Desc where
  status : Word
  size   : Word
  addr   : Word
  next   : Word
deriving DecidableEq, Repr

/-- The device's operations, one constructor for each row of spec/opcode_table.json, in the table's order. The side
fields of a bus transaction (R101) that a row leaves open are operands. -/
inductive Instr where
  /-- `WR_GCTL`: `WR GCTL, v` (R132). -/
  | wrGctl (v : Word)
  /-- `RD_GCTL`: `RD GCTL` (R133). -/
  | rdGctl
  /-- `WR_CKCR`: `WR CKCR, v` (R134). -/
  | wrCkcr (v : Word)
  /-- `RD_CKCR`: `RD CKCR` (R135). -/
  | rdCkcr
  /-- `WR_TMOR`: `WR TMOR, v` (R136). -/
  | wrTmor (v : Word)
  /-- `RD_TMOR`: `RD TMOR` (R137). -/
  | rdTmor
  /-- `WR_BWDR`: `WR BWDR, v` (R138). -/
  | wrBwdr (v : Word)
  /-- `RD_BWDR`: `RD BWDR` (R139). -/
  | rdBwdr
  /-- `WR_BKSR`: `WR BKSR, v` (R140). -/
  | wrBksr (v : Word)
  /-- `RD_BKSR`: `RD BKSR` (R141). -/
  | rdBksr
  /-- `WR_BYCR`: `WR BYCR, v` (R142). -/
  | wrBycr (v : Word)
  /-- `RD_BYCR`: `RD BYCR` (R143). -/
  | rdBycr
  /-- `WR_CMDR`: `WR CMDR, v` (R144). -/
  | wrCmdr (v : Word)
  /-- `RD_CMDR`: `RD CMDR` (R145). -/
  | rdCmdr
  /-- `WR_CAGR`: `WR CAGR, v` (R146). -/
  | wrCagr (v : Word)
  /-- `RD_CAGR`: `RD CAGR` (R147). -/
  | rdCagr
  /-- `WR_RESP0`: `WR RESP0, v` (R148). -/
  | wrResp0 (v : Word)
  /-- `RD_RESP0`: `RD RESP0` (R152). -/
  | rdResp0
  /-- `WR_RESP1`: `WR RESP1, v` (R149). -/
  | wrResp1 (v : Word)
  /-- `RD_RESP1`: `RD RESP1` (R153). -/
  | rdResp1
  /-- `WR_RESP2`: `WR RESP2, v` (R150). -/
  | wrResp2 (v : Word)
  /-- `RD_RESP2`: `RD RESP2` (R154). -/
  | rdResp2
  /-- `WR_RESP3`: `WR RESP3, v` (R151). -/
  | wrResp3 (v : Word)
  /-- `RD_RESP3`: `RD RESP3` (R155). -/
  | rdResp3
  /-- `WR_IMKR`: `WR IMKR, v` (R156). -/
  | wrImkr (v : Word)
  /-- `RD_IMKR`: `RD IMKR` (R157). -/
  | rdImkr
  /-- `WR_MISR`: `WR MISR, v` (R158). -/
  | wrMisr (v : Word)
  /-- `RD_MISR`: `RD MISR` (R159). -/
  | rdMisr
  /-- `WR_RISR`: `WR RISR, v` (R160). -/
  | wrRisr (v : Word)
  /-- `RD_RISR`: `RD RISR` (R161). -/
  | rdRisr
  /-- `WR_STAR`: `WR STAR, v` (R162). -/
  | wrStar (v : Word)
  /-- `RD_STAR`: `RD STAR` (R163). -/
  | rdStar
  /-- `WR_FWLR`: `WR FWLR, v` (R164). -/
  | wrFwlr (v : Word)
  /-- `RD_FWLR`: `RD FWLR` (R165). -/
  | rdFwlr
  /-- `WR_FUNS`: `WR FUNS, v` (R166). -/
  | wrFuns (v : Word)
  /-- `RD_FUNS`: `RD FUNS` (R167). -/
  | rdFuns
  /-- `WR_DBGC`: `WR DBGC, v` (R168). -/
  | wrDbgc (v : Word)
  /-- `RD_DBGC`: `RD DBGC` (R169). -/
  | rdDbgc
  /-- `WR_A12A`: `WR A12A, v` (R170). -/
  | wrA12a (v : Word)
  /-- `RD_A12A`: `RD A12A` (R171). -/
  | rdA12a
  /-- `WR_NTSR`: `WR NTSR, v` (R172). -/
  | wrNtsr (v : Word)
  /-- `RD_NTSR`: `RD NTSR` (R173). -/
  | rdNtsr
  /-- `WR_SDBG`: `WR SDBG, v` (R174). -/
  | wrSdbg (v : Word)
  /-- `RD_SDBG`: `RD SDBG` (R175). -/
  | rdSdbg
  /-- `WR_HWRST`: `WR HWRST, v` (R176). -/
  | wrHwrst (v : Word)
  /-- `RD_HWRST`: `RD HWRST` (R177). -/
  | rdHwrst
  /-- `WR_DMAC`: `WR DMAC, v` (R178). -/
  | wrDmac (v : Word)
  /-- `RD_DMAC`: `RD DMAC` (R179). -/
  | rdDmac
  /-- `WR_DLBA`: `WR DLBA, v` (R180). -/
  | wrDlba (v : Word)
  /-- `RD_DLBA`: `RD DLBA` (R181). -/
  | rdDlba
  /-- `WR_IDST`: `WR IDST, v` (R182). -/
  | wrIdst (v : Word)
  /-- `RD_IDST`: `RD IDST` (R183). -/
  | rdIdst
  /-- `WR_IDIE`: `WR IDIE, v` (R184). -/
  | wrIdie (v : Word)
  /-- `RD_IDIE`: `RD IDIE` (R185). -/
  | rdIdie
  /-- `WR_THLDC`: `WR THLDC, v` (R186). -/
  | wrThldc (v : Word)
  /-- `RD_THLDC`: `RD THLDC` (R187). -/
  | rdThldc
  /-- `WR_DSBD`: `WR DSBD, v` (R188). -/
  | wrDsbd (v : Word)
  /-- `RD_DSBD`: `RD DSBD` (R189). -/
  | rdDsbd
  /-- `WR_RES_CRC`: `WR RES_CRC, v` (R190). -/
  | wrResCrc (v : Word)
  /-- `RD_RES_CRC`: `RD RES_CRC` (R191). -/
  | rdResCrc
  /-- `WR_DATA7_CRC`: `WR DATA7_CRC, v` (R192). -/
  | wrData7Crc (v : Word)
  /-- `RD_DATA7_CRC`: `RD DATA7_CRC` (R193). -/
  | rdData7Crc
  /-- `WR_DATA6_CRC`: `WR DATA6_CRC, v` (R194). -/
  | wrData6Crc (v : Word)
  /-- `RD_DATA6_CRC`: `RD DATA6_CRC` (R195). -/
  | rdData6Crc
  /-- `WR_DATA5_CRC`: `WR DATA5_CRC, v` (R196). -/
  | wrData5Crc (v : Word)
  /-- `RD_DATA5_CRC`: `RD DATA5_CRC` (R197). -/
  | rdData5Crc
  /-- `WR_DATA4_CRC`: `WR DATA4_CRC, v` (R198). -/
  | wrData4Crc (v : Word)
  /-- `RD_DATA4_CRC`: `RD DATA4_CRC` (R199). -/
  | rdData4Crc
  /-- `WR_DATA3_CRC`: `WR DATA3_CRC, v` (R200). -/
  | wrData3Crc (v : Word)
  /-- `RD_DATA3_CRC`: `RD DATA3_CRC` (R201). -/
  | rdData3Crc
  /-- `WR_DATA2_CRC`: `WR DATA2_CRC, v` (R202). -/
  | wrData2Crc (v : Word)
  /-- `RD_DATA2_CRC`: `RD DATA2_CRC` (R203). -/
  | rdData2Crc
  /-- `WR_DATA1_CRC`: `WR DATA1_CRC, v` (R204). -/
  | wrData1Crc (v : Word)
  /-- `RD_DATA1_CRC`: `RD DATA1_CRC` (R205). -/
  | rdData1Crc
  /-- `WR_DATA0_CRC`: `WR DATA0_CRC, v` (R206). -/
  | wrData0Crc (v : Word)
  /-- `RD_DATA0_CRC`: `RD DATA0_CRC` (R207). -/
  | rdData0Crc
  /-- `WR_CRC_STA`: `WR CRC_STA, v` (R208). -/
  | wrCrcSta (v : Word)
  /-- `RD_CRC_STA`: `RD CRC_STA` (R209). -/
  | rdCrcSta
  /-- `WR_FIFO`: `WR FIFO, v` (R311). -/
  | wrFifo (v : Word)
  /-- `RD_FIFO`: `RD FIFO` (R312). -/
  | rdFifo
  /-- `WRX_unknown-offset`: a 4-byte write at an aligned offset no register has (R212). -/
  | wrxUnknownOffset (off : Word) (v : Word)
  /-- `RDX_unknown-offset`: a 4-byte read at an aligned offset no register has (R213). -/
  | rdxUnknownOffset (off : Word)
  /-- `WRX_illegal-access`: a write of a size other than 4, or misaligned (R214). -/
  | wrxIllegalAccess (off : Word) (size : Nat) (v : Word)
  /-- `RDX_illegal-access`: a read of a size other than 4, or misaligned (R214). -/
  | rdxIllegalAccess (off : Word) (size : Nat)
  /-- `EV.INSERT`: the card adapter notifies an insertion (R300). -/
  | evInsert
  /-- `EV.REMOVE`: the card adapter notifies a removal (R301). -/
  | evRemove
  /-- `EV.RESET`: the reset signal (R380). -/
  | evReset
  /-- `EV.SAVE`: produce a snapshot (R388). -/
  | evSave
  /-- `EV.RESTORE`: install a snapshot (R390). -/
  | evRestore (snap : Snapshot)
  /-- `CMD.STORE`: a command word without the load bit reaches `CMDR` (R144). -/
  | cmdStore (w : Word)
  /-- `CMD.CLKCHG`: a loaded clock-change word reaches `CMDR` (R223). -/
  | cmdClkchg (w : Word)
  /-- `CMD.NORESP`: a loaded word that expects no response reaches `CMDR` (R225). -/
  | cmdNoresp (w : Word)
  /-- `CMD.SHORT`: a loaded word that expects a short response reaches `CMDR` (R226). -/
  | cmdShort (w : Word)
  /-- `CMD.LONG`: a loaded word that expects a long response reaches `CMDR` (R227). -/
  | cmdLong (w : Word)
  /-- `DESC.LAST`: the walk has fetched `d` at `dptr`, and `d` ends the chain (R262). -/
  | descLast (dptr : Word) (d : Desc)
  /-- `DESC.LINK`: the walk has fetched `d` at `dptr`, and `d` does not end the chain (R262). -/
  | descLink (dptr : Word) (d : Desc)
deriving DecidableEq, Repr

/-- What reaches the device from outside and starts an operation of 00_scope.md R4.
`mmio`: a bus transaction; `header` is `W ++ OFFSET` (R101), `offHigh` the offset's bits above the window (an access
beyond `MMIO_SIZE` that is delivered all the same, 20_memory.md R71), `size` and `data` the side fields.
`event`: a non-bus input (R102), `snapshot` the operand of `EV.RESTORE`, ignored by the others.
`command`: a command word on its way into `CMDR` (R103): the `WR CMDR` of that word, by its class. -/
inductive Input where
  | mmio (header : BitVec 13) (offHigh : BitVec 20) (size : Nat) (data : Word)
  | event (code : BitVec 3) (snapshot : Snapshot)
  | command (word : Word)
deriving DecidableEq, Repr

/-- The four formats of 30_encoding.md R100. `descriptor`: the 16 bytes a walk has fetched from address `dptr` (R104). It
reaches the device from external memory only, inside a walk: it is no input of the device (00_scope.md R4). -/
inductive Encoded where
  | input (i : Input)
  | descriptor (dptr : Word) (bytes : List Byte)
deriving DecidableEq, Repr

/-- The pseudo-operations of 30_encoding.md R122. -/
inductive Pseudo where
  | ack (bits : Word)
  | ackm (bits : Word)
  | ackdma (bits : Word)
  | mask (bits : Word)
  | setlen (n : Word)
  | setbase (a : Word)
  | send (id : BitVec 6) (arg : Word) (flags : Word)
  | clkchg
  | push (v : Word)
  | pop
deriving DecidableEq, Repr

end Sys2Proof
end

