-- ==== Sys2Proof/Config.lean ====
section
/-! DEFINITION. The configuration record `Cfg` (00_scope.md R5), the parameters the source fixes, and the uninterpreted
functions of the abstract card (R8), so that a claim holds whatever they are. `SNAPSHOT_CODEC`, a function, stands in
Machine/SnapshotCodec.lean. The default instance and the well-formedness of R6 stand in Machine/Operands.lean, the default tables beside the register map
(Machine/Registers.lean) and the field positions (Machine/Flags.lean). -/

namespace Sys2Proof

/-- `ACCESS_BYTES`, the only legal bus access size (R5). -/
def accessBytes : Nat := 4

/-- `DESC_BYTES`, the size of a transfer descriptor (R5). -/
def descBytes : Nat := 16

/-- `DESC_MAX_SIZE`, the bytes meant by a size field of zero (R5). -/
def descMaxSize : Nat := 65536

/-- `OFF[reg]` (R5): the window offset of each register. -/
structure Offsets where
  /-- `OFF[GCTL]` (R24). -/
  gctl : Word
  /-- `OFF[CKCR]` (R24). -/
  ckcr : Word
  /-- `OFF[TMOR]` (R24). -/
  tmor : Word
  /-- `OFF[BWDR]` (R24). -/
  bwdr : Word
  /-- `OFF[BKSR]` (R24). -/
  bksr : Word
  /-- `OFF[BYCR]` (R24). -/
  bycr : Word
  /-- `OFF[CMDR]` (R24). -/
  cmdr : Word
  /-- `OFF[CAGR]` (R24). -/
  cagr : Word
  /-- `OFF[RESP0]` (R24). -/
  resp0 : Word
  /-- `OFF[RESP1]` (R24). -/
  resp1 : Word
  /-- `OFF[RESP2]` (R24). -/
  resp2 : Word
  /-- `OFF[RESP3]` (R24). -/
  resp3 : Word
  /-- `OFF[IMKR]` (R24). -/
  imkr : Word
  /-- `OFF[MISR]` (R24). -/
  misr : Word
  /-- `OFF[RISR]` (R24). -/
  risr : Word
  /-- `OFF[STAR]` (R24). -/
  star : Word
  /-- `OFF[FWLR]` (R24). -/
  fwlr : Word
  /-- `OFF[FUNS]` (R24). -/
  funs : Word
  /-- `OFF[DBGC]` (R24). -/
  dbgc : Word
  /-- `OFF[A12A]` (R24). -/
  a12a : Word
  /-- `OFF[NTSR]` (R24). -/
  ntsr : Word
  /-- `OFF[SDBG]` (R24). -/
  sdbg : Word
  /-- `OFF[HWRST]` (R24). -/
  hwrst : Word
  /-- `OFF[DMAC]` (R24). -/
  dmac : Word
  /-- `OFF[DLBA]` (R24). -/
  dlba : Word
  /-- `OFF[IDST]` (R24). -/
  idst : Word
  /-- `OFF[IDIE]` (R24). -/
  idie : Word
  /-- `OFF[THLDC]` (R24). -/
  thldc : Word
  /-- `OFF[DSBD]` (R24). -/
  dsbd : Word
  /-- `OFF[RES_CRC]` (R24). -/
  resCrc : Word
  /-- `OFF[DATA7_CRC]` (R24). -/
  data7Crc : Word
  /-- `OFF[DATA6_CRC]` (R24). -/
  data6Crc : Word
  /-- `OFF[DATA5_CRC]` (R24). -/
  data5Crc : Word
  /-- `OFF[DATA4_CRC]` (R24). -/
  data4Crc : Word
  /-- `OFF[DATA3_CRC]` (R24). -/
  data3Crc : Word
  /-- `OFF[DATA2_CRC]` (R24). -/
  data2Crc : Word
  /-- `OFF[DATA1_CRC]` (R24). -/
  data1Crc : Word
  /-- `OFF[DATA0_CRC]` (R24). -/
  data0Crc : Word
  /-- `OFF[CRC_STA]` (R24). -/
  crcSta : Word
  /-- `OFF[FIFO]` (R24). -/
  fifo : Word
deriving DecidableEq, Repr

/-- The bit positions of the named fields (R5): bit numbers, but `cmdIdx`, the lowest of the command id's six bits. -/
structure Positions where
  /-- `GCTL.SOFT_RST` (10_state.md R25). -/
  softRst : Nat
  /-- `GCTL.FIFO_RST` (10_state.md R25). -/
  fifoRst : Nat
  /-- `GCTL.DMA_RST` (10_state.md R25). -/
  dmaRst : Nat
  /-- `GCTL.INT_ENB` (10_state.md R25). -/
  intEnb : Nat
  /-- `GCTL.DMA_ENB` (10_state.md R25). -/
  dmaEnb : Nat
  /-- `CMDR.CMD_IDX`, its lowest bit (10_state.md R31). -/
  cmdIdx : Nat
  /-- `CMDR.RESP_EXP` (10_state.md R31). -/
  respExp : Nat
  /-- `CMDR.RESP_LONG` (10_state.md R31). -/
  respLong : Nat
  /-- `CMDR.DATA_EXP`, storage only (10_state.md R31). -/
  dataExp : Nat
  /-- `CMDR.WRITE` (10_state.md R31). -/
  cmdWrite : Nat
  /-- `CMDR.AUTOSTOP` (10_state.md R31). -/
  autostop : Nat
  /-- `CMDR.CLKCHANGE` (10_state.md R31). -/
  clkChange : Nat
  /-- `CMDR.LOAD` (10_state.md R31). -/
  load : Nat
  /-- `RISR.NO_RESPONSE` (10_state.md R36). -/
  noResponse : Nat
  /-- `RISR.CMD_COMPLETE` (10_state.md R36). -/
  cmdComplete : Nat
  /-- `RISR.DATA_COMPLETE` (10_state.md R36). -/
  dataComplete : Nat
  /-- `RISR.AUTOCMD_DONE` (10_state.md R36). -/
  autocmdDone : Nat
  /-- `RISR.SDIO_INTR`, set by no rule (10_state.md R36). -/
  sdioIntr : Nat
  /-- `RISR.CARD_INSERT` (10_state.md R36). -/
  cardInsert : Nat
  /-- `RISR.CARD_REMOVE` (10_state.md R36). -/
  cardRemove : Nat
  /-- `STAR.CARD_PRESENT` (10_state.md R37). -/
  cardPresent : Nat
  /-- `IDST.TX_DONE` (10_state.md R47). -/
  txDone : Nat
  /-- `IDST.RX_DONE` (10_state.md R47). -/
  rxDone : Nat
  /-- `IDST.RX_SUMMARY` (10_state.md R47). -/
  rxSummary : Nat
  /-- `HOLD` of a descriptor's status (30_encoding.md R104). -/
  hold : Nat
  /-- `ERROR` of a descriptor's status, without effect (30_encoding.md R104). -/
  error : Nat
  /-- `CHAIN` of a descriptor's status, without effect (30_encoding.md R104). -/
  chain : Nat
  /-- `FIRST` of a descriptor's status, without effect (30_encoding.md R104). -/
  first : Nat
  /-- `LAST` of a descriptor's status (30_encoding.md R104). -/
  last : Nat
  /-- `NOIRQ` of a descriptor's status, without effect (30_encoding.md R104). -/
  noIrq : Nat
deriving DecidableEq, Repr

/-- `DESC_BYTE_ORDER` (R5): which byte of a descriptor word stands at the lowest address. -/
inductive ByteOrder where
  | little
  | big
deriving DecidableEq, Repr

/-- `Cfg` (R5): every parameter of the table but those the source fixes and the snapshot codec
(`Config.snapshotCodec`), and one choice of the model's own, `dmaControlDrivesLine`. -/
structure Cfg where
  /-- `MMIO_BASE`, the bus address of window offset 0 (open, D4). -/
  mmioBase : Word
  /-- `MMIO_SIZE`, the window's length in bytes. -/
  mmioSize : Nat
  /-- `OFF[reg]`. -/
  offsets : Offsets
  /-- The positions of the named fields. -/
  pos : Positions
  /-- `RST[reg]`, the reset value of each register. -/
  rst : Regs
  /-- `STOP_CMD_ID`, the id of the synthetic stop command. -/
  stopCmdId : BitVec 6
  /-- `ADDR_BITS`, the width of an external-memory address. -/
  addrBits : Nat
  /-- `DESC_BYTE_ORDER`. -/
  descByteOrder : ByteOrder
  /-- `BUF_ADDR_MASK`, applied to a descriptor's buffer address. -/
  bufAddrMask : Word
  /-- `STAGE_BYTES`, the size of the DMA staging buffer. -/
  stageBytes : Nat
  /-- `IDST_W1C_MASK`, the bits of the DMA status register a write can clear. -/
  idstW1cMask : Word
  /-- `FIFO_BYTES`, the bytes one FIFO-port access moves. -/
  fifoBytes : Nat
  /-- `CARD_PRESENT_AT_POWER_ON` (open, D30). -/
  cardPresentAtPowerOn : Bool
  /-- `UNIMP_SET`, the registers whose writes are also logged as unimplemented. -/
  unimpSet : List Reg
  /-- `DESC_WRITEBACK_NORMALISES_SIZE`. -/
  writebackNormalisesSize : Bool
  /-- `DESC_OVERSIZE_CLAMP`. -/
  oversizeClamp : Bool
  /-- No parameter of R5: whether `WR DMAC` and `WR IDIE` make the `IrqUpdate()` call that 40_register_access.md R178 and
  R184 give them and 43_interrupt_coalescer.md R281's complete list of callers leaves out. The spec conflicts with itself
  there; the model holds both readings, and its default is R281's, which 90_conflicts.md C5 and decision D33 back (log
  entry 17, DESIGN CHOICE). -/
  dmaControlDrivesLine : Bool
deriving DecidableEq, Repr

/-- `Card.issue` of the abstract card in state `c`: the answer (`none` is failure) and the card's next state (R8). No
body: nothing can be proved of what a card answers. -/
opaque Config.cardIssue : Nat → BitVec 6 → Word → Option (List Byte) × Nat

/-- `Card.data_ready` of the abstract card; it does not change the card (R8). -/
opaque Config.cardReady : Nat → Bool

/-- `Card.read_byte` of the abstract card; total (R8). -/
opaque Config.cardRead : Nat → Byte × Nat

/-- `Card.write_byte` of the abstract card (R8). -/
opaque Config.cardWrite : Nat → Byte → Nat

/-- What a scripted card answers to its `n`-th read past the bytes it was given (93_implementation_defined.md U9,
any value). -/
opaque Config.dryByte : Nat → Byte

end Sys2Proof
end

