-- ==== Sys2Proof/Machine/Flags.lean ====
section
/-! DEFINITION. The named fields of the registers and of a descriptor's status word (10_state.md R25, R31, R36, R37, R47;
30_encoding.md R103, R104): single bits, the default positions, masks of several fields. All default positions are
`[from general knowledge, not in source]` (decisions D2, D11). -/

namespace Sys2Proof

/-- The word with bit `n` set and no other. -/
def bit (n : Nat) : Word := BitVec.twoPow 32 n

/-- `v` with bit `n` set. -/
def setBit (v : Word) (n : Nat) : Word := v ||| bit n

/-- `v` with bit `n` cleared. -/
def clearBit (v : Word) (n : Nat) : Word := v &&& ~~~(bit n)

/-- The default positions (10_state.md R25 `GCTL`, R31 `CMDR`, R36 `RISR`, R37 `STAR`, R47 `IDST`; 30_encoding.md R104
a descriptor's status). -/
def Positions.default : Positions where
  softRst := 0
  fifoRst := 1
  dmaRst := 2
  intEnb := 4
  dmaEnb := 5
  cmdIdx := 0
  respExp := 6
  respLong := 7
  dataExp := 9
  cmdWrite := 10
  autostop := 12
  clkChange := 21
  load := 31
  noResponse := 1
  cmdComplete := 2
  dataComplete := 3
  autocmdDone := 14
  sdioIntr := 16
  cardInsert := 30
  cardRemove := 31
  cardPresent := 8
  txDone := 0
  rxDone := 1
  rxSummary := 8
  hold := 31
  error := 30
  chain := 4
  first := 3
  last := 2
  noIrq := 1

/-- The bits the named fields of each register, and of a descriptor's status, occupy. -/
def Positions.fieldBits (p : Positions) : List (List Nat) :=
  [[p.softRst, p.fifoRst, p.dmaRst, p.intEnb, p.dmaEnb],
   [p.cmdIdx, p.cmdIdx + 1, p.cmdIdx + 2, p.cmdIdx + 3, p.cmdIdx + 4, p.cmdIdx + 5, p.respExp, p.respLong, p.dataExp,
    p.cmdWrite, p.autostop, p.clkChange, p.load],
   [p.noResponse, p.cmdComplete, p.dataComplete, p.autocmdDone, p.sdioIntr, p.cardInsert, p.cardRemove],
   [p.cardPresent],
   [p.txDone, p.rxDone, p.rxSummary],
   [p.hold, p.error, p.chain, p.first, p.last, p.noIrq]]

/-- No two named fields of one register overlap, and each lies in its 32 bits (00_scope.md R6). -/
def Positions.wf (p : Positions) : Bool :=
  p.fieldBits.all (fun l => decide l.Nodup && l.all (fun n => decide (n < 32)))

/-- The three self-clearing strobes of `GCTL` as a mask (10_state.md R25, 40_register_access.md R132). -/
def Positions.strobes (p : Positions) : Word := bit p.softRst ||| bit p.fifoRst ||| bit p.dmaRst

/-- The `RISR` bits some rule sets (10_state.md R36, R56 (iv)). -/
def Positions.risrUsed (p : Positions) : Word :=
  bit p.noResponse ||| bit p.cmdComplete ||| bit p.dataComplete ||| bit p.autocmdDone ||| bit p.cardInsert
    ||| bit p.cardRemove

/-- The `IDST` bits some rule sets (10_state.md R47, R56 (iv)). -/
def Positions.idstUsed (p : Positions) : Word := bit p.txDone ||| bit p.rxDone ||| bit p.rxSummary

end Sys2Proof
end

