-- ==== Sys2Proof/Machine/Registers.lean ====
section
/-! DEFINITION. The register map as tables: default offsets (10_state.md R24) and reset literals (R52), reading and
writing one storage cell. Every number is `[from general knowledge, not in source]` in the spec (decisions D1, D3). -/

namespace Sys2Proof

/-- Every register name, in the order of 10_state.md R24. -/
def Reg.all : List Reg :=
  [.gctl, .ckcr, .tmor, .bwdr, .bksr, .bycr, .cmdr, .cagr, .resp0, .resp1]
  ++ [.resp2, .resp3, .imkr, .misr, .risr, .star, .fwlr, .funs, .dbgc, .a12a]
  ++ [.ntsr, .sdbg, .hwrst, .dmac, .dlba, .idst, .idie, .thldc, .dsbd, .resCrc]
  ++ [.data7Crc, .data6Crc, .data5Crc, .data4Crc, .data3Crc, .data2Crc, .data1Crc, .data0Crc, .crcSta, .fifo]

/-- `OFF[reg]` of a table of offsets. -/
def Offsets.get (o : Offsets) : Reg → Word
  | .gctl => o.gctl
  | .ckcr => o.ckcr
  | .tmor => o.tmor
  | .bwdr => o.bwdr
  | .bksr => o.bksr
  | .bycr => o.bycr
  | .cmdr => o.cmdr
  | .cagr => o.cagr
  | .resp0 => o.resp0
  | .resp1 => o.resp1
  | .resp2 => o.resp2
  | .resp3 => o.resp3
  | .imkr => o.imkr
  | .misr => o.misr
  | .risr => o.risr
  | .star => o.star
  | .fwlr => o.fwlr
  | .funs => o.funs
  | .dbgc => o.dbgc
  | .a12a => o.a12a
  | .ntsr => o.ntsr
  | .sdbg => o.sdbg
  | .hwrst => o.hwrst
  | .dmac => o.dmac
  | .dlba => o.dlba
  | .idst => o.idst
  | .idie => o.idie
  | .thldc => o.thldc
  | .dsbd => o.dsbd
  | .resCrc => o.resCrc
  | .data7Crc => o.data7Crc
  | .data6Crc => o.data6Crc
  | .data5Crc => o.data5Crc
  | .data4Crc => o.data4Crc
  | .data3Crc => o.data3Crc
  | .data2Crc => o.data2Crc
  | .data1Crc => o.data1Crc
  | .data0Crc => o.data0Crc
  | .crcSta => o.crcSta
  | .fifo => o.fifo

/-- `OFF`, the default offset table (10_state.md R24, decision D1). -/
def Offsets.default : Offsets where
  gctl := 0x000
  ckcr := 0x004
  tmor := 0x008
  bwdr := 0x00C
  bksr := 0x010
  bycr := 0x014
  cmdr := 0x018
  cagr := 0x01C
  resp0 := 0x020
  resp1 := 0x024
  resp2 := 0x028
  resp3 := 0x02C
  imkr := 0x030
  misr := 0x034
  risr := 0x038
  star := 0x03C
  fwlr := 0x040
  funs := 0x044
  dbgc := 0x050
  a12a := 0x058
  ntsr := 0x05C
  sdbg := 0x060
  hwrst := 0x078
  dmac := 0x080
  dlba := 0x084
  idst := 0x088
  idie := 0x08C
  thldc := 0x100
  dsbd := 0x10C
  resCrc := 0x110
  data7Crc := 0x114
  data6Crc := 0x118
  data5Crc := 0x11C
  data4Crc := 0x120
  data3Crc := 0x124
  data2Crc := 0x128
  data1Crc := 0x12C
  data0Crc := 0x130
  crcSta := 0x134
  fifo := 0x200

/-- The register name of a storage cell. -/
def Cell.reg : Cell → Reg
  | .gctl => .gctl
  | .ckcr => .ckcr
  | .tmor => .tmor
  | .bwdr => .bwdr
  | .bksr => .bksr
  | .bycr => .bycr
  | .cmdr => .cmdr
  | .cagr => .cagr
  | .resp0 => .resp0
  | .resp1 => .resp1
  | .resp2 => .resp2
  | .resp3 => .resp3
  | .imkr => .imkr
  | .risr => .risr
  | .star => .star
  | .fwlr => .fwlr
  | .funs => .funs
  | .dbgc => .dbgc
  | .a12a => .a12a
  | .ntsr => .ntsr
  | .sdbg => .sdbg
  | .hwrst => .hwrst
  | .dmac => .dmac
  | .dlba => .dlba
  | .idst => .idst
  | .idie => .idie
  | .thldc => .thldc
  | .dsbd => .dsbd

/-- Every storage cell. -/
def Cell.all : List Cell :=
  [.gctl, .ckcr, .tmor, .bwdr, .bksr, .bycr, .cmdr, .cagr, .resp0, .resp1]
  ++ [.resp2, .resp3, .imkr, .risr, .star, .fwlr, .funs, .dbgc, .a12a, .ntsr]
  ++ [.sdbg, .hwrst, .dmac, .dlba, .idst, .idie, .thldc, .dsbd]

/-- `x[reg]`: the value of a storage cell (00_scope.md R12). -/
def Regs.get (x : Regs) : Cell → Word
  | .gctl => x.gctl
  | .ckcr => x.ckcr
  | .tmor => x.tmor
  | .bwdr => x.bwdr
  | .bksr => x.bksr
  | .bycr => x.bycr
  | .cmdr => x.cmdr
  | .cagr => x.cagr
  | .resp0 => x.resp0
  | .resp1 => x.resp1
  | .resp2 => x.resp2
  | .resp3 => x.resp3
  | .imkr => x.imkr
  | .risr => x.risr
  | .star => x.star
  | .fwlr => x.fwlr
  | .funs => x.funs
  | .dbgc => x.dbgc
  | .a12a => x.a12a
  | .ntsr => x.ntsr
  | .sdbg => x.sdbg
  | .hwrst => x.hwrst
  | .dmac => x.dmac
  | .dlba => x.dlba
  | .idst => x.idst
  | .idie => x.idie
  | .thldc => x.thldc
  | .dsbd => x.dsbd

/-- `x[reg] <- v` (00_scope.md R12). -/
def Regs.set (x : Regs) (v : Word) : Cell → Regs
  | .gctl => { x with gctl := v }
  | .ckcr => { x with ckcr := v }
  | .tmor => { x with tmor := v }
  | .bwdr => { x with bwdr := v }
  | .bksr => { x with bksr := v }
  | .bycr => { x with bycr := v }
  | .cmdr => { x with cmdr := v }
  | .cagr => { x with cagr := v }
  | .resp0 => { x with resp0 := v }
  | .resp1 => { x with resp1 := v }
  | .resp2 => { x with resp2 := v }
  | .resp3 => { x with resp3 := v }
  | .imkr => { x with imkr := v }
  | .risr => { x with risr := v }
  | .star => { x with star := v }
  | .fwlr => { x with fwlr := v }
  | .funs => { x with funs := v }
  | .dbgc => { x with dbgc := v }
  | .a12a => { x with a12a := v }
  | .ntsr => { x with ntsr := v }
  | .sdbg => { x with sdbg := v }
  | .hwrst => { x with hwrst := v }
  | .dmac => { x with dmac := v }
  | .dlba => { x with dlba := v }
  | .idst => { x with idst := v }
  | .idie => { x with idie := v }
  | .thldc => { x with thldc := v }
  | .dsbd => { x with dsbd := v }

/-- `RST`, the default reset table (10_state.md R52, decision D3). The entry of `STAR` covers its bits other than 8;
bit 8, Card-Present, is excluded from reset (90_conflicts.md C4). -/
def Regs.resetTable : Regs where
  gctl := 0x00000300
  ckcr := 0x00000000
  tmor := 0xFFFFFF40
  bwdr := 0x00000000
  bksr := 0x00000200
  bycr := 0x00000200
  cmdr := 0x00000000
  cagr := 0x00000000
  resp0 := 0x00000000
  resp1 := 0x00000000
  resp2 := 0x00000000
  resp3 := 0x00000000
  imkr := 0x00000000
  risr := 0x00000000
  star := 0x00000000
  fwlr := 0x000F0000
  funs := 0x00000000
  dbgc := 0x00000000
  a12a := 0x0000FFFF
  ntsr := 0x00000001
  sdbg := 0x00000000
  hwrst := 0x00000001
  dmac := 0x00000000
  dlba := 0x00000000
  idst := 0x00000000
  idie := 0x00000000
  thldc := 0x00000000
  dsbd := 0x00000000

/-- Every cell zero: the operand of a snapshot whose bits are all 0. -/
def Regs.zero : Regs where
  gctl := 0
  ckcr := 0
  tmor := 0
  bwdr := 0
  bksr := 0
  bycr := 0
  cmdr := 0
  cagr := 0
  resp0 := 0
  resp1 := 0
  resp2 := 0
  resp3 := 0
  imkr := 0
  risr := 0
  star := 0
  fwlr := 0
  funs := 0
  dbgc := 0
  a12a := 0
  ntsr := 0
  sdbg := 0
  hwrst := 0
  dmac := 0
  dlba := 0
  idst := 0
  idie := 0
  thldc := 0
  dsbd := 0

/-- The snapshot whose bits are all 0. -/
def Snapshot.zero : Snapshot where
  x := Regs.zero
  xfer := 0

end Sys2Proof
end

