-- ==== Sys2Proof/Machine/Operands.lean ====
section
/-! DEFINITION. The default instance of `Cfg` and its well-formedness (00_scope.md R5, R6), operand assembly (30_encoding.md
R105 to R109) and the arithmetic primitives of 00_scope.md R11. -/

namespace Sys2Proof

/-- The default instance of `Cfg` (R5, column "default"). Two parameters have no default in the spec: the window's base is
0 here, read by `busInput` alone (log entry 2), and Card-Present at power-on is false, the value 70_reset_and_hazards.md
R383 offers a model that fixes one (log entry 5). `dmaControlDrivesLine` is the model's own; its default
follows R281's complete list of callers, as 90_conflicts.md C5 and decision D33 rule (log entry 17). -/
def Cfg.default : Cfg where
  mmioBase := 0
  mmioSize := 0x1000
  offsets := Offsets.default
  pos := Positions.default
  rst := Regs.resetTable
  stopCmdId := 12
  addrBits := 32
  descByteOrder := .little
  bufAddrMask := 0xFFFFFFFC
  stageBytes := 1024
  idstW1cMask := 0x000003FF
  fifoBytes := 4
  cardPresentAtPowerOn := false
  unimpSet := []
  writebackNormalisesSize := false
  oversizeClamp := false
  dmaControlDrivesLine := false

/-- The clauses of R6 about the register map: every offset a multiple of 4 inside the window, no two registers at one
offset. -/
def Cfg.mapWf (c : Cfg) : Bool :=
  Reg.all.all (fun r => (c.offsets.get r).toNat % 4 == 0 && decide ((c.offsets.get r).toNat < c.mmioSize))
    && decide (Reg.all.map c.offsets.get).Nodup

/-- Well-formedness of `Cfg` (R6). The clauses on widths hold by the fields' types. -/
def Cfg.wf (c : Cfg) : Bool := decide (1 ≤ c.stageBytes) && c.mapWf && c.pos.wf

/-- The address of byte `k` from the address `a` on, modulo the address space (20_memory.md R83, `ADDR_BITS`). The
spec writes 2^32 alone; any other `ADDR_BITS` is the model's choice (log entry 20, DESIGN CHOICE). -/
def Cfg.byteAddr (c : Cfg) (a : Word) (k : Nat) : Nat := (a.toNat + k) % 2 ^ c.addrBits

/-- `sat_sub(a, b)` (00_scope.md R11), with `b` a count of bytes. -/
def satSub (a : Word) (n : Nat) : Word := BitVec.ofNat 32 (a.toNat - n)

/-- `be32(s)` (00_scope.md R11): the first byte is the most significant. -/
def be32 (b0 b1 b2 b3 : Byte) : Word := b0 ++ b1 ++ b2 ++ b3

/-- `le32(s)` (00_scope.md R11): the first byte is the least significant. -/
def le32 (b0 b1 b2 b3 : Byte) : Word := b3 ++ b2 ++ b1 ++ b0

/-- `le32` of the first four bytes of a sequence. -/
def le32List (s : List Byte) : Word := le32 (s.getD 0 0) (s.getD 1 0) (s.getD 2 0) (s.getD 3 0)

/-- `be32(s[i..i+3])` of a byte sequence. -/
def be32At (s : List Byte) (i : Nat) : Word :=
  be32 (s.getD i 0) (s.getD (i + 1) 0) (s.getD (i + 2) 0) (s.getD (i + 3) 0)

/-- `bytes_le32(v)` (00_scope.md R11); also the four bytes of a FIFO write in stream order (R109). -/
def bytesLe32 (v : Word) : List Byte :=
  [v.extractLsb' 0 8, v.extractLsb' 8 8, v.extractLsb' 16 8, v.extractLsb' 24 8]

/-- The `n` bytes of a FIFO word in stream order, the first from bits 7:0 (R109, `FIFO_BYTES` = `n`). The spec gives four bytes
only; that a byte past bit 31 is 0, and that with fewer than four the upper bits are not sent, is the model's choice (log
entry 18, DESIGN CHOICE). -/
def streamBytes : Nat → Word → List Byte
  | 0, _ => []
  | n + 1, v => v.extractLsb' 0 8 :: streamBytes n (v >>> 8)

/-- The word that stream bytes form, the first in bits 7:0 (R109). The spec gives four bytes only; that bytes
past the fourth are dropped, and that with fewer than four the upper bits are 0, is the model's choice (log entry 18,
DESIGN CHOICE). -/
def streamWord : List Byte → Word
  | [] => 0
  | b :: rest => b.setWidth 32 ||| streamWord rest <<< 8

/-- The bytes of a descriptor word in memory, lowest address first (20_memory.md R75, `DESC_BYTE_ORDER`). -/
def ByteOrder.bytes (o : ByteOrder) (v : Word) : List Byte :=
  match o with
  | .little => bytesLe32 v
  | .big => (bytesLe32 v).reverse

/-- The descriptor word that the first four bytes of a sequence hold (20_memory.md R75, `DESC_BYTE_ORDER`). -/
def ByteOrder.word (o : ByteOrder) (s : List Byte) : Word :=
  match o with
  | .little => le32List s
  | .big => be32At s 0

/-- The command id, `w[5:0]` in the default map (R105). -/
def cmdIdx (p : Positions) (w : Word) : BitVec 6 := w.extractLsb' p.cmdIdx 6

/-- `w.RESP_EXP` (R105). -/
def respExp (p : Positions) (w : Word) : Bool := w.getLsbD p.respExp
/-- `w.RESP_LONG` (R105). -/
def respLong (p : Positions) (w : Word) : Bool := w.getLsbD p.respLong
/-- `w.WRITE` (R105): true is memory to card. -/
def cmdWrite (p : Positions) (w : Word) : Bool := w.getLsbD p.cmdWrite
/-- `w.AUTOSTOP` (R105). -/
def autostop (p : Positions) (w : Word) : Bool := w.getLsbD p.autostop
/-- `w.CLKCHANGE` (R105). -/
def clkChange (p : Positions) (w : Word) : Bool := w.getLsbD p.clkChange
/-- `w.LOAD` (R103). -/
def loadBit (p : Positions) (w : Word) : Bool := w.getLsbD p.load

/-- `w` with its command id replaced. -/
def withCmdIdx (p : Positions) (w : Word) (id : BitVec 6) : Word :=
  (w &&& ~~~((0x3F : Word) <<< p.cmdIdx)) ||| id.setWidth 32 <<< p.cmdIdx

/-- The synthetic stop command's word (41_command_engine.md R230, R231): the original with only the id replaced. -/
def stopWord (c : Cfg) (w : Word) : Word := withCmdIdx c.pos w c.stopCmdId

/-- `LAST` of a descriptor (30_encoding.md R112). -/
def Desc.isLast (p : Positions) (d : Desc) : Bool := d.status.getLsbD p.last

/-- `eff` (30_encoding.md R106, 42_dma_engine.md R256): a size word of 0 means 65536; a larger word is used as it is
unless `DESC_OVERSIZE_CLAMP`. -/
def Desc.effSize (c : Cfg) (d : Desc) : Nat :=
  if d.size = 0 then descMaxSize
  else if c.oversizeClamp then min d.size.toNat descMaxSize else d.size.toNat

/-- `n = min(eff, outstanding)` (42_dma_engine.md R256). -/
def Desc.chunk (c : Cfg) (d : Desc) (outstanding : Word) : Nat := min (d.effSize c) outstanding.toNat

/-- `base = addr & BUF_ADDR_MASK` (30_encoding.md R107). -/
def Desc.base (c : Cfg) (d : Desc) : Word := d.addr &&& c.bufAddrMask

/-- The descriptor as it is written back (42_dma_engine.md R260): `HOLD` cleared, all else as fetched (a zero size
written as 65536 only with `DESC_WRITEBACK_NORMALISES_SIZE`). -/
def Desc.handedBack (c : Cfg) (d : Desc) : Desc :=
  { d with
    status := clearBit d.status c.pos.hold
    size := if d.size = 0 && c.writebackNormalisesSize then BitVec.ofNat 32 descMaxSize else d.size }

/-- The 16 bytes of a descriptor in memory: four words in the configured byte order (20_memory.md R75, 30_encoding.md
R104). -/
def Desc.toBytes (o : ByteOrder) (d : Desc) : List Byte :=
  o.bytes d.status ++ o.bytes d.size ++ o.bytes d.addr ++ o.bytes d.next

/-- The descriptor that 16 bytes of memory hold (20_memory.md R75, 42_dma_engine.md R255). -/
def Desc.ofBytes (o : ByteOrder) (b : List Byte) : Desc where
  status := o.word b
  size := o.word (b.drop 4)
  addr := o.word (b.drop 8)
  next := o.word (b.drop 12)

/-- What a card's answer to a dispatched command amounts to (41_command_engine.md R228). -/
inductive CmdResult where
  /-- `NO_RESPONSE`: the card failed, or the length does not fit the flags. -/
  | failed
  /-- Success with the response registers untouched (R225). -/
  | done
  /-- Success with a response to store in `RESP0` to `RESP3` (R226, R227). -/
  | captured (w0 w1 w2 w3 : Word)
deriving DecidableEq, Repr

/-- The outcome table of a dispatch (41_command_engine.md R222, R228) with the response assembly of 30_encoding.md R108:
a long response's words are stored in reversed order. -/
def cmdResult (p : Positions) (w : Word) : Option (List Byte) → CmdResult
  | none => .failed
  | some r =>
    if respExp p w = false then .done
    else if r.length = 4 ∧ respLong p w = false then .captured (be32At r 0) 0 0 0
    else if r.length = 16 ∧ respLong p w = true then
      .captured (be32At r 12) (be32At r 8) (be32At r 4) (be32At r 0)
    else .failed

end Sys2Proof
end

