-- ==== Sys2Proof/WellFormed.lean ====
section
/-! DEFINITION. Which terms of `Instr` are operations: the side conditions of the opcode table's catch-all, command-class
and descriptor-class rows (30_encoding.md R110 to R114). Every term of the other constructors is an operation. -/

namespace Sys2Proof

/-- The register at an offset, if there is one (30_encoding.md R110 step 2); beyond the window there is none
(20_memory.md R71). -/
def regAt (c : Cfg) (off : Word) : Option Reg :=
  if off.toNat < c.mmioSize then Reg.all.find? (fun r => c.offsets.get r == off) else none

/-- The one legal access shape (20_memory.md R78): 4 bytes at a multiple of 4. -/
def legalShape (off : Word) (size : Nat) : Bool := size == accessBytes && off.toNat % 4 == 0

/-- The class of a command word (30_encoding.md R111). -/
inductive CmdClass where
  | store
  | clkchg
  | noresp
  | short
  | long
deriving DecidableEq, Repr

/-- The class of a command word, first match wins (30_encoding.md R111). -/
def cmdClass (p : Positions) (w : Word) : CmdClass :=
  if loadBit p w = false then .store
  else if clkChange p w then .clkchg
  else if respExp p w = false then .noresp
  else if respLong p w = false then .short
  else .long

/-- Well-formedness: the term is one the decoder can give. -/
def Instr.wellFormed (c : Cfg) : Instr → Bool
  | .wrxUnknownOffset off _ => legalShape off accessBytes && (regAt c off).isNone
  | .rdxUnknownOffset off => legalShape off accessBytes && (regAt c off).isNone
  | .wrxIllegalAccess off size _ => !legalShape off size
  | .rdxIllegalAccess off size => !legalShape off size
  | .cmdStore w => cmdClass c.pos w == .store
  | .cmdClkchg w => cmdClass c.pos w == .clkchg
  | .cmdNoresp w => cmdClass c.pos w == .noresp
  | .cmdShort w => cmdClass c.pos w == .short
  | .cmdLong w => cmdClass c.pos w == .long
  | .descLast _ d => d.isLast c.pos
  | .descLink _ d => !d.isLast c.pos
  | _ => true

end Sys2Proof
end

