-- ==== Sys2Proof/Decode.lean ====
section
/-! DEFINITION. Decoding a term of one of the four formats to its row (30_encoding.md R110 to R112), total, rejecting by
name, and encoding (R101 to R104). Also the reading of an opcode-table word, which carries no side fields. -/

namespace Sys2Proof

/-- Why a term of a format stands for no row of the opcode table. -/
inductive DecodeError where
  /-- An event code above 4: "Codes 5 to 7 are unused" (30_encoding.md R102). -/
  | unusedEventCode
  /-- A descriptor that is not 16 bytes long (30_encoding.md R104); no input of the device is one. -/
  | descriptorLength
deriving DecidableEq, Repr

/-- The write of `v` to a register (R110 step 3). -/
def wrInstr (v : Word) : Reg → Instr
  | .gctl => .wrGctl v
  | .ckcr => .wrCkcr v
  | .tmor => .wrTmor v
  | .bwdr => .wrBwdr v
  | .bksr => .wrBksr v
  | .bycr => .wrBycr v
  | .cmdr => .wrCmdr v
  | .cagr => .wrCagr v
  | .resp0 => .wrResp0 v
  | .resp1 => .wrResp1 v
  | .resp2 => .wrResp2 v
  | .resp3 => .wrResp3 v
  | .imkr => .wrImkr v
  | .misr => .wrMisr v
  | .risr => .wrRisr v
  | .star => .wrStar v
  | .fwlr => .wrFwlr v
  | .funs => .wrFuns v
  | .dbgc => .wrDbgc v
  | .a12a => .wrA12a v
  | .ntsr => .wrNtsr v
  | .sdbg => .wrSdbg v
  | .hwrst => .wrHwrst v
  | .dmac => .wrDmac v
  | .dlba => .wrDlba v
  | .idst => .wrIdst v
  | .idie => .wrIdie v
  | .thldc => .wrThldc v
  | .dsbd => .wrDsbd v
  | .resCrc => .wrResCrc v
  | .data7Crc => .wrData7Crc v
  | .data6Crc => .wrData6Crc v
  | .data5Crc => .wrData5Crc v
  | .data4Crc => .wrData4Crc v
  | .data3Crc => .wrData3Crc v
  | .data2Crc => .wrData2Crc v
  | .data1Crc => .wrData1Crc v
  | .data0Crc => .wrData0Crc v
  | .crcSta => .wrCrcSta v
  | .fifo => .wrFifo v

/-- The read of a register (R110 step 3). -/
def rdInstr : Reg → Instr
  | .gctl => .rdGctl
  | .ckcr => .rdCkcr
  | .tmor => .rdTmor
  | .bwdr => .rdBwdr
  | .bksr => .rdBksr
  | .bycr => .rdBycr
  | .cmdr => .rdCmdr
  | .cagr => .rdCagr
  | .resp0 => .rdResp0
  | .resp1 => .rdResp1
  | .resp2 => .rdResp2
  | .resp3 => .rdResp3
  | .imkr => .rdImkr
  | .misr => .rdMisr
  | .risr => .rdRisr
  | .star => .rdStar
  | .fwlr => .rdFwlr
  | .funs => .rdFuns
  | .dbgc => .rdDbgc
  | .a12a => .rdA12a
  | .ntsr => .rdNtsr
  | .sdbg => .rdSdbg
  | .hwrst => .rdHwrst
  | .dmac => .rdDmac
  | .dlba => .rdDlba
  | .idst => .rdIdst
  | .idie => .rdIdie
  | .thldc => .rdThldc
  | .dsbd => .rdDsbd
  | .resCrc => .rdResCrc
  | .data7Crc => .rdData7Crc
  | .data6Crc => .rdData6Crc
  | .data5Crc => .rdData5Crc
  | .data4Crc => .rdData4Crc
  | .data3Crc => .rdData3Crc
  | .data2Crc => .rdData2Crc
  | .data1Crc => .rdData1Crc
  | .data0Crc => .rdData0Crc
  | .crcSta => .rdCrcSta
  | .fifo => .rdFifo

/-- Decoding a bus transaction, in the order of R110: shape, then offset, then direction. -/
def decodeMmio (c : Cfg) (header : BitVec 13) (offHigh : BitVec 20) (size : Nat) (data : Word) : Instr :=
  let off : Word := offHigh ++ header.extractLsb' 0 12
  let isWrite := header.getLsbD 12
  if legalShape off size then
    match regAt c off with
    | some r => if isWrite then wrInstr data r else rdInstr r
    | none => if isWrite then .wrxUnknownOffset off data else .rdxUnknownOffset off
  else if isWrite then .wrxIllegalAccess off size data else .rdxIllegalAccess off size

/-- Decoding an event code (R102). -/
def decodeEvent (code : BitVec 3) (snap : Snapshot) : Except DecodeError Instr :=
  if code = 0 then .ok .evInsert
  else if code = 1 then .ok .evRemove
  else if code = 2 then .ok .evReset
  else if code = 3 then .ok .evSave
  else if code = 4 then .ok (.evRestore snap)
  else .error .unusedEventCode

/-- Decoding a command word into its class, first match wins (R111). -/
def decodeCommand (p : Positions) (w : Word) : Instr :=
  match cmdClass p w with
  | .store => .cmdStore w
  | .clkchg => .cmdClkchg w
  | .noresp => .cmdNoresp w
  | .short => .cmdShort w
  | .long => .cmdLong w

/-- Decoding a descriptor's status (R112). -/
def decodeDesc (p : Positions) (dptr : Word) (d : Desc) : Instr :=
  if d.isLast p then .descLast dptr d else .descLink dptr d

/-- The operation an input of the device stands for. -/
def decodeInput (c : Cfg) : Input → Except DecodeError Instr
  | .mmio header offHigh size data => .ok (decodeMmio c header offHigh size data)
  | .event code snap => decodeEvent code snap
  | .command w => .ok (decodeCommand c.pos w)

/-- The row of the opcode table that a term of one of the four formats stands for. -/
def decode (c : Cfg) : Encoded → Except DecodeError Instr
  | .input i => decodeInput c i
  | .descriptor dptr bytes =>
    if bytes.length = descBytes then .ok (decodeDesc c.pos dptr (Desc.ofBytes c.descByteOrder bytes))
    else .error .descriptorLength

/-- A bus transaction (R101): `W ++ OFFSET`, then the side fields. -/
def mmioInput (isWrite : Bool) (off : Word) (size : Nat) (data : Word) : Input :=
  .mmio (BitVec.ofBool isWrite ++ off.extractLsb' 0 12) (off.extractLsb' 12 20) size data

/-- A legal write of `v` to a register. -/
def writeInput (c : Cfg) (r : Reg) (v : Word) : Input := mmioInput true (c.offsets.get r) accessBytes v

/-- A legal read of a register. -/
def readInput (c : Cfg) (r : Reg) : Input := mmioInput false (c.offsets.get r) accessBytes 0

/-- The encoding of an operation (R101 to R104). -/
def encode (c : Cfg) : Instr → Encoded
  | .wrGctl v => .input (writeInput c .gctl v)
  | .rdGctl => .input (readInput c .gctl)
  | .wrCkcr v => .input (writeInput c .ckcr v)
  | .rdCkcr => .input (readInput c .ckcr)
  | .wrTmor v => .input (writeInput c .tmor v)
  | .rdTmor => .input (readInput c .tmor)
  | .wrBwdr v => .input (writeInput c .bwdr v)
  | .rdBwdr => .input (readInput c .bwdr)
  | .wrBksr v => .input (writeInput c .bksr v)
  | .rdBksr => .input (readInput c .bksr)
  | .wrBycr v => .input (writeInput c .bycr v)
  | .rdBycr => .input (readInput c .bycr)
  | .wrCmdr v => .input (writeInput c .cmdr v)
  | .rdCmdr => .input (readInput c .cmdr)
  | .wrCagr v => .input (writeInput c .cagr v)
  | .rdCagr => .input (readInput c .cagr)
  | .wrResp0 v => .input (writeInput c .resp0 v)
  | .rdResp0 => .input (readInput c .resp0)
  | .wrResp1 v => .input (writeInput c .resp1 v)
  | .rdResp1 => .input (readInput c .resp1)
  | .wrResp2 v => .input (writeInput c .resp2 v)
  | .rdResp2 => .input (readInput c .resp2)
  | .wrResp3 v => .input (writeInput c .resp3 v)
  | .rdResp3 => .input (readInput c .resp3)
  | .wrImkr v => .input (writeInput c .imkr v)
  | .rdImkr => .input (readInput c .imkr)
  | .wrMisr v => .input (writeInput c .misr v)
  | .rdMisr => .input (readInput c .misr)
  | .wrRisr v => .input (writeInput c .risr v)
  | .rdRisr => .input (readInput c .risr)
  | .wrStar v => .input (writeInput c .star v)
  | .rdStar => .input (readInput c .star)
  | .wrFwlr v => .input (writeInput c .fwlr v)
  | .rdFwlr => .input (readInput c .fwlr)
  | .wrFuns v => .input (writeInput c .funs v)
  | .rdFuns => .input (readInput c .funs)
  | .wrDbgc v => .input (writeInput c .dbgc v)
  | .rdDbgc => .input (readInput c .dbgc)
  | .wrA12a v => .input (writeInput c .a12a v)
  | .rdA12a => .input (readInput c .a12a)
  | .wrNtsr v => .input (writeInput c .ntsr v)
  | .rdNtsr => .input (readInput c .ntsr)
  | .wrSdbg v => .input (writeInput c .sdbg v)
  | .rdSdbg => .input (readInput c .sdbg)
  | .wrHwrst v => .input (writeInput c .hwrst v)
  | .rdHwrst => .input (readInput c .hwrst)
  | .wrDmac v => .input (writeInput c .dmac v)
  | .rdDmac => .input (readInput c .dmac)
  | .wrDlba v => .input (writeInput c .dlba v)
  | .rdDlba => .input (readInput c .dlba)
  | .wrIdst v => .input (writeInput c .idst v)
  | .rdIdst => .input (readInput c .idst)
  | .wrIdie v => .input (writeInput c .idie v)
  | .rdIdie => .input (readInput c .idie)
  | .wrThldc v => .input (writeInput c .thldc v)
  | .rdThldc => .input (readInput c .thldc)
  | .wrDsbd v => .input (writeInput c .dsbd v)
  | .rdDsbd => .input (readInput c .dsbd)
  | .wrResCrc v => .input (writeInput c .resCrc v)
  | .rdResCrc => .input (readInput c .resCrc)
  | .wrData7Crc v => .input (writeInput c .data7Crc v)
  | .rdData7Crc => .input (readInput c .data7Crc)
  | .wrData6Crc v => .input (writeInput c .data6Crc v)
  | .rdData6Crc => .input (readInput c .data6Crc)
  | .wrData5Crc v => .input (writeInput c .data5Crc v)
  | .rdData5Crc => .input (readInput c .data5Crc)
  | .wrData4Crc v => .input (writeInput c .data4Crc v)
  | .rdData4Crc => .input (readInput c .data4Crc)
  | .wrData3Crc v => .input (writeInput c .data3Crc v)
  | .rdData3Crc => .input (readInput c .data3Crc)
  | .wrData2Crc v => .input (writeInput c .data2Crc v)
  | .rdData2Crc => .input (readInput c .data2Crc)
  | .wrData1Crc v => .input (writeInput c .data1Crc v)
  | .rdData1Crc => .input (readInput c .data1Crc)
  | .wrData0Crc v => .input (writeInput c .data0Crc v)
  | .rdData0Crc => .input (readInput c .data0Crc)
  | .wrCrcSta v => .input (writeInput c .crcSta v)
  | .rdCrcSta => .input (readInput c .crcSta)
  | .wrFifo v => .input (writeInput c .fifo v)
  | .rdFifo => .input (readInput c .fifo)
  | .wrxUnknownOffset off v => .input (mmioInput true off accessBytes v)
  | .rdxUnknownOffset off => .input (mmioInput false off accessBytes 0)
  | .wrxIllegalAccess off size v => .input (mmioInput true off size v)
  | .rdxIllegalAccess off size => .input (mmioInput false off size 0)
  | .evInsert => .input (.event 0 Snapshot.zero)
  | .evRemove => .input (.event 1 Snapshot.zero)
  | .evReset => .input (.event 2 Snapshot.zero)
  | .evSave => .input (.event 3 Snapshot.zero)
  | .evRestore snap => .input (.event 4 snap)
  | .cmdStore w => .input (.command w)
  | .cmdClkchg w => .input (.command w)
  | .cmdNoresp w => .input (.command w)
  | .cmdShort w => .input (.command w)
  | .cmdLong w => .input (.command w)
  | .descLast dptr d => .descriptor dptr (d.toBytes c.descByteOrder)
  | .descLink dptr d => .descriptor dptr (d.toBytes c.descByteOrder)

/-- The bus access a platform delivers (20_memory.md R71, 70_reset_and_hazards.md R392 (a)): the device sees
`addr - MMIO_BASE`, and only accesses inside the window reach it. -/
def busInput (c : Cfg) (addr : Word) (isWrite : Bool) (size : Nat) (data : Word) : Option Input :=
  if (addr - c.mmioBase).toNat < c.mmioSize then some (mmioInput isWrite (addr - c.mmioBase) size data) else none

/-- The operations a pseudo-operation stands for (R122). -/
def Pseudo.expand (p : Positions) : Pseudo → List Instr
  | .ack bits => [.wrRisr bits]
  | .ackm bits => [.wrMisr bits]
  | .ackdma bits => [.wrIdst bits]
  | .mask bits => [.wrImkr bits]
  | .setlen n => [.wrBycr n]
  | .setbase a => [.wrDlba a]
  | .send id arg flags => [.wrCagr arg, .wrCmdr (bit p.load + flags + id.setWidth 32 <<< p.cmdIdx)]
  | .clkchg => [.wrCmdr (bit p.load + bit p.clkChange)]
  | .push v => [.wrFifo v]
  | .pop => [.rdFifo]

/-- What an opcode-table word of `nbits` bits encodes, in the default configuration, whose map the table is. A table word
carries neither its format nor its side fields: by length it is an event code, a bus header (with `SIZE` 4, as the
table's rows require, and every other side field 0), or a 32-bit word. Of the two 32-bit formats, a word with `LOAD`
clear and `LAST` set is read as a descriptor's word 0, every other word as a command word (log entry 8). -/
def tableEncoded (nbits w : Nat) : Encoded :=
  let word : Word := BitVec.ofNat 32 w
  if nbits ≤ 8 then .input (.event (BitVec.ofNat 3 w) Snapshot.zero)
  else if nbits ≤ 16 then .input (.mmio (BitVec.ofNat 13 w) 0 accessBytes 0)
  else if loadBit Positions.default word = false ∧ word.getLsbD Positions.default.last = true then
    .descriptor 0 (Desc.toBytes .little ⟨word, 0, 0, 0⟩)
  else .input (.command word)

/-- The operation the decoder reads from an opcode-table word. -/
def decodeTableWord (nbits w : Nat) : Option Instr :=
  match decode Cfg.default (tableEncoded nbits w) with
  | .ok i => some i
  | .error _ => none

end Sys2Proof
end

