-- ==== Sys2Proof/Machine/Card.lean ====
section
/-! DEFINITION. The Card Bus Adapter and card (00_scope.md R8): an abstract transition system for claims over every card,
or a scripted card given by the directives `.card` and `.cardrx` (30_encoding.md R121). -/

namespace Sys2Proof.Machine

/-- The card's state. `abstract c`: any card meeting the contract of R8, in its state number `c`, with the uninterpreted
transitions of Config. `scripted answers rx dry`: answers command `id` with the bytes `answers` lists for it and fails
every other (95_test_vectors.md), offers the bytes `rx`, and has been read `dry` times past their end. -/
inductive Card where
  | abstract (c : Nat)
  | scripted (answers : List (BitVec 6 × List Byte)) (rx : List Byte) (dry : Nat)
deriving DecidableEq, Repr

/-- `Card.issue(id, arg)`: a response, or `none` for failure, and the card after it. -/
def Card.issue (c : Card) (id : BitVec 6) (arg : Word) : Option (List Byte) × Card :=
  match c with
  | .abstract n => ((Config.cardIssue n id arg).1, .abstract (Config.cardIssue n id arg).2)
  | .scripted answers rx dry => (answers.lookup id, .scripted answers rx dry)

/-- `Card.data_ready()`; it does not change the card. A scripted card is ready while it has bytes to give. -/
def Card.dataReady (c : Card) : Bool :=
  match c with
  | .abstract n => Config.cardReady n
  | .scripted _ rx _ => !rx.isEmpty

/-- `Card.read_byte()`: total; past the end of its script a card gives any value (93_implementation_defined.md U9). -/
def Card.readByte (c : Card) : Byte × Card :=
  match c with
  | .abstract n => ((Config.cardRead n).1, .abstract (Config.cardRead n).2)
  | .scripted answers [] dry => (Config.dryByte dry, .scripted answers [] (dry + 1))
  | .scripted answers (b :: rx) dry => (b, .scripted answers rx dry)

/-- `Card.write_byte(b)`. A scripted card takes the byte and does not change. -/
def Card.writeByte (c : Card) (b : Byte) : Card :=
  match c with
  | .abstract n => .abstract (Config.cardWrite n b)
  | .scripted answers rx dry => .scripted answers rx dry

end Sys2Proof.Machine
end

