-- ==== Sys2Proof/Machine/Memory.lean ====
section
/-! DEFINITION. External memory (00_scope.md R7, 20_memory.md R70, R72): bytes at `ADDR_BITS`-bit addresses, held as a list of
(address, byte) pairs with rising addresses and no entry equal to what an unlisted address reads as. -/

namespace Sys2Proof.Machine

/-- External memory's contents. -/
abbrev Memory := List Host.Cell

/-- What an address that is not listed reads as: 0, the convention of the spec's vectors ("external memory all zero",
95_test_vectors.md; log entry 3, DESIGN CHOICE). -/
def Memory.unlisted : Byte := 0

/-- The byte at an address. -/
def Memory.read (m : Memory) (a : Nat) : Byte :=
  match m with
  | [] => Memory.unlisted
  | (k, b) :: rest => if a = k then b else Memory.read rest a

/-- Memory with the byte at `a` replaced, in canonical form. -/
def Memory.write (m : Memory) (a : Nat) (v : Byte) : Memory :=
  match m with
  | [] => if v = Memory.unlisted then [] else [(a, v)]
  | (k, b) :: rest =>
    if a < k then (if v = Memory.unlisted then (k, b) :: rest else (a, v) :: (k, b) :: rest)
    else if a = k then (if v = Memory.unlisted then rest else (a, v) :: rest)
    else (k, b) :: Memory.write rest a v

/-- Canonical form from address `lo` on, of a memory with `bits`-bit addresses. -/
def Memory.wfFrom (bits lo : Nat) : Memory → Bool
  | [] => true
  | (k, b) :: rest =>
    decide (lo ≤ k) && decide (k < 2 ^ bits) && b != Memory.unlisted && Memory.wfFrom bits (k + 1) rest

/-- Canonical form: addresses strictly rising and below `2^bits`, no entry equal to the unlisted byte. -/
def Memory.wf (bits : Nat) (m : Memory) : Bool := Memory.wfFrom bits 0 m

/-- `MemRead(a, n)`: `n` bytes from `a` upward, addresses modulo `2^bits` (00_scope.md R12, 20_memory.md R83). The
spec writes 2^32 alone; any other `ADDR_BITS` is the model's choice (log entry 20, DESIGN CHOICE). -/
def Memory.readBytes (bits : Nat) (m : Memory) (a : Nat) : Nat → List Byte
  | 0 => []
  | n + 1 => m.read (a % 2 ^ bits) :: Memory.readBytes bits m (a + 1) n

/-- `MemWrite(a, n, s)`: the bytes of `s` from `a` upward, in ascending order, addresses modulo `2^bits`
(00_scope.md R12, 20_memory.md R83). The spec writes 2^32 alone; any other `ADDR_BITS`
is the model's choice (log entry 20, DESIGN CHOICE). -/
def Memory.writeBytes (bits : Nat) (m : Memory) (a : Nat) : List Byte → Memory
  | [] => m
  | b :: rest => Memory.writeBytes bits (m.write (a % 2 ^ bits) b) (a + 1) rest

end Sys2Proof.Machine
end

