-- ==== Sys2Proof/Machine/State.lean ====
section
/-! DEFINITION. The state (10_state.md R20, R54, R55; 00_scope.md R7, R8), what stops a step, and the state at power-on
(70_reset_and_hazards.md R383). -/

namespace Sys2Proof.Machine

/-- A diagnostic (60_exceptions.md R340). `isWrite` is the direction. -/
inductive Diag where
  /-- Code 0: wrong size or misaligned (R343). -/
  | badAccess (isWrite : Bool) (off : Word) (size : Nat)
  /-- Code 1: an aligned 4-byte access to no register (R342). -/
  | badOffset (isWrite : Bool) (off : Word)
  /-- Code 2: a write to a register of `UNIMP_SET` (R344). -/
  | unimplemented (reg : Reg) (v : Word)
  /-- Code 3: a FIFO read with no data ready (45_fifo_port.md R312). -/
  | noData (off : Word)
deriving DecidableEq, Repr

/-- What an operation does toward the outside, one entry for each external event (20_memory.md R88, 00_scope.md R9, R12). -/
inductive ExtEvent where
  /-- `Card.issue(id, arg)`. -/
  | cardIssue (id : BitVec 6) (arg : Word)
  /-- `Card.data_ready()`. -/
  | cardDataReady
  /-- `Card.read_byte()` returned `b`. -/
  | cardRead (b : Byte)
  /-- `Card.write_byte(b)`. -/
  | cardWrite (b : Byte)
  /-- `MemRead(addr, n)`. -/
  | memRead (addr : Nat) (n : Nat)
  /-- `MemWrite(addr, n, bytes)`. -/
  | memWrite (addr : Nat) (bytes : List Byte)
  /-- `IrqSet(level)`, the level-set call to the interrupt sink. -/
  | irqSet (level : Bool)
  /-- The value a read of `size` bytes hands to the bus master (`return v`). -/
  | busRead (size : Nat) (value : Word)
  /-- The snapshot `EV.SAVE` returns, and its bytes. -/
  | saved (snap : Snapshot) (bytes : List Byte)
deriving DecidableEq, Repr

structure State where
  /-- The configuration (R5): a constant of the machine, held here so that a claim over all states is one over every
  configuration; no operation writes it. -/
  cfg : Cfg
  /-- The register file's storage cells (R20, R24). -/
  x : Regs
  /-- `XFER`, the transfer counter (R54). -/
  xfer : Word
  /-- The diagnostic log, oldest first (R55 (c), R340). -/
  log : List Diag
  /-- The card (R8). -/
  card : Card
  /-- External memory (R7). -/
  mem : Memory
  /-- The external events so far, NEWEST FIRST (R88): the model's record of its outputs. -/
  trace : List ExtEvent
  /-- The operations the bus master, the card adapter and the platform have handed to the device and it has not begun,
  first to run first (R58). -/
  inbox : List Input
deriving DecidableEq, Repr

/-- Why the machine stops. No operation of the spec does (00_scope.md R13). -/
inductive Fault where
  /-- Raised by `step` alone: the next input is no operation of R4 (an unused event code).
  Safe: such an input does not exist on the hardware. -/
  | noOperation (e : DecodeError)
deriving DecidableEq, Repr

/-- Why the model gives an operation no meaning. -/
inductive Refusal where
  /-- An operation of the opcode table without a meaning in the model; raised by `exec`'s arms only. Safe. No arm
  answers so. -/
  | notModelled (mnemonic : String)
deriving DecidableEq, Repr

/-- The outcome of a step. -/
abbrev Step := Host.Outcome State Fault Refusal

/-- The state at construction (70_reset_and_hazards.md R383) of a device with configuration `c`, attached to a card and
a memory: the reset table, Card-Present as `CARD_PRESENT_AT_POWER_ON` says, `XFER` 0, the log empty. That no event is
recorded, no `IrqSet(0)` of the reset that R382 says is taken at construction, is the model's choice (log entry 19, DESIGN
CHOICE). -/
def State.powerOn (c : Cfg) (card : Card) (mem : Memory) : State where
  cfg := c
  x := { c.rst with star := if c.cardPresentAtPowerOn then bit c.pos.cardPresent else 0 }
  xfer := 0
  log := []
  card := card
  mem := mem
  trace := []
  inbox := []

/-- The machine right after reset: power-on in the default configuration, with any card (its state number 0 says
nothing of it) and no byte of memory listed. -/
def State.reset : State := State.powerOn Cfg.default (.abstract 0) []

end Sys2Proof.Machine
end

