-- ==== Sys2Proof/Machine/Ops.lean ====
section
/-! DEFINITION. The named operations over the state that the meanings share (00_scope.md R12): storage cells, external
memory, the card, the diagnostic log, the interrupt line. The device takes no trap and saves nothing (60_exceptions.md
R347, R351): the two things the spec puts in a trap's place are `State.raise` (a diagnostic) and `State.irqUpdate` (the
line, the "trap entry" of R351), and the return of R352 is `State.acknowledge`. -/

namespace Sys2Proof.Machine

/-- `x[NAME]` (R12). -/
def State.cell (s : State) (c : Cell) : Word := s.x.get c

/-- `x[NAME] <- v` (R12). -/
def State.setCell (s : State) (c : Cell) (v : Word) : State := { s with x := s.x.set v c }

/-- `XFER <- v`. -/
def State.setXfer (s : State) (v : Word) : State := { s with xfer := v }

/-- `x[RISR]` with one flag set (10_state.md R36). -/
def State.setRisr (s : State) (n : Nat) : State := s.setCell .risr (setBit (s.cell .risr) n)

/-- Record an external event (20_memory.md R88). -/
def State.emit (s : State) (e : ExtEvent) : State := { s with trace := e :: s.trace }

/-- `raise <Diag>(info)`: append a diagnostic; nothing else changes (60_exceptions.md R340). -/
def State.raise (s : State) (d : Diag) : State := { s with log := s.log ++ [d] }

/-- The `Unimplemented` diagnostic of a legal write (40_register_access.md R130, 60_exceptions.md R344). -/
def State.noteWrite (s : State) (r : Reg) (v : Word) : State :=
  if s.cfg.unimpSet.contains r then s.raise (.unimplemented r v) else s

/-- `return v` of a read of `size` bytes (R12). -/
def State.busReturn (s : State) (size : Nat) (v : Word) : State := s.emit (.busRead size v)

/-- The level of the interrupt line, a function of the state (43_interrupt_coalescer.md R280). -/
def State.irqLevel (s : State) : Bool :=
  (s.cell .gctl).getLsbD s.cfg.pos.intEnb && (s.cell .risr &&& s.cell .imkr) != 0

/-- `IrqUpdate()`: drive the line (43_interrupt_coalescer.md R281). -/
def State.irqUpdate (s : State) : State := s.emit (.irqSet s.irqLevel)

/-- What a write of `DMAC` or `IDIE` does about the line: no call, as 43_interrupt_coalescer.md R281's complete list of callers
(90_conflicts.md C5, decision D33) says, the default; or `IrqUpdate()`, as 40_register_access.md R178 and R184 (10_state.md
R45, R48) say. The spec conflicts with itself; the level is the same either way (log entry 17, DESIGN CHOICE). -/
def State.dmaControlLine (s : State) : State := if s.cfg.dmaControlDrivesLine then s.irqUpdate else s

/-- Acknowledge: write-1-to-clear of raw status (43_interrupt_coalescer.md R282, 60_exceptions.md R352). -/
def State.acknowledge (s : State) (v : Word) : State := s.setCell .risr (s.cell .risr &&& ~~~v)

/-- `MemRead(a, n)` (R12), `a` modulo the address space (`ADDR_BITS`; any width but 32: log entry 20,
DESIGN CHOICE): the bytes, and the state that has recorded the access. -/
def State.memRead (s : State) (a n : Nat) : List Byte × State :=
  (s.mem.readBytes s.cfg.addrBits a n, s.emit (.memRead (a % 2 ^ s.cfg.addrBits) n))

/-- `MemWrite(a, n, b)` (R12), `a` modulo the address space (`ADDR_BITS`; any width but 32: log entry 20, DESIGN
CHOICE). -/
def State.memWrite (s : State) (a : Nat) (b : List Byte) : State :=
  { s with mem := s.mem.writeBytes s.cfg.addrBits a b, trace := .memWrite (a % 2 ^ s.cfg.addrBits) b :: s.trace }

/-- `Card.issue(id, arg)` (R8, 41_command_engine.md R224). -/
def State.cardIssue (s : State) (id : BitVec 6) (arg : Word) : Option (List Byte) × State :=
  ((s.card.issue id arg).1, { s with card := (s.card.issue id arg).2, trace := .cardIssue id arg :: s.trace })

/-- `Card.data_ready()` (R8). -/
def State.cardDataReady (s : State) : Bool × State := (s.card.dataReady, s.emit .cardDataReady)

/-- `Card.read_byte()` (R8). -/
def State.cardReadByte (s : State) : Byte × State :=
  (s.card.readByte.1, { s with card := s.card.readByte.2, trace := .cardRead s.card.readByte.1 :: s.trace })

/-- `Card.write_byte(b)` (R8). -/
def State.cardWriteByte (s : State) (b : Byte) : State :=
  { s with card := s.card.writeByte b, trace := .cardWrite b :: s.trace }

/-- `Card.write_byte` of each byte in order (42_dma_engine.md R258, 45_fifo_port.md R311). -/
def State.sendBytes (s : State) : List Byte → State
  | [] => s
  | b :: rest => (s.cardWriteByte b).sendBytes rest

/-- `n` calls of `Card.read_byte` (42_dma_engine.md R259, 45_fifo_port.md R312): the bytes in order. -/
def State.takeBytes (s : State) : Nat → List Byte × State
  | 0 => ([], s)
  | n + 1 =>
    let r := s.cardReadByte
    let rest := r.2.takeBytes n
    (r.1 :: rest.1, rest.2)

end Sys2Proof.Machine
end

