-- ==== Sys2Proof/Machine/CardPresence.lean ====
section
/-! DEFINITION. The meanings of the card presence notifications (44_card_presence.md R300, R301). -/

namespace Sys2Proof.Machine

/-- `set_inserted(true)` (R300). -/
def State.cardInserted (s : State) : State :=
  (s.setCell .risr (clearBit (setBit (s.cell .risr) s.cfg.pos.cardInsert) s.cfg.pos.cardRemove)).setCell .star
    (setBit (s.cell .star) s.cfg.pos.cardPresent)

/-- `set_inserted(false)` (R301). -/
def State.cardRemoved (s : State) : State :=
  (s.setCell .risr (clearBit (setBit (s.cell .risr) s.cfg.pos.cardRemove) s.cfg.pos.cardInsert)).setCell .star
    (clearBit (s.cell .star) s.cfg.pos.cardPresent)

/-- `EV.INSERT` (R300). -/
def execEvInsert (s : State) : Step := .next s.cardInserted.irqUpdate

/-- `EV.REMOVE` (R301). -/
def execEvRemove (s : State) : Step := .next s.cardRemoved.irqUpdate

end Sys2Proof.Machine
end

