-- ==== Sys2Proof/Machine/CatchAll.lean ====
section
/-! DEFINITION. The meanings of the catch-all rows (40_register_access.md R212 to R214, 60_exceptions.md R342, R343): a
diagnostic, 0 for a read, nothing else. -/

namespace Sys2Proof.Machine

/-- `WRX off, 4, v` at an unknown offset (R212): `BadOffset`; the value goes nowhere. -/
def execWrxUnknownOffset (off _v : Word) (s : State) : Step := .next (s.raise (.badOffset true off))

/-- `RDX off, 4` at an unknown offset (R213): `BadOffset`; reads 0. -/
def execRdxUnknownOffset (off : Word) (s : State) : Step :=
  .next ((s.raise (.badOffset false off)).busReturn accessBytes 0)

/-- An illegal write (R214): `BadAccess`; ignored. -/
def execWrxIllegalAccess (off : Word) (size : Nat) (_v : Word) (s : State) : Step :=
  .next (s.raise (.badAccess true off size))

/-- An illegal read (R214): `BadAccess`; zero in all `size` bytes. -/
def execRdxIllegalAccess (off : Word) (size : Nat) (s : State) : Step :=
  .next ((s.raise (.badAccess false off size)).busReturn size 0)

end Sys2Proof.Machine
end

