-- ==== Sys2Proof/Machine/CommandEngine.lean ====
section
/-! DEFINITION. The Command Engine's procedures (41_command_engine.md): `Dispatch` (R222) and `AutoStopCheck` (R230). Its
phases (R220) are passed inside one operation and are not stored. -/

namespace Sys2Proof.Machine

/-- Response capture and status of a dispatch whose answer amounts to `r` (R222, R228). -/
def State.settle (s : State) (r : CmdResult) : State :=
  match r with
  | .failed => s.setRisr s.cfg.pos.noResponse
  | .done => s.setRisr s.cfg.pos.cmdComplete
  | .captured w0 w1 w2 w3 =>
    ((((s.setCell .resp0 w0).setCell .resp1 w1).setCell .resp2 w2).setCell .resp3 w3).setRisr s.cfg.pos.cmdComplete

/-- `Dispatch(w, arg)` (R222). A clock-change word reaches no card. -/
def State.dispatch (s : State) (w arg : Word) : State :=
  if clkChange s.cfg.pos w then s.setRisr s.cfg.pos.cmdComplete
  else
    let r := s.cardIssue (cmdIdx s.cfg.pos w) arg
    r.2.settle (cmdResult s.cfg.pos w r.1)

/-- `AutoStopCheck()` (R230): the nested dispatch of the synthetic stop command with argument 0, then `AUTOCMD_DONE`
(R233). `CMDR` and `CAGR` are not written (R232). -/
def State.autoStopCheck (s : State) : State :=
  if autostop s.cfg.pos (s.cell .cmdr) = true ∧ s.xfer = 0 then
    (s.dispatch (stopWord s.cfg (s.cell .cmdr)) 0).setRisr s.cfg.pos.autocmdDone
  else s

end Sys2Proof.Machine
end

