-- ==== Sys2Proof/Machine/DmaEngine.lean ====
section
/-! DEFINITION. The DMA Engine's walk (42_dma_engine.md R250 to R264). The walk is bounded by the outstanding request size
(R262), which serves as its fuel. -/

namespace Sys2Proof.Machine

/-- Conditions (a) to (c) of the trigger (R250). -/
def State.walkEnabled (s : State) : Bool :=
  (s.cell .gctl).getLsbD s.cfg.pos.dmaEnb && s.cell .bycr != 0 && s.cell .bksr != 0

/-- One piece of a chunk, `m` bytes at `a` modulo the address space (R258 write direction, R259 read direction). -/
def State.movePiece (s : State) (wr : Bool) (a m : Nat) : State :=
  if wr then
    let r := s.memRead a m
    r.2.sendBytes r.1
  else
    let r := s.takeBytes m
    r.2.memWrite a r.1

/-- The bytes of a chunk from its byte `done` to its end `n`, in pieces of at most `STAGE_BYTES` (R254 inner loop).
`fuel` bounds the number of pieces; `n - done` is enough, since a piece holds at least one byte (R6). -/
def State.movePieces (s : State) (wr : Bool) (base n done : Nat) : Nat → State
  | 0 => s
  | fuel + 1 =>
    if done < n then
      let m := min s.cfg.stageBytes (n - done)
      (s.movePiece wr (base + done) m).movePieces wr base n (done + m) fuel
    else s

/-- The data movement of a chunk of `n` bytes at `base` (R257 to R259). -/
def State.moveChunk (s : State) (wr : Bool) (base n : Nat) : State :=
  s.movePieces wr base n 0 n

/-- The counters after `n` bytes (R261). -/
def State.countDown (s : State) (n : Nat) : State :=
  (s.setXfer (satSub s.xfer n)).setCell .bycr (s.cell .bycr - BitVec.ofNat 32 n)

/-- One descriptor `d`, fetched at `dptr`: move its bytes, hand it back, count (R254 loop body, R256 to R261). -/
def State.processDesc (s : State) (wr : Bool) (dptr : Word) (d : Desc) : State :=
  let n := d.chunk s.cfg (s.cell .bycr)
  ((s.moveChunk wr (d.base s.cfg).toNat n).memWrite dptr.toNat
    ((d.handedBack s.cfg).toBytes s.cfg.descByteOrder)).countDown n

/-- Descriptor fetch (R255). -/
def State.fetchDesc (s : State) (dptr : Word) : Desc × State :=
  let r := s.memRead dptr.toNat descBytes
  (Desc.ofBytes s.cfg.descByteOrder r.1, r.2)

/-- The walk's loop from `dptr` on (R254, R262): it is left at a descriptor with `LAST`, or when nothing is outstanding. -/
def State.walkLoop (s : State) (wr : Bool) (dptr : Word) : Nat → State
  | 0 => s
  | fuel + 1 =>
    let f := s.fetchDesc dptr
    let t := f.2.processDesc wr dptr f.1
    if f.1.isLast s.cfg.pos || t.cell .bycr == 0 then t else t.walkLoop wr f.1.next fuel

/-- Completion status of a walk (R263), raised once. -/
def State.walkComplete (s : State) (wr : Bool) : State :=
  let t := (s.setRisr s.cfg.pos.dataComplete).setRisr s.cfg.pos.autocmdDone
  if wr then t.setCell .idst (setBit (t.cell .idst) s.cfg.pos.txDone)
  else t.setCell .idst (setBit (setBit (t.cell .idst) s.cfg.pos.rxDone) s.cfg.pos.rxSummary)

/-- The walk proper, from `x[DLBA]` (R253) to its completion. -/
def State.walk (s : State) (wr : Bool) : State :=
  (s.walkLoop wr (s.cell .dlba) (s.cell .bycr).toNat).walkComplete wr

/-- `DmaWalk()` (R254): nothing unless enabled (R250); in the read direction nothing unless the card has data ready, and
no retry (R252). -/
def State.dmaWalk (s : State) : State :=
  if s.walkEnabled then
    if cmdWrite s.cfg.pos (s.cell .cmdr) then s.walk true
    else
      let r := s.cardDataReady
      if r.1 then r.2.walk false else r.2
  else s

end Sys2Proof.Machine
end

