-- ==== Sys2Proof/Machine/CommandWrite.lean ====
section
/-! DEFINITION. The meanings of `WR CMDR` (40_register_access.md R144) and of the five command classes
(41_command_engine.md R223, R225 to R227; 30_encoding.md R111). A class row is the whole `WR CMDR` of a word of that
class, written from the class's own rule. -/

namespace Sys2Proof.Machine

/-- What follows the dispatch of a loaded word: walk, auto-stop check, line (R144, 90_conflicts.md C15). -/
def State.afterDispatch (s : State) : State := s.dmaWalk.autoStopCheck.irqUpdate

/-- A word is stored and its load bit cleared: Idle, Loaded, Dispatched (R144, R220). -/
def State.latch (s : State) (w : Word) : State := (s.noteWrite .cmdr w).setCell .cmdr (clearBit w s.cfg.pos.load)

/-- `WR CMDR, v` (R144). -/
def execWrCmdr (v : Word) (s : State) : Step :=
  let t := (s.noteWrite .cmdr v).setCell .cmdr v
  .next
    (if loadBit s.cfg.pos v then
      let u := t.setCell .cmdr (clearBit (t.cell .cmdr) s.cfg.pos.load)
      (u.dispatch (u.cell .cmdr) (u.cell .cagr)).afterDispatch
    else t.irqUpdate)

/-- `CMD.STORE` (R144 with `LOAD` = 0): the word is stored and the line recomputed. -/
def execCmdStore (w : Word) (s : State) : Step :=
  .next ((s.noteWrite .cmdr w).setCell .cmdr w).irqUpdate

/-- `CMD.CLKCHG` (R223): no card, no response register; `CMD_COMPLETE`. -/
def execCmdClkchg (w : Word) (s : State) : Step :=
  .next ((s.latch w).setRisr s.cfg.pos.cmdComplete).afterDispatch

/-- `CMD.NORESP` (R225): any response is discarded. -/
def execCmdNoresp (w : Word) (s : State) : Step :=
  let r := (s.latch w).cardIssue (cmdIdx s.cfg.pos w) (s.cell .cagr)
  .next
    (match r.1 with
      | none => r.2.setRisr s.cfg.pos.noResponse
      | some _ => r.2.setRisr s.cfg.pos.cmdComplete).afterDispatch

/-- `RESP0` to `RESP3` take a response and the command completes (R226, R227). -/
def State.capture (s : State) (w0 w1 w2 w3 : Word) : State :=
  ((((s.setCell .resp0 w0).setCell .resp1 w1).setCell .resp2 w2).setCell .resp3 w3).setRisr s.cfg.pos.cmdComplete

/-- `CMD.SHORT` (R226): four bytes, most significant first, into `RESP0`; the other words zeroed. -/
def execCmdShort (w : Word) (s : State) : Step :=
  let r := (s.latch w).cardIssue (cmdIdx s.cfg.pos w) (s.cell .cagr)
  .next
    (match r.1 with
      | some [b0, b1, b2, b3] => r.2.capture (be32 b0 b1 b2 b3) 0 0 0
      | _ => r.2.setRisr s.cfg.pos.noResponse).afterDispatch

/-- `CMD.LONG` (R227): sixteen bytes, the last four into `RESP0`, the first four into `RESP3`. -/
def execCmdLong (w : Word) (s : State) : Step :=
  let r := (s.latch w).cardIssue (cmdIdx s.cfg.pos w) (s.cell .cagr)
  .next
    (match r.1 with
      | some b =>
        if b.length = 16 then r.2.capture (be32At b 12) (be32At b 8) (be32At b 4) (be32At b 0)
        else r.2.setRisr s.cfg.pos.noResponse
      | none => r.2.setRisr s.cfg.pos.noResponse).afterDispatch

end Sys2Proof.Machine
end

