-- ==== Sys2Proof/Machine/DescriptorStep.lean ====
section
/-! DEFINITION. The meanings of the two descriptor classes (42_dma_engine.md R262, 30_encoding.md R112). A descriptor
row is no operation of its own (00_scope.md R4) and `step` never runs one alone: it is the rest of the `WR CMDR` whose
walk has fetched the descriptor, the walk from it to its end, the auto-stop check, the line (log entry 9). Where the
walk's conditions (R250) fail no walk reaches a descriptor and nothing changes. -/

namespace Sys2Proof.Machine

/-- `DESC.LAST`: after this descriptor the walk ends and `next` is not read (R262). -/
def execDescLast (dptr : Word) (d : Desc) (s : State) : Step :=
  let wr := cmdWrite s.cfg.pos (s.cell .cmdr)
  .next (if s.walkEnabled then ((s.processDesc wr dptr d).walkComplete wr).autoStopCheck.irqUpdate else s)

/-- `DESC.LINK`: if anything is outstanding the walk goes on at `next`, else it ends (R262). -/
def execDescLink (dptr : Word) (d : Desc) (s : State) : Step :=
  let wr := cmdWrite s.cfg.pos (s.cell .cmdr)
  let t := s.processDesc wr dptr d
  .next
    (if s.walkEnabled then
      ((if t.cell .bycr = 0 then t else t.walkLoop wr d.next (t.cell .bycr).toNat).walkComplete wr).autoStopCheck.irqUpdate
    else s)

end Sys2Proof.Machine
end

