-- ==== Sys2Proof/Machine/FifoPort.lean ====
section
/-! DEFINITION. The FIFO port (45_fifo_port.md R310 to R313): the meanings of `WR FIFO` and `RD FIFO`. -/

namespace Sys2Proof.Machine

/-- `XferUpdate(n)` (R313). -/
def State.xferUpdate (s : State) (n : Nat) : State :=
  let t := s.setXfer (satSub s.xfer n)
  if t.xfer = 0 then t.setRisr s.cfg.pos.dataComplete else t

/-- What follows the movement of a FIFO word (R311, R312): `XferUpdate` by the bytes moved, `FIFO_BYTES` of them, where the
spec writes 4 (log entry 18, DESIGN CHOICE for any other number). -/
def State.afterFifo (s : State) : State := (s.xferUpdate s.cfg.fifoBytes).autoStopCheck.irqUpdate

/-- `WR FIFO, v` (R311). -/
def execWrFifo (v : Word) (s : State) : Step :=
  .next ((s.noteWrite .fifo v).sendBytes (streamBytes s.cfg.fifoBytes v)).afterFifo

/-- `RD FIFO` (R312): with no data ready, `NoData` and 0; else `FIFO_BYTES` bytes, the first in bits 7:0. -/
def execRdFifo (s : State) : Step :=
  let r := s.cardDataReady
  .next
    (if r.1 then
      let b := r.2.takeBytes s.cfg.fifoBytes
      b.2.afterFifo.busReturn accessBytes (streamWord b.1)
    else (r.2.raise (.noData (s.cfg.offsets.get .fifo))).busReturn accessBytes 0)

end Sys2Proof.Machine
end

