-- ==== Sys2Proof/Machine/RegisterRead.lean ====
section
/-! DEFINITION. The meanings of the register reads but `RD FIFO` (40_register_access.md R133 to R209). A read hands its
value to the bus master (`State.busReturn`) and changes nothing else. -/

namespace Sys2Proof.Machine

/-- `RD GCTL` (R133): `return x[GCTL]`. -/
def execRdGctl (s : State) : Step := .next (s.busReturn accessBytes (s.cell .gctl))

/-- `RD CKCR` (R135): `return x[CKCR]`. -/
def execRdCkcr (s : State) : Step := .next (s.busReturn accessBytes (s.cell .ckcr))

/-- `RD TMOR` (R137): `return x[TMOR]`. -/
def execRdTmor (s : State) : Step := .next (s.busReturn accessBytes (s.cell .tmor))

/-- `RD BWDR` (R139): `return x[BWDR]`. -/
def execRdBwdr (s : State) : Step := .next (s.busReturn accessBytes (s.cell .bwdr))

/-- `RD BKSR` (R141): `return x[BKSR]`. -/
def execRdBksr (s : State) : Step := .next (s.busReturn accessBytes (s.cell .bksr))

/-- `RD BYCR` (R143): `return x[BYCR]`. -/
def execRdBycr (s : State) : Step := .next (s.busReturn accessBytes (s.cell .bycr))

/-- `RD CMDR` (R145): `return x[CMDR]`. -/
def execRdCmdr (s : State) : Step := .next (s.busReturn accessBytes (s.cell .cmdr))

/-- `RD CAGR` (R147): `return x[CAGR]`. -/
def execRdCagr (s : State) : Step := .next (s.busReturn accessBytes (s.cell .cagr))

/-- `RD RESP0` (R152): `return x[RESP0]`. -/
def execRdResp0 (s : State) : Step := .next (s.busReturn accessBytes (s.cell .resp0))

/-- `RD RESP1` (R153): `return x[RESP1]`. -/
def execRdResp1 (s : State) : Step := .next (s.busReturn accessBytes (s.cell .resp1))

/-- `RD RESP2` (R154): `return x[RESP2]`. -/
def execRdResp2 (s : State) : Step := .next (s.busReturn accessBytes (s.cell .resp2))

/-- `RD RESP3` (R155): `return x[RESP3]`. -/
def execRdResp3 (s : State) : Step := .next (s.busReturn accessBytes (s.cell .resp3))

/-- `RD IMKR` (R157): `return x[IMKR]`. -/
def execRdImkr (s : State) : Step := .next (s.busReturn accessBytes (s.cell .imkr))

/-- `RD MISR` (R159): `x[RISR] & x[IMKR]`; `INT_ENB` does not enter. -/
def execRdMisr (s : State) : Step := .next (s.busReturn accessBytes (s.cell .risr &&& s.cell .imkr))

/-- `RD RISR` (R161): `return x[RISR]`. -/
def execRdRisr (s : State) : Step := .next (s.busReturn accessBytes (s.cell .risr))

/-- `RD STAR` (R163): `return x[STAR]`. -/
def execRdStar (s : State) : Step := .next (s.busReturn accessBytes (s.cell .star))

/-- `RD FWLR` (R165): `return x[FWLR]`. -/
def execRdFwlr (s : State) : Step := .next (s.busReturn accessBytes (s.cell .fwlr))

/-- `RD FUNS` (R167): `return x[FUNS]`. -/
def execRdFuns (s : State) : Step := .next (s.busReturn accessBytes (s.cell .funs))

/-- `RD DBGC` (R169): `return x[DBGC]`. -/
def execRdDbgc (s : State) : Step := .next (s.busReturn accessBytes (s.cell .dbgc))

/-- `RD A12A` (R171): `return x[A12A]`. -/
def execRdA12a (s : State) : Step := .next (s.busReturn accessBytes (s.cell .a12a))

/-- `RD NTSR` (R173): `return x[NTSR]`. -/
def execRdNtsr (s : State) : Step := .next (s.busReturn accessBytes (s.cell .ntsr))

/-- `RD SDBG` (R175): `return x[SDBG]`. -/
def execRdSdbg (s : State) : Step := .next (s.busReturn accessBytes (s.cell .sdbg))

/-- `RD HWRST` (R177): `return x[HWRST]`. -/
def execRdHwrst (s : State) : Step := .next (s.busReturn accessBytes (s.cell .hwrst))

/-- `RD DMAC` (R179): `return x[DMAC]`. -/
def execRdDmac (s : State) : Step := .next (s.busReturn accessBytes (s.cell .dmac))

/-- `RD DLBA` (R181): `return x[DLBA]`. -/
def execRdDlba (s : State) : Step := .next (s.busReturn accessBytes (s.cell .dlba))

/-- `RD IDST` (R183): `return x[IDST]`. -/
def execRdIdst (s : State) : Step := .next (s.busReturn accessBytes (s.cell .idst))

/-- `RD IDIE` (R185): `return x[IDIE]`. -/
def execRdIdie (s : State) : Step := .next (s.busReturn accessBytes (s.cell .idie))

/-- `RD THLDC` (R187): `return x[THLDC]`. -/
def execRdThldc (s : State) : Step := .next (s.busReturn accessBytes (s.cell .thldc))

/-- `RD DSBD` (R189): `return x[DSBD]`. -/
def execRdDsbd (s : State) : Step := .next (s.busReturn accessBytes (s.cell .dsbd))

/-- `RD RES_CRC` (R191): the register always reports 0. -/
def execRdResCrc (s : State) : Step := .next (s.busReturn accessBytes 0)

/-- `RD DATA7_CRC` (R193): the register always reports 0. -/
def execRdData7Crc (s : State) : Step := .next (s.busReturn accessBytes 0)

/-- `RD DATA6_CRC` (R195): the register always reports 0. -/
def execRdData6Crc (s : State) : Step := .next (s.busReturn accessBytes 0)

/-- `RD DATA5_CRC` (R197): the register always reports 0. -/
def execRdData5Crc (s : State) : Step := .next (s.busReturn accessBytes 0)

/-- `RD DATA4_CRC` (R199): the register always reports 0. -/
def execRdData4Crc (s : State) : Step := .next (s.busReturn accessBytes 0)

/-- `RD DATA3_CRC` (R201): the register always reports 0. -/
def execRdData3Crc (s : State) : Step := .next (s.busReturn accessBytes 0)

/-- `RD DATA2_CRC` (R203): the register always reports 0. -/
def execRdData2Crc (s : State) : Step := .next (s.busReturn accessBytes 0)

/-- `RD DATA1_CRC` (R205): the register always reports 0. -/
def execRdData1Crc (s : State) : Step := .next (s.busReturn accessBytes 0)

/-- `RD DATA0_CRC` (R207): the register always reports 0. -/
def execRdData0Crc (s : State) : Step := .next (s.busReturn accessBytes 0)

/-- `RD CRC_STA` (R209): the register always reports 0. -/
def execRdCrcSta (s : State) : Step := .next (s.busReturn accessBytes 0)

end Sys2Proof.Machine
end

