-- ==== Sys2Proof/Machine/RegisterWrite.lean ====
section
/-! DEFINITION. The meanings of the register writes but `WR CMDR` and `WR FIFO` (40_register_access.md R132 to R208).
Each begins with `State.noteWrite`, the `Unimplemented` diagnostic of the common procedure (R130). -/

namespace Sys2Proof.Machine

/-- `WR GCTL, v` (R132): the strobe bits are stored as 0, the rest as written; then `IrqUpdate()`. The
strobes reset nothing (70_reset_and_hazards.md R384). -/
def execWrGctl (v : Word) (s : State) : Step :=
  .next (((s.noteWrite .gctl v).setCell .gctl (v &&& ~~~s.cfg.pos.strobes)).irqUpdate)

/-- `WR CKCR, v` (R134): plain storage (R131), `x[CKCR] <- v`. -/
def execWrCkcr (v : Word) (s : State) : Step :=
  .next ((s.noteWrite .ckcr v).setCell .ckcr v)

/-- `WR TMOR, v` (R136): plain storage (R131), `x[TMOR] <- v`. -/
def execWrTmor (v : Word) (s : State) : Step :=
  .next ((s.noteWrite .tmor v).setCell .tmor v)

/-- `WR BWDR, v` (R138): plain storage (R131), `x[BWDR] <- v`. -/
def execWrBwdr (v : Word) (s : State) : Step :=
  .next ((s.noteWrite .bwdr v).setCell .bwdr v)

/-- `WR BKSR, v` (R140): plain storage (R131), `x[BKSR] <- v`. -/
def execWrBksr (v : Word) (s : State) : Step :=
  .next ((s.noteWrite .bksr v).setCell .bksr v)

/-- `WR BYCR, v` (R142): stores the byte count and loads `XFER` with it (decision D6). -/
def execWrBycr (v : Word) (s : State) : Step :=
  .next (((s.noteWrite .bycr v).setCell .bycr v).setXfer v)

/-- `WR CAGR, v` (R146): plain storage (R131), `x[CAGR] <- v`. -/
def execWrCagr (v : Word) (s : State) : Step :=
  .next ((s.noteWrite .cagr v).setCell .cagr v)

/-- `WR RESP0, v` (R148): plain storage (R131), `x[RESP0] <- v`. -/
def execWrResp0 (v : Word) (s : State) : Step :=
  .next ((s.noteWrite .resp0 v).setCell .resp0 v)

/-- `WR RESP1, v` (R149): plain storage (R131), `x[RESP1] <- v`. -/
def execWrResp1 (v : Word) (s : State) : Step :=
  .next ((s.noteWrite .resp1 v).setCell .resp1 v)

/-- `WR RESP2, v` (R150): plain storage (R131), `x[RESP2] <- v`. -/
def execWrResp2 (v : Word) (s : State) : Step :=
  .next ((s.noteWrite .resp2 v).setCell .resp2 v)

/-- `WR RESP3, v` (R151): plain storage (R131), `x[RESP3] <- v`. -/
def execWrResp3 (v : Word) (s : State) : Step :=
  .next ((s.noteWrite .resp3 v).setCell .resp3 v)

/-- `WR IMKR, v` (R156): `x[IMKR] <- v; IrqUpdate()`. -/
def execWrImkr (v : Word) (s : State) : Step :=
  .next (((s.noteWrite .imkr v).setCell .imkr v).irqUpdate)

/-- `WR MISR, v` (R158): write-1-to-clear of `RISR`, whatever the mask holds; then `IrqUpdate()`. -/
def execWrMisr (v : Word) (s : State) : Step :=
  .next (((s.noteWrite .misr v).acknowledge v).irqUpdate)

/-- `WR RISR, v` (R160): write-1-to-clear of `RISR`, whatever the mask holds; then `IrqUpdate()`. -/
def execWrRisr (v : Word) (s : State) : Step :=
  .next (((s.noteWrite .risr v).acknowledge v).irqUpdate)

/-- `WR STAR, v` (R162): ignored, class fixed; the line is not recomputed. -/
def execWrStar (v : Word) (s : State) : Step :=
  .next (s.noteWrite .star v)

/-- `WR FWLR, v` (R164): plain storage (R131), `x[FWLR] <- v`. -/
def execWrFwlr (v : Word) (s : State) : Step :=
  .next ((s.noteWrite .fwlr v).setCell .fwlr v)

/-- `WR FUNS, v` (R166): plain storage (R131), `x[FUNS] <- v`. -/
def execWrFuns (v : Word) (s : State) : Step :=
  .next ((s.noteWrite .funs v).setCell .funs v)

/-- `WR DBGC, v` (R168): plain storage (R131), `x[DBGC] <- v`. -/
def execWrDbgc (v : Word) (s : State) : Step :=
  .next ((s.noteWrite .dbgc v).setCell .dbgc v)

/-- `WR A12A, v` (R170): plain storage (R131), `x[A12A] <- v`. -/
def execWrA12a (v : Word) (s : State) : Step :=
  .next ((s.noteWrite .a12a v).setCell .a12a v)

/-- `WR NTSR, v` (R172): plain storage (R131), `x[NTSR] <- v`. -/
def execWrNtsr (v : Word) (s : State) : Step :=
  .next ((s.noteWrite .ntsr v).setCell .ntsr v)

/-- `WR SDBG, v` (R174): plain storage (R131), `x[SDBG] <- v`. -/
def execWrSdbg (v : Word) (s : State) : Step :=
  .next ((s.noteWrite .sdbg v).setCell .sdbg v)

/-- `WR HWRST, v` (R176): plain storage (R131), `x[HWRST] <- v`. -/
def execWrHwrst (v : Word) (s : State) : Step :=
  .next ((s.noteWrite .hwrst v).setCell .hwrst v)

/-- `WR DMAC, v` (R178, R45): `x[DMAC] <- v`, and the `IrqUpdate()` of R178 in a configuration that makes it, where R281's
complete list of callers has none (`State.dmaControlLine`, log entry 17). -/
def execWrDmac (v : Word) (s : State) : Step :=
  .next (((s.noteWrite .dmac v).setCell .dmac v).dmaControlLine)

/-- `WR DLBA, v` (R180): plain storage (R131), `x[DLBA] <- v`. -/
def execWrDlba (v : Word) (s : State) : Step :=
  .next ((s.noteWrite .dlba v).setCell .dlba v)

/-- `WR IDST, v` (R182): clears the bits written 1 inside `IDST_W1C_MASK`; then `IrqUpdate()`. -/
def execWrIdst (v : Word) (s : State) : Step :=
  .next (((s.noteWrite .idst v).setCell .idst
    (s.cell .idst &&& ~~~(v &&& s.cfg.idstW1cMask))).irqUpdate)

/-- `WR IDIE, v` (R184, R48): `x[IDIE] <- v`, and the `IrqUpdate()` of R184 in a configuration that makes it, where R281's
complete list of callers has none (`State.dmaControlLine`, log entry 17). -/
def execWrIdie (v : Word) (s : State) : Step :=
  .next (((s.noteWrite .idie v).setCell .idie v).dmaControlLine)

/-- `WR THLDC, v` (R186): plain storage (R131), `x[THLDC] <- v`. -/
def execWrThldc (v : Word) (s : State) : Step :=
  .next ((s.noteWrite .thldc v).setCell .thldc v)

/-- `WR DSBD, v` (R188): plain storage (R131), `x[DSBD] <- v`. -/
def execWrDsbd (v : Word) (s : State) : Step :=
  .next ((s.noteWrite .dsbd v).setCell .dsbd v)

/-- `WR RES_CRC, v` (R190): ignored, class fixed, no diagnostic of its own. -/
def execWrResCrc (v : Word) (s : State) : Step :=
  .next (s.noteWrite .resCrc v)

/-- `WR DATA7_CRC, v` (R192): ignored, class fixed, no diagnostic of its own. -/
def execWrData7Crc (v : Word) (s : State) : Step :=
  .next (s.noteWrite .data7Crc v)

/-- `WR DATA6_CRC, v` (R194): ignored, class fixed, no diagnostic of its own. -/
def execWrData6Crc (v : Word) (s : State) : Step :=
  .next (s.noteWrite .data6Crc v)

/-- `WR DATA5_CRC, v` (R196): ignored, class fixed, no diagnostic of its own. -/
def execWrData5Crc (v : Word) (s : State) : Step :=
  .next (s.noteWrite .data5Crc v)

/-- `WR DATA4_CRC, v` (R198): ignored, class fixed, no diagnostic of its own. -/
def execWrData4Crc (v : Word) (s : State) : Step :=
  .next (s.noteWrite .data4Crc v)

/-- `WR DATA3_CRC, v` (R200): ignored, class fixed, no diagnostic of its own. -/
def execWrData3Crc (v : Word) (s : State) : Step :=
  .next (s.noteWrite .data3Crc v)

/-- `WR DATA2_CRC, v` (R202): ignored, class fixed, no diagnostic of its own. -/
def execWrData2Crc (v : Word) (s : State) : Step :=
  .next (s.noteWrite .data2Crc v)

/-- `WR DATA1_CRC, v` (R204): ignored, class fixed, no diagnostic of its own. -/
def execWrData1Crc (v : Word) (s : State) : Step :=
  .next (s.noteWrite .data1Crc v)

/-- `WR DATA0_CRC, v` (R206): ignored, class fixed, no diagnostic of its own. -/
def execWrData0Crc (v : Word) (s : State) : Step :=
  .next (s.noteWrite .data0Crc v)

/-- `WR CRC_STA, v` (R208): ignored, class fixed, no diagnostic of its own. -/
def execWrCrcSta (v : Word) (s : State) : Step :=
  .next (s.noteWrite .crcSta v)

end Sys2Proof.Machine
end

