-- ==== Sys2Proof/Machine/SnapshotCodec.lean ====
section
/-! DEFINITION. `SNAPSHOT_CODEC` (00_scope.md R5, decision D32, 70_reset_and_hazards.md R390): any injective byte encoding
of a snapshot. -/

namespace Sys2Proof

/-- The 29 words of a snapshot: the storage cells in the order of 10_state.md R24, then `XFER`. -/
def Snapshot.words (snap : Snapshot) : List Word := Cell.all.map snap.x.get ++ [snap.xfer]

/-- One injective encoding, each word little-endian. It shows that there is a `SnapshotCodec`; no operation uses it. -/
def Snapshot.plainBytes (snap : Snapshot) : List Byte := snap.words.flatMap bytesLe32

theorem bytesLe32_injective (v w : Word) (h : bytesLe32 v = bytesLe32 w) : v = w := by
  simp only [bytesLe32, List.cons.injEq, ← BitVec.toNat_inj, BitVec.extractLsb'_toNat, Nat.shiftRight_eq_div_pow] at h
  bv_omega

theorem flatMap_bytesLe32_injective : ∀ a b : List Word, a.flatMap bytesLe32 = b.flatMap bytesLe32 → a = b
  | [], [], _ => rfl
  | [], _ :: _, h => by simp [bytesLe32] at h
  | _ :: _, [], h => by simp [bytesLe32] at h
  | v :: a, w :: b, h => by
    have h := List.append_inj h rfl
    rw [bytesLe32_injective v w h.1, flatMap_bytesLe32_injective a b h.2]

theorem Snapshot.words_injective (a b : Snapshot) (h : a.words = b.words) : a = b := by
  obtain ⟨⟨⟩, _⟩ := a
  obtain ⟨⟨⟩, _⟩ := b
  simp [Snapshot.words, Cell.all, Regs.get] at h
  simp [h]

theorem Snapshot.plainBytes_injective (a b : Snapshot) (h : a.plainBytes = b.plainBytes) : a = b :=
  words_injective a b (flatMap_bytesLe32_injective _ _ h)

/-- A byte encoding of snapshots that loses nothing: "any injective encoding of the state pair" (R5). The defaults of the
two fields only show that the type has an element. -/
structure SnapshotCodec where
  /-- The bytes of a snapshot. -/
  encode : Snapshot → List Byte := Snapshot.plainBytes
  /-- Two snapshots with the same bytes are the same. -/
  injective : ∀ a b, encode a = encode b → a = b := by exact Snapshot.plainBytes_injective
deriving Inhabited

/-- `SNAPSHOT_CODEC` (R5, open, D32). No body: nothing can be proved of the bytes but what every injective encoding has
(log entry 6). -/
opaque Config.snapshotCodec : SnapshotCodec

end Sys2Proof
end

