-- ==== Sys2Proof/Machine/ResetSnapshot.lean ====
section
/-! DEFINITION. The meanings of reset and of the two snapshot operations (70_reset_and_hazards.md R380, R388, R390). -/

namespace Sys2Proof.Machine

/-- The register file after reset (R380, R381): `RST`, with Card-Present as it was. -/
def resetRegs (c : Cfg) (x : Regs) : Regs :=
  { c.rst with star := clearBit c.rst.star c.pos.cardPresent ||| (x.star &&& bit c.pos.cardPresent) }

/-- `EV.RESET` (R380). The log, the card and external memory are not touched (R386). -/
def execEvReset (s : State) : Step :=
  .next { s with x := resetRegs s.cfg s.x, xfer := 0 }.irqUpdate

/-- The pair a snapshot holds (10_state.md R57). -/
def State.snapshot (s : State) : Snapshot := ⟨s.x, s.xfer⟩

/-- `EV.SAVE` (R388): the snapshot is returned, with its bytes under `SNAPSHOT_CODEC`; no state changes. -/
def execEvSave (s : State) : Step := .next (s.emit (.saved s.snapshot (Config.snapshotCodec.encode s.snapshot)))

/-- `EV.RESTORE snap` (R390): installed as it is, not validated. -/
def execEvRestore (snap : Snapshot) (s : State) : Step :=
  .next { s with x := snap.x, xfer := snap.xfer }.irqUpdate

end Sys2Proof.Machine
end

