-- ==== Sys2Proof/Machine/Dispatch.lean ====
section
/-! DEFINITION. The dispatch of an operation to its meaning, one arm per row of spec/opcode_table.json. -/

namespace Sys2Proof.Machine

def exec (i : Instr) (s : State) : Host.Outcome State Fault Refusal :=
  match i with
  | .wrGctl v => Sys2Proof.Machine.execWrGctl v s
  | .rdGctl => Sys2Proof.Machine.execRdGctl s
  | .wrCkcr v => Sys2Proof.Machine.execWrCkcr v s
  | .rdCkcr => Sys2Proof.Machine.execRdCkcr s
  | .wrTmor v => Sys2Proof.Machine.execWrTmor v s
  | .rdTmor => Sys2Proof.Machine.execRdTmor s
  | .wrBwdr v => Sys2Proof.Machine.execWrBwdr v s
  | .rdBwdr => Sys2Proof.Machine.execRdBwdr s
  | .wrBksr v => Sys2Proof.Machine.execWrBksr v s
  | .rdBksr => Sys2Proof.Machine.execRdBksr s
  | .wrBycr v => Sys2Proof.Machine.execWrBycr v s
  | .rdBycr => Sys2Proof.Machine.execRdBycr s
  | .wrCmdr v => Sys2Proof.Machine.execWrCmdr v s
  | .rdCmdr => Sys2Proof.Machine.execRdCmdr s
  | .wrCagr v => Sys2Proof.Machine.execWrCagr v s
  | .rdCagr => Sys2Proof.Machine.execRdCagr s
  | .wrResp0 v => Sys2Proof.Machine.execWrResp0 v s
  | .rdResp0 => Sys2Proof.Machine.execRdResp0 s
  | .wrResp1 v => Sys2Proof.Machine.execWrResp1 v s
  | .rdResp1 => Sys2Proof.Machine.execRdResp1 s
  | .wrResp2 v => Sys2Proof.Machine.execWrResp2 v s
  | .rdResp2 => Sys2Proof.Machine.execRdResp2 s
  | .wrResp3 v => Sys2Proof.Machine.execWrResp3 v s
  | .rdResp3 => Sys2Proof.Machine.execRdResp3 s
  | .wrImkr v => Sys2Proof.Machine.execWrImkr v s
  | .rdImkr => Sys2Proof.Machine.execRdImkr s
  | .wrMisr v => Sys2Proof.Machine.execWrMisr v s
  | .rdMisr => Sys2Proof.Machine.execRdMisr s
  | .wrRisr v => Sys2Proof.Machine.execWrRisr v s
  | .rdRisr => Sys2Proof.Machine.execRdRisr s
  | .wrStar v => Sys2Proof.Machine.execWrStar v s
  | .rdStar => Sys2Proof.Machine.execRdStar s
  | .wrFwlr v => Sys2Proof.Machine.execWrFwlr v s
  | .rdFwlr => Sys2Proof.Machine.execRdFwlr s
  | .wrFuns v => Sys2Proof.Machine.execWrFuns v s
  | .rdFuns => Sys2Proof.Machine.execRdFuns s
  | .wrDbgc v => Sys2Proof.Machine.execWrDbgc v s
  | .rdDbgc => Sys2Proof.Machine.execRdDbgc s
  | .wrA12a v => Sys2Proof.Machine.execWrA12a v s
  | .rdA12a => Sys2Proof.Machine.execRdA12a s
  | .wrNtsr v => Sys2Proof.Machine.execWrNtsr v s
  | .rdNtsr => Sys2Proof.Machine.execRdNtsr s
  | .wrSdbg v => Sys2Proof.Machine.execWrSdbg v s
  | .rdSdbg => Sys2Proof.Machine.execRdSdbg s
  | .wrHwrst v => Sys2Proof.Machine.execWrHwrst v s
  | .rdHwrst => Sys2Proof.Machine.execRdHwrst s
  | .wrDmac v => Sys2Proof.Machine.execWrDmac v s
  | .rdDmac => Sys2Proof.Machine.execRdDmac s
  | .wrDlba v => Sys2Proof.Machine.execWrDlba v s
  | .rdDlba => Sys2Proof.Machine.execRdDlba s
  | .wrIdst v => Sys2Proof.Machine.execWrIdst v s
  | .rdIdst => Sys2Proof.Machine.execRdIdst s
  | .wrIdie v => Sys2Proof.Machine.execWrIdie v s
  | .rdIdie => Sys2Proof.Machine.execRdIdie s
  | .wrThldc v => Sys2Proof.Machine.execWrThldc v s
  | .rdThldc => Sys2Proof.Machine.execRdThldc s
  | .wrDsbd v => Sys2Proof.Machine.execWrDsbd v s
  | .rdDsbd => Sys2Proof.Machine.execRdDsbd s
  | .wrResCrc v => Sys2Proof.Machine.execWrResCrc v s
  | .rdResCrc => Sys2Proof.Machine.execRdResCrc s
  | .wrData7Crc v => Sys2Proof.Machine.execWrData7Crc v s
  | .rdData7Crc => Sys2Proof.Machine.execRdData7Crc s
  | .wrData6Crc v => Sys2Proof.Machine.execWrData6Crc v s
  | .rdData6Crc => Sys2Proof.Machine.execRdData6Crc s
  | .wrData5Crc v => Sys2Proof.Machine.execWrData5Crc v s
  | .rdData5Crc => Sys2Proof.Machine.execRdData5Crc s
  | .wrData4Crc v => Sys2Proof.Machine.execWrData4Crc v s
  | .rdData4Crc => Sys2Proof.Machine.execRdData4Crc s
  | .wrData3Crc v => Sys2Proof.Machine.execWrData3Crc v s
  | .rdData3Crc => Sys2Proof.Machine.execRdData3Crc s
  | .wrData2Crc v => Sys2Proof.Machine.execWrData2Crc v s
  | .rdData2Crc => Sys2Proof.Machine.execRdData2Crc s
  | .wrData1Crc v => Sys2Proof.Machine.execWrData1Crc v s
  | .rdData1Crc => Sys2Proof.Machine.execRdData1Crc s
  | .wrData0Crc v => Sys2Proof.Machine.execWrData0Crc v s
  | .rdData0Crc => Sys2Proof.Machine.execRdData0Crc s
  | .wrCrcSta v => Sys2Proof.Machine.execWrCrcSta v s
  | .rdCrcSta => Sys2Proof.Machine.execRdCrcSta s
  | .wrFifo v => Sys2Proof.Machine.execWrFifo v s
  | .rdFifo => Sys2Proof.Machine.execRdFifo s
  | .wrxUnknownOffset off v => Sys2Proof.Machine.execWrxUnknownOffset off v s
  | .rdxUnknownOffset off => Sys2Proof.Machine.execRdxUnknownOffset off s
  | .wrxIllegalAccess off size v => Sys2Proof.Machine.execWrxIllegalAccess off size v s
  | .rdxIllegalAccess off size => Sys2Proof.Machine.execRdxIllegalAccess off size s
  | .evInsert => Sys2Proof.Machine.execEvInsert s
  | .evRemove => Sys2Proof.Machine.execEvRemove s
  | .evReset => Sys2Proof.Machine.execEvReset s
  | .evSave => Sys2Proof.Machine.execEvSave s
  | .evRestore snap => Sys2Proof.Machine.execEvRestore snap s
  | .cmdStore w => Sys2Proof.Machine.execCmdStore w s
  | .cmdClkchg w => Sys2Proof.Machine.execCmdClkchg w s
  | .cmdNoresp w => Sys2Proof.Machine.execCmdNoresp w s
  | .cmdShort w => Sys2Proof.Machine.execCmdShort w s
  | .cmdLong w => Sys2Proof.Machine.execCmdLong w s
  | .descLast dptr d => Sys2Proof.Machine.execDescLast dptr d s
  | .descLink dptr d => Sys2Proof.Machine.execDescLink dptr d s

end Sys2Proof.Machine
end

