-- ==== Sys2Proof/Machine/Step.lean ====
section
/-! DEFINITION. The step: the device runs the next operation it has been handed, to completion (00_scope.md R4). -/

namespace Sys2Proof.Machine

/-- One step. With nothing handed to it the device does not change (R4: it changes state only in operations). The memory an
operation finds is the one the last operation left: a store that the driver, or another bus master, makes between two
operations (R84 (a), where memory is a parameter of each step) is no input of the model (log entry 16). -/
def step (s : State) : Host.Outcome State Fault Refusal :=
  match s.inbox with
  | [] => .next s
  | i :: rest =>
    match decodeInput s.cfg i with
    | .ok instr => exec instr { s with inbox := rest }
    | .error e => .fault (.noOperation e)

/-- `s` with the walk's conditions (R250) met, the 16 bytes of a descriptor at `dptr` and `DLBA` there, and a `WR CMDR`
next whose walk begins with that descriptor: a clock-change word in the write direction (log entry 8). -/
def State.withWalkAt (s : State) (dptr : Word) (bytes : List Byte) : State :=
  let p := s.cfg.pos
  let t := (s.setCell .dlba dptr).setCell .gctl (setBit (s.cell .gctl) p.dmaEnb)
  let u := t.setCell .bycr (if s.cell .bycr = 0 then 1 else s.cell .bycr)
  let v := u.setCell .bksr (if s.cell .bksr = 0 then 1 else s.cell .bksr)
  { v with
    mem := s.mem.writeBytes s.cfg.addrBits dptr.toNat bytes
    inbox := writeInput s.cfg .cmdr (bit p.load ||| bit p.clkChange ||| bit p.cmdWrite) :: s.inbox }

/-- `s` with the operation of an opcode-table word next: the word's own operation, or, for a descriptor's word, which is no
operation of its own, a `WR CMDR` whose walk begins with the descriptor. -/
def State.withFetchWord (s : State) (nbits w : Nat) : State :=
  match tableEncoded nbits w with
  | .input i => { s with inbox := i :: s.inbox }
  | .descriptor dptr bytes => s.withWalkAt dptr bytes

end Sys2Proof.Machine
end

