-- ==== Sys2Proof/Safety.lean ====
section
/-! DEFINITION. The terms claims are stated in: what an operation leaves alone, the invariants of a reachable state
(10_state.md R56), the line as the sink sees it, counts of card bytes, and a run without diagnostics. -/

namespace Sys2Proof

/-- Clauses (i), (ii), (iv), (v) of 10_state.md R56, on a register file. -/
structure Regs.Inv (p : Positions) (x : Regs) : Prop where
  load : loadBit p (x.get .cmdr) = false
  strobes : x.get .gctl &&& p.strobes = 0
  risr : x.get .risr &&& ~~~p.risrUsed = 0
  idst : x.get .idst &&& ~~~p.idstUsed = 0
  star : x.get .star &&& ~~~(bit p.cardPresent) = 0
  exclusive : ¬((x.get .risr).getLsbD p.cardInsert = true ∧ (x.get .risr).getLsbD p.cardRemove = true)

/-- A snapshot whose installation keeps R56 (`EV.RESTORE` installs any snapshot). -/
def Snapshot.Inv (p : Positions) (snap : Snapshot) : Prop := snap.x.Inv p ∧ snap.xfer ≤ snap.x.get .bycr

end Sys2Proof

namespace Sys2Proof.Machine

/-- Every storage cell but those listed is as before. -/
def State.keepsCells (s t : State) (but : List Cell) : Prop := ∀ c, c ∉ but → t.cell c = s.cell c

/-- Nothing outside the register file, `XFER`, the log and the record of events is touched: configuration, card,
external memory, pending inputs. -/
def State.sameOutside (s t : State) : Prop :=
  t.cfg = s.cfg ∧ t.card = s.card ∧ t.mem = s.mem ∧ t.inbox = s.inbox

/-- The diagnostics a legal write of `v` to register `r` leaves in the log (40_register_access.md R130). -/
def State.logAfterWrite (s : State) (r : Reg) (v : Word) : List Diag :=
  if s.cfg.unimpSet.contains r then s.log ++ [.unimplemented r v] else s.log

/-- The level the interrupt sink was last given; low before the first call (70_reset_and_hazards.md R383). The events
are newest first. -/
def sinkLevel : List ExtEvent → Bool
  | [] => false
  | .irqSet level :: _ => level
  | _ :: rest => sinkLevel rest

/-- Whether an event is a call of the card (00_scope.md R8). -/
def ExtEvent.isCardCall : ExtEvent → Bool
  | .cardIssue _ _ | .cardDataReady | .cardRead _ | .cardWrite _ => true
  | .memRead _ _ | .memWrite _ _ | .irqSet _ | .busRead _ _ | .saved _ _ => false

/-- The calls the device made of the card, newest first (00_scope.md R8, 20_memory.md R88). -/
def cardCalls (es : List ExtEvent) : List ExtEvent := es.filter ExtEvent.isCardCall

/-- How many bytes the card was sent or asked for (42_dma_engine.md R265 (iii)). -/
def cardBytes : List ExtEvent → Nat
  | [] => 0
  | .cardRead _ :: rest => cardBytes rest + 1
  | .cardWrite _ :: rest => cardBytes rest + 1
  | _ :: rest => cardBytes rest

/-- The bytes the card was sent, newest first. -/
def cardWrites : List ExtEvent → List Byte
  | [] => []
  | .cardWrite b :: rest => b :: cardWrites rest
  | _ :: rest => cardWrites rest

/-- The bytes the card gave, newest first. -/
def cardReads : List ExtEvent → List Byte
  | [] => []
  | .cardRead b :: rest => b :: cardReads rest
  | _ :: rest => cardReads rest

/-- The next `n` bytes a card gives, in order (00_scope.md R8). -/
def Card.gives (c : Card) : Nat → List Byte
  | 0 => []
  | n + 1 => c.readByte.1 :: c.readByte.2.gives n

/-- The card after giving `n` bytes. -/
def Card.after (c : Card) : Nat → Card
  | 0 => c
  | n + 1 => c.readByte.2.after n

/-- The commands the card was sent, newest first. -/
def cardCommands : List ExtEvent → List (BitVec 6 × Word)
  | [] => []
  | .cardIssue id arg :: rest => (id, arg) :: cardCommands rest
  | _ :: rest => cardCommands rest

/-- The invariants (i) to (v) of 10_state.md R56, in a well-formed configuration (R6); the reset table, which `EV.RESET`
installs, is one of the register files they speak of. -/
structure State.Inv (s : State) : Prop where
  wf : s.cfg.wf = true
  table : s.cfg.rst.Inv s.cfg.pos
  regs : s.x.Inv s.cfg.pos
  counters : s.xfer ≤ s.cell .bycr

/-- A safe state: nothing was logged, and the sink sees the level the state asks for (60_exceptions.md R340). -/
def State.Quiet (s : State) : Prop := s.log = [] ∧ sinkLevel s.trace = s.irqLevel

end Sys2Proof.Machine
end

