-- ==== Sys2Proof/Certificates/Slice0/Obligations.lean ====
section
/-! DEFINITION. The statements for the provers, over spec/'s numbered rules. Tables of rows a statement ranges over stand
in `Sys2Proof.Claims`. -/

namespace Sys2Proof.Claims

open Sys2Proof.Machine

/-- The `storage`-class registers whose write is plain storage and nothing else (40_register_access.md R131): the cell,
the write row, the read row. -/
def plainStorage : List (Cell × (Word → Instr) × Instr) :=
  [(.ckcr, .wrCkcr, .rdCkcr), (.tmor, .wrTmor, .rdTmor), (.bwdr, .wrBwdr, .rdBwdr),
    (.bksr, .wrBksr, .rdBksr), (.cagr, .wrCagr, .rdCagr), (.resp0, .wrResp0, .rdResp0),
    (.resp1, .wrResp1, .rdResp1), (.resp2, .wrResp2, .rdResp2), (.resp3, .wrResp3, .rdResp3),
    (.fwlr, .wrFwlr, .rdFwlr), (.funs, .wrFuns, .rdFuns), (.dbgc, .wrDbgc, .rdDbgc),
    (.a12a, .wrA12a, .rdA12a), (.ntsr, .wrNtsr, .rdNtsr), (.sdbg, .wrSdbg, .rdSdbg),
    (.hwrst, .wrHwrst, .rdHwrst), (.dlba, .wrDlba, .rdDlba), (.thldc, .wrThldc, .rdThldc),
    (.dsbd, .wrDsbd, .rdDsbd)]

/-- Every read row whose register has a storage cell: the cell and the row (40_register_access.md R133 to R189). -/
def cellReads : List (Cell × Instr) :=
  [(.gctl, .rdGctl), (.ckcr, .rdCkcr), (.tmor, .rdTmor),
    (.bwdr, .rdBwdr), (.bksr, .rdBksr), (.bycr, .rdBycr),
    (.cmdr, .rdCmdr), (.cagr, .rdCagr), (.resp0, .rdResp0),
    (.resp1, .rdResp1), (.resp2, .rdResp2), (.resp3, .rdResp3),
    (.imkr, .rdImkr), (.risr, .rdRisr), (.star, .rdStar),
    (.fwlr, .rdFwlr), (.funs, .rdFuns), (.dbgc, .rdDbgc),
    (.a12a, .rdA12a), (.ntsr, .rdNtsr), (.sdbg, .rdSdbg),
    (.hwrst, .rdHwrst), (.dmac, .rdDmac), (.dlba, .rdDlba),
    (.idst, .rdIdst), (.idie, .rdIdie), (.thldc, .rdThldc),
    (.dsbd, .rdDsbd)]

/-- The class `fixed` registers' writes (40_register_access.md R162, R190 to R208). -/
def fixedWrites : List (Reg × (Word → Instr)) :=
  [(.star, .wrStar), (.resCrc, .wrResCrc), (.data7Crc, .wrData7Crc),
    (.data6Crc, .wrData6Crc), (.data5Crc, .wrData5Crc), (.data4Crc, .wrData4Crc),
    (.data3Crc, .wrData3Crc), (.data2Crc, .wrData2Crc), (.data1Crc, .wrData1Crc),
    (.data0Crc, .wrData0Crc), (.crcSta, .wrCrcSta)]

/-- The fixed-zero block's reads (10_state.md R50). -/
def zeroReads : List Instr :=
  [.rdResCrc, .rdData7Crc, .rdData6Crc,
    .rdData5Crc, .rdData4Crc, .rdData3Crc,
    .rdData2Crc, .rdData1Crc, .rdData0Crc,
    .rdCrcSta]

/-- The command-class rows of 30_encoding.md R111, in the default map: mask, match, row. -/
def commandRows : List (Word × Word × (Word → Instr)) :=
  [(0x80000000, 0x00000000, .cmdStore), (0x80200000, 0x80200000, .cmdClkchg), (0x80200040, 0x80000000, .cmdNoresp),
    (0x802000C0, 0x80000040, .cmdShort), (0x802000C0, 0x800000C0, .cmdLong)]

/-- The offset a bus transaction names (30_encoding.md R101). -/
def busOffset (header : BitVec 13) (offHigh : BitVec 20) : Word := offHigh ++ header.extractLsb' 0 12

/-- `be32` of four bytes of a sequence as 00_scope.md R11 writes it. -/
def be32Nat (r : List Byte) (i : Nat) : Nat :=
  (r.getD i 0).toNat * 2 ^ 24 + (r.getD (i + 1) 0).toNat * 2 ^ 16 + (r.getD (i + 2) 0).toNat * 2 ^ 8
    + (r.getD (i + 3) 0).toNat

/-- `le32` of four bytes of a sequence as 00_scope.md R11 writes it. -/
def le32Nat (r : List Byte) (i : Nat) : Nat :=
  (r.getD i 0).toNat + (r.getD (i + 1) 0).toNat * 2 ^ 8 + (r.getD (i + 2) 0).toNat * 2 ^ 16
    + (r.getD (i + 3) 0).toNat * 2 ^ 24

/-- The number whose digits to the base 256 are the bytes, the first the lowest (30_encoding.md R109). -/
def leNat : List Byte → Nat
  | [] => 0
  | b :: rest => b.toNat + 2 ^ 8 * leNat rest

/-- The `n` bytes from address `a` on and the `m` bytes from `b` on have no address in common. -/
def apart (c : Cfg) (a : Word) (n : Nat) (b : Word) (m : Nat) : Prop :=
  ∀ j k, j < n → k < m → c.byteAddr a j ≠ c.byteAddr b k

/-- `q` is none of the `n` addresses from `a` on. -/
def outside (c : Cfg) (q : Nat) (a : Word) (n : Nat) : Prop := ∀ k, k < n → q ≠ c.byteAddr a k

/-- A descriptor's bytes fit in the address space (`DESC_BYTES`, `ADDR_BITS`), as they do in the default configuration. -/
def descFits (c : Cfg) : Prop := descBytes ≤ 2 ^ c.addrBits

/-- The bytes from address `a` on. -/
def bytesAt (s : State) (a : Word) (n : Nat) : List Byte := s.mem.readBytes s.cfg.addrBits a.toNat n

/-- The card after the dispatch of the loaded word `w` (41_command_engine.md R223, R224). -/
def cardAfterDispatch (s : State) (w : Word) : Card :=
  if clkChange s.cfg.pos w then s.card else (s.card.issue (cmdIdx s.cfg.pos w) (s.cell .cagr)).2

/-- The answer of the card to the command word `w` in state `s` (41_command_engine.md R224). -/
def answer (s : State) (w : Word) : Option (List Byte) := (s.card.issue (cmdIdx s.cfg.pos w) (s.cell .cagr)).1

/-- The answer of the card to the stop command that follows the command word `w` (41_command_engine.md R231). -/
def stopAnswer (s : State) (w : Word) : Option (List Byte) :=
  ((s.card.issue (cmdIdx s.cfg.pos w) (s.cell .cagr)).2.issue s.cfg.stopCmdId 0).1

/-- What a loaded word other than a clock change leaves before the walk, but for `RESP0` to `RESP3` and `RISR`
(40_register_access.md R144, 41_command_engine.md R224): the word stored without `LOAD`, one command on the card. -/
def issued (s : State) (w : Word) (u : State) : Prop :=
  u.cell .cmdr = clearBit w s.cfg.pos.load ∧
  s.keepsCells u [.cmdr, .resp0, .resp1, .resp2, .resp3, .risr] ∧
  u.xfer = s.xfer ∧ u.mem = s.mem ∧ u.cfg = s.cfg ∧ u.inbox = s.inbox ∧ u.log = s.logAfterWrite .cmdr w ∧
  u.card = (s.card.issue (cmdIdx s.cfg.pos w) (s.cell .cagr)).2 ∧
  u.trace = .cardIssue (cmdIdx s.cfg.pos w) (s.cell .cagr) :: s.trace

/-- A failed dispatch (41_command_engine.md R228): `NO_RESPONSE`, responses untouched. -/
def dispatchFailed (s u : State) : Prop :=
  u.cell .risr = setBit (s.cell .risr) s.cfg.pos.noResponse ∧ s.keepsCells u [.cmdr, .risr]

/-- A completed dispatch that stores no response (41_command_engine.md R225). -/
def dispatchDone (s u : State) : Prop :=
  u.cell .risr = setBit (s.cell .risr) s.cfg.pos.cmdComplete ∧ s.keepsCells u [.cmdr, .risr]

/-- A captured response: four numbers in `RESP0` to `RESP3` and `CMD_COMPLETE`. -/
def dispatchCaptured (s u : State) (n0 n1 n2 n3 : Nat) : Prop :=
  u.cell .risr = setBit (s.cell .risr) s.cfg.pos.cmdComplete ∧ (u.cell .resp0).toNat = n0 ∧ (u.cell .resp1).toNat = n1 ∧
  (u.cell .resp2).toNat = n2 ∧ (u.cell .resp3).toNat = n3

/-- With no walk to make and no auto-stop due, a command ends with the line (40_register_access.md R144). -/
def endsWithLine (u : State) : Prop :=
  u.walkEnabled = false → (autostop u.cfg.pos (u.cell .cmdr) = false ∨ u.xfer ≠ 0) → u.afterDispatch = u.irqUpdate

/-- The cells an operation may write: its frame (40_register_access.md R131 to R214, 41_command_engine.md R222,
42_dma_engine.md R254, 44_card_presence.md, 45_fifo_port.md, 70_reset_and_hazards.md). -/
def mayWrite : Instr → List Cell
  | .wrGctl _ => [.gctl]
  | .wrCkcr _ => [.ckcr]
  | .wrTmor _ => [.tmor]
  | .wrBwdr _ => [.bwdr]
  | .wrBksr _ => [.bksr]
  | .wrBycr _ => [.bycr]
  | .wrCmdr _ => [.cmdr, .resp0, .resp1, .resp2, .resp3, .risr, .bycr, .idst]
  | .wrCagr _ => [.cagr]
  | .wrResp0 _ => [.resp0]
  | .wrResp1 _ => [.resp1]
  | .wrResp2 _ => [.resp2]
  | .wrResp3 _ => [.resp3]
  | .wrImkr _ => [.imkr]
  | .wrMisr _ => [.risr]
  | .wrRisr _ => [.risr]
  | .wrStar _ => []
  | .wrFwlr _ => [.fwlr]
  | .wrFuns _ => [.funs]
  | .wrDbgc _ => [.dbgc]
  | .wrA12a _ => [.a12a]
  | .wrNtsr _ => [.ntsr]
  | .wrSdbg _ => [.sdbg]
  | .wrHwrst _ => [.hwrst]
  | .wrDmac _ => [.dmac]
  | .wrDlba _ => [.dlba]
  | .wrIdst _ => [.idst]
  | .wrIdie _ => [.idie]
  | .wrThldc _ => [.thldc]
  | .wrDsbd _ => [.dsbd]
  | .wrResCrc _ => []
  | .wrData7Crc _ => []
  | .wrData6Crc _ => []
  | .wrData5Crc _ => []
  | .wrData4Crc _ => []
  | .wrData3Crc _ => []
  | .wrData2Crc _ => []
  | .wrData1Crc _ => []
  | .wrData0Crc _ => []
  | .wrCrcSta _ => []
  | .wrFifo _ => [.resp0, .resp1, .resp2, .resp3, .risr]
  | .rdGctl | .rdCkcr | .rdTmor | .rdBwdr | .rdBksr | .rdBycr | .rdCmdr | .rdCagr
  | .rdResp0 | .rdResp1 | .rdResp2 | .rdResp3 | .rdImkr | .rdMisr | .rdRisr | .rdStar
  | .rdFwlr | .rdFuns | .rdDbgc | .rdA12a | .rdNtsr | .rdSdbg | .rdHwrst | .rdDmac
  | .rdDlba | .rdIdst | .rdIdie | .rdThldc | .rdDsbd | .rdResCrc | .rdData7Crc | .rdData6Crc
  | .rdData5Crc | .rdData4Crc | .rdData3Crc | .rdData2Crc | .rdData1Crc | .rdData0Crc | .rdCrcSta => []
  | .rdFifo => [.resp0, .resp1, .resp2, .resp3, .risr]
  | .wrxUnknownOffset _ _ | .rdxUnknownOffset _ | .wrxIllegalAccess _ _ _ | .rdxIllegalAccess _ _ => []
  | .evInsert | .evRemove => [.risr, .star]
  | .evReset | .evRestore _ => Cell.all
  | .evSave => []
  | .cmdStore _ => [.cmdr]
  | .cmdClkchg _ | .cmdNoresp _ | .cmdShort _ | .cmdLong _ =>
    [.cmdr, .resp0, .resp1, .resp2, .resp3, .risr, .bycr, .idst]
  | .descLast _ _ | .descLink _ _ => [.resp0, .resp1, .resp2, .resp3, .risr, .bycr, .idst]

/-- The operations that can start or continue a walk, the only ones that write external memory (42_dma_engine.md R254). -/
def mayWalk (p : Positions) : Instr → Bool
  | .wrCmdr v => loadBit p v
  | .cmdClkchg _ | .cmdNoresp _ | .cmdShort _ | .cmdLong _ | .descLast _ _ | .descLink _ _ => true
  | _ => false

/-- The operations that may call the card (20_memory.md R70: commands, the walk, the FIFO port). -/
def mayCallCard (p : Positions) : Instr → Bool
  | .wrFifo _ | .rdFifo => true
  | i => mayWalk p i

/-- The operations that can clear raw status bit `k` (43_interrupt_coalescer.md R282). -/
def mayClearRaw (p : Positions) (k : Nat) : Instr → Bool
  | .wrRisr v | .wrMisr v => v.getLsbD k
  | .evInsert => k == p.cardRemove
  | .evRemove => k == p.cardInsert
  | .evReset | .evRestore _ => true
  | _ => false

/-- A snapshot handed to the device next, if any, is one R56 allows. -/
def restoresOnlyInv (s : State) : Prop :=
  ∀ code snap rest, s.inbox = .event code snap :: rest → code = 4 → snap.Inv s.cfg.pos

/-- Every raw status bit but those listed is as before. -/
def keepsRawBits (s t : State) (but : List Nat) : Prop :=
  ∀ k, k < 32 → k ∉ but → (t.cell .risr).getLsbD k = (s.cell .risr).getLsbD k

end Sys2Proof.Claims

open Sys2Proof Sys2Proof.Machine Sys2Proof.Claims

/-- If the next pending input decodes to an operation, a step is exec of that operation on the state without the input
(R4). The other two clauses are the model's choices, DESIGN CHOICE: an input that is no operation faults by name
(log entry 13), and with nothing pending the state does not change (log entry 1). (00_scope.md R4, R110, log entry
1, log entry 13) -/
def Obligations.StepRunsTheDecodedOperation : Prop :=
  (∀ (s : State) (inp : Input) (rest : List Input), s.inbox = inp :: rest →
    (∀ i, decodeInput s.cfg inp = .ok i → step s = exec i { s with inbox := rest }) ∧
    (∀ e, decodeInput s.cfg inp = .error e → step s = .fault (.noOperation e))) ∧
  (∀ s : State, s.inbox = [] → step s = .next s)

/-- Written out from the spec, in the default configuration: headers 0x1018 and 0x0038 with size 4, the unknown offset
0x204, a 1-byte write at 0x019, event 2, the command word 0x80202000, and the 16 bytes of a descriptor with LAST
decode to their operations; event code 5 decodes to none. (R101, R102, R103, R104, R110, 95_test_vectors.md section
2) -/
def Obligations.SpecWordsDecodeToTheirOperations : Prop :=
  decode Cfg.default (.input (.mmio 0x1018 0 4 0x80000048)) = .ok (.wrCmdr 0x80000048) ∧
  decode Cfg.default (.input (.mmio 0x0038 0 4 0)) = .ok .rdRisr ∧
  decode Cfg.default (.input (.mmio 0x0204 0 4 0)) = .ok (.rdxUnknownOffset 0x204) ∧
  decode Cfg.default (.input (.mmio 0x1019 0 1 1)) = .ok (.wrxIllegalAccess 0x19 1 1) ∧
  decode Cfg.default (.input (.event 2 Snapshot.zero)) = .ok .evReset ∧
  decode Cfg.default (.input (.command 0x80202000)) = .ok (.cmdClkchg 0x80202000) ∧
  decode Cfg.default (.descriptor 0x1000 [0x04, 0, 0, 0x80, 8, 0, 0, 0, 0, 0x20, 0, 0, 0, 0, 0, 0]) =
    .ok (.descLast 0x1000 ⟨0x80000004, 8, 0x2000, 0⟩) ∧
  decode Cfg.default (.input (.event 5 Snapshot.zero)) = .error .unusedEventCode

/-- In the default configuration the offsets are those of R24, the field positions those of R25, R31, R36, R37, R47 and
R104, the other parameters those of R5 column default, and the well-formedness of R6 holds. The window base and
Card-Present at power-on have no default in the spec and are not in the statement, nor is the model's own
dmaControlDrivesLine (log entry 17). (R5, R6, R24, R25, R31, R36, R37, R47, 30_encoding.md R104) -/
def Obligations.DefaultConfigurationHoldsTheSpecTables : Prop :=
  Reg.all.map Cfg.default.offsets.get =
    [0x000, 0x004, 0x008, 0x00C, 0x010, 0x014, 0x018, 0x01C, 0x020, 0x024, 0x028, 0x02C, 0x030, 0x034, 0x038, 0x03C,
      0x040, 0x044, 0x050, 0x058, 0x05C, 0x060, 0x078, 0x080, 0x084, 0x088, 0x08C, 0x100, 0x10C, 0x110, 0x114, 0x118,
      0x11C, 0x120, 0x124, 0x128, 0x12C, 0x130, 0x134, 0x200] ∧
  Cfg.default.pos =
    { softRst := 0, fifoRst := 1, dmaRst := 2, intEnb := 4, dmaEnb := 5, cmdIdx := 0, respExp := 6, respLong := 7,
      dataExp := 9, cmdWrite := 10, autostop := 12, clkChange := 21, load := 31, noResponse := 1, cmdComplete := 2,
      dataComplete := 3, autocmdDone := 14, sdioIntr := 16, cardInsert := 30, cardRemove := 31, cardPresent := 8,
      txDone := 0, rxDone := 1, rxSummary := 8, hold := 31, error := 30, chain := 4, first := 3, last := 2, noIrq := 1 } ∧
  Cfg.default.rst = Regs.resetTable ∧ Cfg.default.mmioSize = 0x1000 ∧ Cfg.default.stopCmdId = 12 ∧
  Cfg.default.addrBits = 32 ∧ Cfg.default.descByteOrder = .little ∧ Cfg.default.bufAddrMask = 0xFFFFFFFC ∧
  Cfg.default.stageBytes = 1024 ∧ Cfg.default.idstW1cMask = 0x3FF ∧ Cfg.default.fifoBytes = 4 ∧
  Cfg.default.unimpSet = [] ∧ Cfg.default.writebackNormalisesSize = false ∧ Cfg.default.oversizeClamp = false ∧
  Cfg.default.wf = true

/-- For every well-formed configuration and every well-formed operation of all 96 rows, with every operand at every
value, decode (encode i) = i. (30_encoding.md R101 to R112) -/
def Obligations.DecodeInvertsEncode : Prop :=
  ∀ (c : Cfg) (i : Instr), c.wf = true → i.wellFormed c = true → decode c (encode c i) = .ok i

/-- For every configuration and every term of the four formats, an operation the decoder gives is well-formed: a catch-
all row only where no register or no legal shape is, a command or descriptor row only for its own class.
(30_encoding.md R110 to R114) -/
def Obligations.DecodedOperationsAreWellFormed : Prop :=
  ∀ (c : Cfg) (e : Encoded) (i : Instr), decode c e = .ok i → i.wellFormed c = true

/-- For every well-formed operation of a well-formed configuration, every state and further inputs: if the operation is
no descriptor row its encoding is an input of the device, and with it first among the pending inputs a step is exec
of the operation. That inputs stand in a queue (log entry 1, DESIGN CHOICE), that a command word, a CMD.* row, is an
input with a step of its own, the whole WR CMDR of R4, and that a descriptor row is none but part of a walk (log
entry 9, DEDUCED) are the model's. (00_scope.md R4, 30_encoding.md R101 to R112, log entry 1, log entry 9) -/
def Obligations.EncodedOperationRunsAsItself : Prop :=
  ∀ (i : Instr) (s : State) (rest : List Input), s.cfg.wf = true → i.wellFormed s.cfg = true →
    ((∃ dptr d, i = .descLast dptr d ∨ i = .descLink dptr d) ∧ (∃ dptr b, encode s.cfg i = .descriptor dptr b)) ∨
    (∃ inp, encode s.cfg i = .input inp ∧
      step { s with inbox := inp :: rest } = exec i { s with inbox := rest })

/-- For every 32-bit word exactly one of the five rows (mask, match) of the default map matches it, and the word decodes
to that row. (30_encoding.md R111) -/
def Obligations.CommandClassesPartitionTheWords : Prop :=
  ∀ w : Word, ∃ row ∈ commandRows, w &&& row.1 = row.2.1 ∧ decode Cfg.default (.input (.command w)) = .ok (row.2.2 w) ∧
    ∀ row' ∈ commandRows, w &&& row'.1 = row'.2.1 → row'.1 = row.1 ∧ row'.2.1 = row.2.1

/-- For every configuration, address and 16 bytes, the bytes decode to a descriptor of four words: in the little-endian
order, the default and the order of R75, word i is the little-endian number of bytes 4i to 4i+3. In the other order,
which rests on R5's parameter DESC_BYTE_ORDER as Cfg holds it (log entry 2) and not on R75, it is the big-endian
number. The row is DESC.LAST when LAST of the status (bit 2, mask 0x00000004, in the default map) is 1 and DESC.LINK
when it is 0. (30_encoding.md R104, R112, 20_memory.md R75, 00_scope.md R5, log entry 2) -/
def Obligations.DescriptorClassFollowsLast : Prop :=
  ∀ (c : Cfg) (dptr : Word) (b : List Byte), b.length = 16 → ∃ d : Desc,
    decode c (.descriptor dptr b) =
      .ok (if d.status.getLsbD c.pos.last then .descLast dptr d else .descLink dptr d) ∧
    (c.descByteOrder = .little → d.status.toNat = le32Nat b 0 ∧ d.size.toNat = le32Nat b 4 ∧
      d.addr.toNat = le32Nat b 8 ∧ d.next.toNat = le32Nat b 12) ∧
    (c.descByteOrder = .big → d.status.toNat = be32Nat b 0 ∧ d.size.toNat = be32Nat b 4 ∧
      d.addr.toNat = be32Nat b 8 ∧ d.next.toNat = be32Nat b 12)

/-- For every bus transaction whose size is not 4 or whose offset is not a multiple of 4, whatever register the offset
lies in, a step appends BadAccess (direction, offset, size) to the log, returns 0 for a read, and changes nothing
else. (R214) -/
def Obligations.IllegalAccessIsLoggedAndIgnored : Prop :=
  ∀ (s : State) (header : BitVec 13) (offHigh : BitVec 20) (size : Nat) (data : Word) (rest : List Input),
    s.inbox = .mmio header offHigh size data :: rest →
    (size ≠ 4 ∨ (busOffset header offHigh).toNat % 4 ≠ 0) →
    step s = .next { s with
      inbox := rest
      log := s.log ++ [.badAccess (header.getLsbD 12) (busOffset header offHigh) size]
      trace := if header.getLsbD 12 then s.trace else .busRead size 0 :: s.trace }

/-- For every 4-byte transaction at a multiple of 4 that is no register's offset, inside the window or beyond it, a step
appends BadOffset (direction, offset), returns 0 for a read, and changes nothing else. (R212, R213) -/
def Obligations.UnknownOffsetIsLoggedAndIgnored : Prop :=
  ∀ (s : State) (header : BitVec 13) (offHigh : BitVec 20) (data : Word) (rest : List Input),
    s.inbox = .mmio header offHigh 4 data :: rest →
    (busOffset header offHigh).toNat % 4 = 0 →
    (∀ r : Reg, s.cfg.offsets.get r ≠ busOffset header offHigh) →
    step s = .next { s with
      inbox := rest
      log := s.log ++ [.badOffset (header.getLsbD 12) (busOffset header offHigh)]
      trace := if header.getLsbD 12 then s.trace else .busRead 4 0 :: s.trace }

/-- For every well-formed configuration and register, a 4-byte transaction at its offset runs WR reg with the
transaction's data when W is 1 and RD reg when W is 0. (R110, R130) -/
def Obligations.LegalAccessRunsItsRegistersOperation : Prop :=
  ∀ (r : Reg) (s : State) (header : BitVec 13) (offHigh : BitVec 20) (data : Word) (rest : List Input),
    s.cfg.wf = true → s.inbox = .mmio header offHigh 4 data :: rest → busOffset header offHigh = s.cfg.offsets.get r →
    step s = exec (if header.getLsbD 12 then wrInstr data r else rdInstr r) { s with inbox := rest }

/-- exec of the unknown-offset write and read and of the illegal write and read answers the state with the diagnostic
appended and, for a read, 0 returned; nothing else differs. (R212, R213, R214, R342, R343) -/
def Obligations.CatchAllRowsComplete : Prop :=
  ∀ (s : State) (off v : Word) (size : Nat),
    exec (.wrxUnknownOffset off v) s = .next { s with log := s.log ++ [.badOffset true off] } ∧
    exec (.rdxUnknownOffset off) s =
      .next { s with log := s.log ++ [.badOffset false off], trace := .busRead 4 0 :: s.trace } ∧
    exec (.wrxIllegalAccess off size v) s = .next { s with log := s.log ++ [.badAccess true off size] } ∧
    exec (.rdxIllegalAccess off size) s =
      .next { s with log := s.log ++ [.badAccess false off size], trace := .busRead size 0 :: s.trace }

/-- For each of the 19 plain-storage registers, every state and value: the write completes, the cell holds the value,
every other cell, XFER, the card, memory and the events are unchanged, the log gains only the Unimplemented entry of
a register in UNIMP_SET; writing the value already held leaves the register file as it was; a read then returns the
value and changes nothing; reset gives the register its reset value. (R131) -/
def Obligations.PlainStorageRegistersRoundTrip : Prop :=
  ∀ e ∈ plainStorage, ∀ (s : State) (v : Word), ∃ t, exec (e.2.1 v) s = .next t ∧
    t.cell e.1 = v ∧ s.keepsCells t [e.1] ∧ t.xfer = s.xfer ∧ s.sameOutside t ∧ t.trace = s.trace ∧
    t.log = s.logAfterWrite e.1.reg v ∧ t.irqLevel = s.irqLevel ∧ (v = s.cell e.1 → t.x = s.x) ∧
    exec e.2.2 t = .next { t with trace := .busRead 4 v :: t.trace } ∧
    ∃ u, exec .evReset t = .next u ∧ u.cell e.1 = s.cfg.rst.get e.1

/-- For every state and value, WR IMKR, WR DMAC and WR IDIE complete with the cell holding the value and every other
cell, XFER, card and memory unchanged. After WR IMKR one IrqSet drives the new level, INT_ENB and (RISR and v)
nonzero. WR DMAC and WR IDIE leave the level as it was; whether they record one IrqSet of it is the model's choice
(log entry 17, DESIGN CHOICE): they do exactly if the configuration's dmaControlDrivesLine is set, as R178 and R184
say, and do not otherwise, the default, as R281's complete list of callers says. (R156, R178, R184, R281, log entry
17) -/
def Obligations.MaskAndDmaControlWritesDriveTheLine : Prop :=
  ∀ e ∈ [(Cell.imkr, Instr.wrImkr), (Cell.dmac, Instr.wrDmac), (Cell.idie, Instr.wrIdie)],
    ∀ (s : State) (v : Word), ∃ t, exec (e.2 v) s = .next t ∧
      t.cell e.1 = v ∧ s.keepsCells t [e.1] ∧ t.xfer = s.xfer ∧ s.sameOutside t ∧
      t.trace = (if e.1 = .imkr ∨ s.cfg.dmaControlDrivesLine = true then [.irqSet t.irqLevel] else []) ++ s.trace ∧
      t.log = s.logAfterWrite e.1.reg v ∧
      (e.1 = .imkr → t.irqLevel = ((s.cell .gctl).getLsbD s.cfg.pos.intEnb && (s.cell .risr &&& v) != 0)) ∧
      (e.1 ≠ .imkr → t.irqLevel = s.irqLevel)

/-- For every state with a well-formed configuration and every value, WR GCTL completes: the three strobes (bits 0 to 2
in the default map) read 0, every other bit is as written, no other cell, XFER, card or memory changes, and one
IrqSet drives INT_ENB as written and (RISR and IMKR) nonzero. (R132) -/
def Obligations.GlobalControlWriteDropsTheStrobes : Prop :=
  ∀ (s : State) (v : Word), s.cfg.wf = true → ∃ t, exec (.wrGctl v) s = .next t ∧
    (∀ k, k < 32 → (t.cell .gctl).getLsbD k =
      (v.getLsbD k && !decide (k = s.cfg.pos.softRst ∨ k = s.cfg.pos.fifoRst ∨ k = s.cfg.pos.dmaRst))) ∧
    s.keepsCells t [.gctl] ∧ t.xfer = s.xfer ∧ s.sameOutside t ∧ t.log = s.logAfterWrite .gctl v ∧
    t.trace = .irqSet t.irqLevel :: s.trace ∧
    t.irqLevel = (v.getLsbD s.cfg.pos.intEnb && (s.cell .risr &&& s.cell .imkr) != 0)

/-- For every state and value, WR BYCR completes with BYCR and XFER equal to the value, every other cell, card, memory
and events unchanged, and RD BYCR then returns the value. (R142, R143) -/
def Obligations.ByteCountWriteLoadsTheTransferCounter : Prop :=
  ∀ (s : State) (v : Word), ∃ t, exec (.wrBycr v) s = .next t ∧
    t.cell .bycr = v ∧ t.xfer = v ∧ s.keepsCells t [.bycr] ∧ s.sameOutside t ∧ t.trace = s.trace ∧
    t.log = s.logAfterWrite .bycr v ∧ exec .rdBycr t = .next { t with trace := .busRead 4 v :: t.trace }

/-- For every state and value, both writes complete; each raw bit is cleared if written 1 and kept if written 0, none is
set; no other cell changes; one IrqSet drives the new level. (R158, R160) -/
def Obligations.AcknowledgeClearsExactlyTheWrittenBits : Prop :=
  ∀ e ∈ [(Reg.risr, Instr.wrRisr), (Reg.misr, Instr.wrMisr)], ∀ (s : State) (v : Word),
    ∃ t, exec (e.2 v) s = .next t ∧
      (∀ k, k < 32 → (t.cell .risr).getLsbD k = ((s.cell .risr).getLsbD k && !v.getLsbD k)) ∧
      s.keepsCells t [.risr] ∧ t.xfer = s.xfer ∧ s.sameOutside t ∧ t.log = s.logAfterWrite e.1 v ∧
      t.trace = .irqSet t.irqLevel :: s.trace

/-- For every state and value, WR IDST completes; each IDST bit is cleared exactly if it is written 1 and lies in
IDST_W1C_MASK (0x3FF in the default configuration), each bit for itself; no other cell changes; IrqSet repeats the
old level. (R182) -/
def Obligations.DmaStatusWriteClearsInsideItsMask : Prop :=
  Cfg.default.idstW1cMask = 0x3FF ∧
  ∀ (s : State) (v : Word), ∃ t, exec (.wrIdst v) s = .next t ∧
    (∀ k, k < 32 → (t.cell .idst).getLsbD k =
      ((s.cell .idst).getLsbD k && !(v.getLsbD k && s.cfg.idstW1cMask.getLsbD k))) ∧
    s.keepsCells t [.idst] ∧ t.xfer = s.xfer ∧ s.sameOutside t ∧ t.log = s.logAfterWrite .idst v ∧
    t.irqLevel = s.irqLevel ∧ t.trace = .irqSet s.irqLevel :: s.trace

/-- For each of the 11 class-fixed registers, every state and value, the write completes and the state is unchanged but
for the Unimplemented entry of a register in UNIMP_SET; in particular the line is not recomputed. (R162, R190, R192,
R194, R196, R198, R200, R202, R204, R206, R208) -/
def Obligations.FixedRegistersIgnoreWrites : Prop :=
  ∀ e ∈ fixedWrites, ∀ (s : State) (v : Word),
    exec (e.2 v) s = .next { s with log := s.logAfterWrite e.1 v }

/-- For every state: a read of a register with a cell returns the cell, RD MISR returns RISR and IMKR, a read of the
fixed-zero block returns 0, and nothing but the returned value is recorded. (40_register_access.md R133 to R209,
R159, 20_memory.md R80) -/
def Obligations.ReadsReturnTheirRegisterAndChangeNothing : Prop :=
  ∀ s : State,
    (∀ e ∈ cellReads, exec e.2 s = .next { s with trace := .busRead 4 (s.cell e.1) :: s.trace }) ∧
    exec .rdMisr s = .next { s with trace := .busRead 4 (s.cell .risr &&& s.cell .imkr) :: s.trace } ∧
    (∀ i ∈ zeroReads, exec i s = .next { s with trace := .busRead 4 0 :: s.trace })

/-- For every state with a well-formed configuration both notifications complete: CARD_INSERT and CARD_REMOVE of RISR
(bits 30 and 31 in the default map) and CARD_PRESENT of STAR (bit 8) take the notified values, every other bit of
RISR and STAR and every other cell, XFER, log, card and memory is unchanged, and one IrqSet drives the new level.
(R300, R301) -/
def Obligations.CardNotificationsSetPresenceAndStatus : Prop :=
  ∀ s : State, s.cfg.wf = true →
    (∃ t, exec .evInsert s = .next t ∧
      (∀ k, k < 32 → (t.cell .risr).getLsbD k =
        (if k = s.cfg.pos.cardInsert then true else if k = s.cfg.pos.cardRemove then false
          else (s.cell .risr).getLsbD k)) ∧
      (∀ k, k < 32 → (t.cell .star).getLsbD k =
        (if k = s.cfg.pos.cardPresent then true else (s.cell .star).getLsbD k)) ∧
      s.keepsCells t [.risr, .star] ∧ t.xfer = s.xfer ∧ s.sameOutside t ∧ t.log = s.log ∧
      t.trace = .irqSet t.irqLevel :: s.trace) ∧
    (∃ t, exec .evRemove s = .next t ∧
      (∀ k, k < 32 → (t.cell .risr).getLsbD k =
        (if k = s.cfg.pos.cardRemove then true else if k = s.cfg.pos.cardInsert then false
          else (s.cell .risr).getLsbD k)) ∧
      (∀ k, k < 32 → (t.cell .star).getLsbD k =
        (if k = s.cfg.pos.cardPresent then false else (s.cell .star).getLsbD k)) ∧
      s.keepsCells t [.risr, .star] ∧ t.xfer = s.xfer ∧ s.sameOutside t ∧ t.log = s.log ∧
      t.trace = .irqSet t.irqLevel :: s.trace)

/-- For every state EV.RESET completes: every cell but STAR has its reset value, STAR has it in every bit but
CARD_PRESENT (bit 8 in the default map), which is kept; XFER is 0; log, card, memory, configuration are unchanged;
one IrqSet; with the default table RISR and IDST are 0 and the level is low; a second reset leaves register file and
XFER as they are. (R380, R381) -/
def Obligations.ResetRestoresTheTableAndKeepsCardPresent : Prop :=
  ∀ s : State, ∃ t, exec .evReset s = .next t ∧
    (∀ c, c ≠ .star → t.cell c = s.cfg.rst.get c) ∧
    (∀ k, k < 32 → (t.cell .star).getLsbD k =
      (if k = s.cfg.pos.cardPresent then (s.cell .star).getLsbD k else (s.cfg.rst.get .star).getLsbD k)) ∧
    t.xfer = 0 ∧ t.log = s.log ∧ s.sameOutside t ∧ t.trace = .irqSet t.irqLevel :: s.trace ∧
    (s.cfg.rst = Regs.resetTable → t.cell .risr = 0 ∧ t.cell .idst = 0 ∧ t.irqLevel = false) ∧
    ∃ u, exec .evReset t = .next u ∧ u.x = t.x ∧ u.xfer = t.xfer

/-- For every well-formed configuration whose reset value of STAR lies in CARD_PRESENT only (bit 8 in the default map),
every card and memory: at power-on every cell but STAR has its reset value, STAR is CARD_PRESENT_AT_POWER_ON at that
bit, XFER is 0, the log empty, and with the default table the line low; and a reset from any state of that
configuration with that Card-Present bit gives the same register file, XFER and level. (R383) -/
def Obligations.PowerOnIsTheResetState : Prop :=
  ∀ (c : Cfg) (card : Card) (mem : Memory), c.wf = true →
    c.rst.get .star &&& ~~~(bit c.pos.cardPresent) = 0 →
    (∀ r, r ≠ .star → (State.powerOn c card mem).cell r = c.rst.get r) ∧
    (State.powerOn c card mem).cell .star = (if c.cardPresentAtPowerOn then bit c.pos.cardPresent else 0) ∧
    (State.powerOn c card mem).xfer = 0 ∧ (State.powerOn c card mem).log = [] ∧
    (c.rst = Regs.resetTable → (State.powerOn c card mem).irqLevel = false) ∧
    ∀ s : State, s.cfg = c → (s.cell .star).getLsbD c.pos.cardPresent = c.cardPresentAtPowerOn →
      ∃ t, exec .evReset s = .next t ∧ t.x = (State.powerOn c card mem).x ∧ t.xfer = 0 ∧
        t.irqLevel = (State.powerOn c card mem).irqLevel

/-- State.reset holds the nonzero literals GCTL 0x300, TMOR 0xFFFFFF40, BKSR 0x200, BYCR 0x200, FWLR 0x000F0000, A12A
0xFFFF, NTSR 1, HWRST 1, every other cell 0, XFER 0, an empty log and a low line. STAR 0 rests on the model's choice
of Card-Present at power-on (log entry 5). (R52, R53, 70_reset_and_hazards.md R383) -/
def Obligations.ResetStateHoldsTheDocumentedLiterals : Prop :=
  State.reset.cell .gctl = 0x300 ∧ State.reset.cell .tmor = 0xFFFFFF40 ∧ State.reset.cell .bksr = 0x200 ∧
  State.reset.cell .bycr = 0x200 ∧ State.reset.cell .fwlr = 0x000F0000 ∧ State.reset.cell .a12a = 0xFFFF ∧
  State.reset.cell .ntsr = 1 ∧ State.reset.cell .hwrst = 1 ∧
  (∀ c, c ∉ [Cell.gctl, .tmor, .bksr, .bycr, .fwlr, .a12a, .ntsr, .hwrst] → State.reset.cell c = 0) ∧
  State.reset.xfer = 0 ∧ State.reset.log = [] ∧ State.reset.irqLevel = false

/-- For every state EV.SAVE completes, returning (x, XFER) and its bytes under SNAPSHOT_CODEC, whatever injective codec
that is (recording the pair beside its bytes is the model's choice, log entry 6), and changing nothing; two
snapshots with the same bytes are the same; EV.RESTORE of any snapshot completes with exactly its register file and
XFER, unvalidated, log, card, memory and configuration unchanged, and one IrqSet; restoring the snapshot of the
state itself leaves all but the events as it was. (R388, R390, R57, R5, log entry 6) -/
def Obligations.SnapshotSavesAndRestoresRegistersAndCounter : Prop :=
  (∀ a b : Snapshot, Config.snapshotCodec.encode a = Config.snapshotCodec.encode b → a = b) ∧
  ∀ s : State,
    exec .evSave s = .next { s with trace := .saved ⟨s.x, s.xfer⟩ (Config.snapshotCodec.encode ⟨s.x, s.xfer⟩) :: s.trace } ∧
    ∀ snap : Snapshot, ∃ t, exec (.evRestore snap) s = .next t ∧
      t.x = snap.x ∧ t.xfer = snap.xfer ∧ s.sameOutside t ∧ t.log = s.log ∧
      t.trace = .irqSet t.irqLevel :: s.trace ∧
      (snap = ⟨s.x, s.xfer⟩ → t = { s with trace := .irqSet s.irqLevel :: s.trace })

/-- For every word and every state with a well-formed configuration, WR CMDR, written over the general dispatch path of
R222, does exactly what the command-class row of the word does, written from the class's own rule (R223, R225, R226,
R227, or the store of R144). That a command-class row stands for the whole WR CMDR of a word of its class is the
model's reading (log entry 9, DEDUCED). (R111, R144, R222, R223, R225, R226, R227, log entry 9) -/
def Obligations.CommandWriteIsItsClassRow : Prop :=
  ∀ (w : Word) (s : State) (i : Instr), s.cfg.wf = true → decodeInput s.cfg (.command w) = .ok i →
    exec (.wrCmdr w) s = exec i s

/-- For every state and word with LOAD (bit 31 in the default map) clear, WR CMDR and CMD.STORE complete with CMDR equal
to the word, every other cell, XFER, card and memory unchanged, and one IrqSet of the unchanged level. (R144) -/
def Obligations.CommandWordWithoutLoadIsOnlyStored : Prop :=
  ∀ e ∈ [Instr.wrCmdr, Instr.cmdStore], ∀ (s : State) (w : Word), loadBit s.cfg.pos w = false →
    ∃ t, exec (e w) s = .next t ∧ t.cell .cmdr = w ∧ s.keepsCells t [.cmdr] ∧ t.xfer = s.xfer ∧ s.sameOutside t ∧
      t.log = s.logAfterWrite .cmdr w ∧ t.trace = .irqSet s.irqLevel :: s.trace

/-- For every state with a well-formed configuration and every clock-change word with load: CMD.CLKCHG completes with
the post-dispatch state u followed by walk, auto-stop check and line, where u holds the word without LOAD and RISR
with CMD_COMPLETE, every other cell, XFER, card, memory and events unchanged; with no walk and no auto-stop due only
the line follows; with no walk and an auto-stop due, AUTOCMD_DONE is added and the card still sees nothing. (R223,
R144, R231) -/
def Obligations.ClockChangeCompletesWithoutTheCard : Prop :=
  ∀ (s : State) (w : Word), s.cfg.wf = true → loadBit s.cfg.pos w = true → clkChange s.cfg.pos w = true →
    ∃ u, exec (.cmdClkchg w) s = .next u.afterDispatch ∧
      u.cell .cmdr = clearBit w s.cfg.pos.load ∧ u.cell .risr = setBit (s.cell .risr) s.cfg.pos.cmdComplete ∧
      s.keepsCells u [.cmdr, .risr] ∧ u.xfer = s.xfer ∧ s.sameOutside u ∧ u.trace = s.trace ∧
      u.log = s.logAfterWrite .cmdr w ∧ endsWithLine u ∧
      (s.walkEnabled = false → autostop s.cfg.pos w = true → s.xfer = 0 →
        u.afterDispatch.cell .risr =
          setBit (setBit (s.cell .risr) s.cfg.pos.cmdComplete) s.cfg.pos.autocmdDone ∧
        u.afterDispatch.card = s.card ∧
        u.afterDispatch.trace = .irqSet u.afterDispatch.irqLevel :: s.trace)

/-- For every state with a well-formed configuration and every loaded word that is no clock change and expects no
response: CMD.NORESP completes with a post-dispatch state u followed by walk, auto-stop check and line; u holds the
word without LOAD, the card was sent (id, CAGR) once; RISR gains NO_RESPONSE if the card failed and CMD_COMPLETE for
any response; RESP0 to RESP3 are untouched; with no walk and no auto-stop due only the line follows. (R225, R144) -/
def Obligations.CommandWithoutResponseDiscardsTheAnswer : Prop :=
  ∀ (s : State) (w : Word), s.cfg.wf = true → loadBit s.cfg.pos w = true → clkChange s.cfg.pos w = false →
    respExp s.cfg.pos w = false →
    ∃ u, exec (.cmdNoresp w) s = .next u.afterDispatch ∧ issued s w u ∧ endsWithLine u ∧
      (answer s w = none → dispatchFailed s u) ∧ (∀ r, answer s w = some r → dispatchDone s u)

/-- For every state with a well-formed configuration and every loaded word that expects a short response: CMD.SHORT
completes with a post-dispatch state u followed by walk, auto-stop check and line; for a 4-byte answer RESP0 is its
big-endian number, RESP1 to RESP3 are 0 and CMD_COMPLETE is set; for any other answer NO_RESPONSE is set and the
responses are untouched; with no walk and no auto-stop due only the line follows. (R226, R228, R144, 00_scope.md
R11) -/
def Obligations.ShortResponseIsCapturedMostSignificantFirst : Prop :=
  ∀ (s : State) (w : Word), s.cfg.wf = true → loadBit s.cfg.pos w = true → clkChange s.cfg.pos w = false →
    respExp s.cfg.pos w = true → respLong s.cfg.pos w = false →
    ∃ u, exec (.cmdShort w) s = .next u.afterDispatch ∧ issued s w u ∧ endsWithLine u ∧
      (∀ r, answer s w = some r → r.length = 4 → dispatchCaptured s u (be32Nat r 0) 0 0 0) ∧
      ((∀ r, answer s w = some r → r.length ≠ 4) → dispatchFailed s u)

/-- For every state with a well-formed configuration and every loaded word that expects a long response: CMD.LONG
completes with a post-dispatch state u followed by walk, auto-stop check and line; for a 16-byte answer RESP0 to
RESP3 are the big-endian numbers of bytes 12 to 15, 8 to 11, 4 to 7, 0 to 3 and CMD_COMPLETE is set; for any other
answer NO_RESPONSE is set and the responses are untouched. (R227, R228, R144, R76, R108) -/
def Obligations.LongResponseIsStoredWordReversed : Prop :=
  ∀ (s : State) (w : Word), s.cfg.wf = true → loadBit s.cfg.pos w = true → clkChange s.cfg.pos w = false →
    respExp s.cfg.pos w = true → respLong s.cfg.pos w = true →
    ∃ u, exec (.cmdLong w) s = .next u.afterDispatch ∧ issued s w u ∧ endsWithLine u ∧
      (∀ r, answer s w = some r → r.length = 16 →
        dispatchCaptured s u (be32Nat r 12) (be32Nat r 8) (be32Nat r 4) (be32Nat r 0)) ∧
      ((∀ r, answer s w = some r → r.length ≠ 16) → dispatchFailed s u)

/-- For every state with a well-formed configuration and every loaded word that is no clock change: WR CMDR completes
with a post-dispatch state u, in which the command was delivered to the card, followed by walk, auto-stop check and
line in every case; a failure of the card gives NO_RESPONSE and untouched responses; an answer to a word that
expects none completes with untouched responses; a short or long response of fitting length is captured; an answer
of 0, 4 or 16 bytes that does not fit the flags gives NO_RESPONSE and untouched responses. (R228) -/
def Obligations.DispatchFollowsTheOutcomeTable : Prop :=
  ∀ (s : State) (w : Word), s.cfg.wf = true → loadBit s.cfg.pos w = true → clkChange s.cfg.pos w = false →
    ∃ u, exec (.wrCmdr w) s = .next u.afterDispatch ∧ issued s w u ∧
      (answer s w = none → dispatchFailed s u) ∧
      ∀ r, answer s w = some r → r.length = 0 ∨ r.length = 4 ∨ r.length = 16 →
        (respExp s.cfg.pos w = false → dispatchDone s u) ∧
        (respExp s.cfg.pos w = true → respLong s.cfg.pos w = false → r.length = 4 →
          dispatchCaptured s u (be32Nat r 0) 0 0 0) ∧
        (respExp s.cfg.pos w = true → respLong s.cfg.pos w = false → r.length ≠ 4 → dispatchFailed s u) ∧
        (respExp s.cfg.pos w = true → respLong s.cfg.pos w = true → r.length = 16 →
          dispatchCaptured s u (be32Nat r 12) (be32Nat r 8) (be32Nat r 4) (be32Nat r 0)) ∧
        (respExp s.cfg.pos w = true → respLong s.cfg.pos w = true → r.length ≠ 16 → dispatchFailed s u)

/-- For every state with a well-formed configuration and every loaded word that is no clock change, whatever walk
follows: WR CMDR completes; the card saw exactly (id, CAGR) and then, if AUTOSTOP is set and XFER is 0 after the
walk, exactly one (STOP_CMD_ID, 0), else nothing more; after a stop AUTOCMD_DONE is set; CMDR holds the guest's word
without LOAD and CAGR its argument; every cell but CMDR, RESP0 to RESP3, RISR, BYCR and IDST and every raw status
bit but NO_RESPONSE, CMD_COMPLETE, DATA_COMPLETE and AUTOCMD_DONE is unchanged. With no walk to make, XFER 0 and
AUTOSTOP: memory, BYCR, IDST and DATA_COMPLETE are unchanged too; a failure of the stop command sets NO_RESPONSE,
and its 4-byte answer to a word that expects a short response stands in RESP0 with CMD_COMPLETE set. (R230, R231,
R232, R233, R234, R235, R265) -/
def Obligations.AutoStopSendsTheStopCommandUnseen : Prop :=
  ∀ (s : State) (w : Word), s.cfg.wf = true → loadBit s.cfg.pos w = true → clkChange s.cfg.pos w = false →
    ∃ t, exec (.wrCmdr w) s = .next t ∧
      cardCommands t.trace = (if autostop s.cfg.pos w = true ∧ t.xfer = 0 then [(s.cfg.stopCmdId, 0)] else []) ++
        (cmdIdx s.cfg.pos w, s.cell .cagr) :: cardCommands s.trace ∧
      (autostop s.cfg.pos w = true → t.xfer = 0 → (t.cell .risr).getLsbD s.cfg.pos.autocmdDone = true) ∧
      t.cell .cmdr = clearBit w s.cfg.pos.load ∧ t.cell .cagr = s.cell .cagr ∧
      s.keepsCells t [.cmdr, .resp0, .resp1, .resp2, .resp3, .risr, .bycr, .idst] ∧
      keepsRawBits s t [s.cfg.pos.noResponse, s.cfg.pos.cmdComplete, s.cfg.pos.dataComplete, s.cfg.pos.autocmdDone] ∧
      (autostop s.cfg.pos w = true → s.walkEnabled = false → s.xfer = 0 →
        t.xfer = 0 ∧ t.mem = s.mem ∧ s.keepsCells t [.cmdr, .resp0, .resp1, .resp2, .resp3, .risr] ∧
        keepsRawBits s t [s.cfg.pos.noResponse, s.cfg.pos.cmdComplete, s.cfg.pos.autocmdDone] ∧
        (stopAnswer s w = none → (t.cell .risr).getLsbD s.cfg.pos.noResponse = true) ∧
        (∀ r, stopAnswer s w = some r → respExp s.cfg.pos w = true → respLong s.cfg.pos w = false → r.length = 4 →
          (t.cell .risr).getLsbD s.cfg.pos.cmdComplete = true ∧ (t.cell .resp0).toNat = be32Nat r 0))

/-- For every operation and state: when exec answers a next state, every cell outside the operation's list is unchanged
(in particular no command, walk or FIFO access writes CAGR, DLBA, GCTL, IMKR or STAR, and only WR CMDR, reset and
restore write CMDR), and so are the configuration and the pending inputs. (40_register_access.md R131 to R214, R222,
R232, R254, R302) -/
def Obligations.EveryOperationWritesOnlyItsOwnCells : Prop :=
  ∀ (i : Instr) (s t : State), exec i s = .next t →
    s.keepsCells t (mayWrite i) ∧ t.cfg = s.cfg ∧ t.inbox = s.inbox

/-- For every operation and state: an operation that loads no command word and is no descriptor row leaves every byte of
memory unchanged; if it is no FIFO access either, it leaves the card unchanged and makes no call of it: no command,
no readiness check, no byte either way. (R70, R72, R73, R254, R310, 00_scope.md R8) -/
def Obligations.OnlyTheWalkWritesMemoryAndOnlyDataPathsReachTheCard : Prop :=
  ∀ (i : Instr) (s t : State), exec i s = .next t →
    (mayWalk s.cfg.pos i = false → t.mem = s.mem) ∧
    (mayCallCard s.cfg.pos i = false → t.card = s.card ∧ cardCalls t.trace = cardCalls s.trace)

/-- For every operation and state: if XFER is larger after the operation than before, the operation is WR BYCR or
EV.RESTORE. (R142, R54, R390) -/
def Obligations.OnlyByteCountWriteAndRestoreRaiseTheCounter : Prop :=
  ∀ (i : Instr) (s t : State), exec i s = .next t → s.xfer.toNat < t.xfer.toNat →
    (∃ v, i = .wrBycr v) ∨ (∃ snap, i = .evRestore snap)

/-- For every operation, state and bit: a raw status bit that is 1 before the operation and 0 after was cleared by WR
RISR or WR MISR with that bit written 1, by EV.INSERT (CARD_REMOVE, bit 31 in the default map), by EV.REMOVE
(CARD_INSERT, bit 30), by EV.RESET or by EV.RESTORE. (R282, R229, R403) -/
def Obligations.RawStatusIsSticky : Prop :=
  ∀ (i : Instr) (s t : State) (k : Nat), k < 32 → exec i s = .next t →
    (s.cell .risr).getLsbD k = true → (t.cell .risr).getLsbD k = false → mayClearRaw s.cfg.pos k i = true

/-- For every operation and state: if STAR.CARD_PRESENT differs after the operation, the operation is EV.INSERT,
EV.REMOVE or EV.RESTORE. (R302, R37, R390) -/
def Obligations.CardPresentFollowsNotificationsOnly : Prop :=
  ∀ (i : Instr) (s t : State), exec i s = .next t →
    (t.cell .star).getLsbD s.cfg.pos.cardPresent ≠ (s.cell .star).getLsbD s.cfg.pos.cardPresent →
    i = .evInsert ∨ i = .evRemove ∨ ∃ snap, i = .evRestore snap

/-- For every state with a well-formed configuration and canonical memory, every direction, address and descriptor,
whatever its flags: with n the minimum of the effective size and BYCR, the state after the descriptor's step has
BYCR less by n and XFER less by n clamped at 0, every other cell, log, configuration and inputs unchanged, and ends
with the write-back as its last event; the 16 bytes at the address hold the descriptor as handed back; every byte
outside them and, in the read direction, outside the n bytes of the buffer is unchanged. Write direction: the card
was sent exactly the n bytes of the buffer in ascending order and gave none. Read direction: the card gave its next
n bytes and was sent none, and where descriptor and buffer do not overlap memory holds those bytes in order. The
calls of the card are exactly these bytes, in order: no command, no readiness check. Addresses are modulo
2^ADDR_BITS; any width but 32 is the model's choice (log entry 20, DESIGN CHOICE). (R254, R256, R257, R258, R259,
R260, R261, 20_memory.md R77, R88, log entry 20) -/
def Obligations.EveryDescriptorIsMovedHandedBackAndCounted : Prop :=
  ∀ (s : State) (wr : Bool) (dptr : Word) (d : Desc), s.cfg.wf = true → descFits s.cfg →
    s.mem.wf s.cfg.addrBits = true →
    let n := min (d.effSize s.cfg) (s.cell .bycr).toNat
    let base := d.addr &&& s.cfg.bufAddrMask
    let t := s.processDesc wr dptr d
    (t.cell .bycr).toNat = (s.cell .bycr).toNat - n ∧ t.xfer.toNat = s.xfer.toNat - n ∧
    s.keepsCells t [.bycr] ∧ t.log = s.log ∧ t.cfg = s.cfg ∧ t.inbox = s.inbox ∧
    (∃ es, t.trace = .memWrite (s.cfg.byteAddr dptr 0) ((d.handedBack s.cfg).toBytes s.cfg.descByteOrder) :: es) ∧
    bytesAt t dptr 16 = (d.handedBack s.cfg).toBytes s.cfg.descByteOrder ∧
    (∀ q, outside s.cfg q dptr 16 → (wr = true ∨ outside s.cfg q base n) → t.mem.read q = s.mem.read q) ∧
    cardBytes t.trace = n + cardBytes s.trace ∧ cardCommands t.trace = cardCommands s.trace ∧
    cardCalls t.trace = (if wr then (bytesAt s base n).map ExtEvent.cardWrite
      else (s.card.gives n).map ExtEvent.cardRead).reverse ++ cardCalls s.trace ∧
    (wr = true → cardWrites t.trace = (bytesAt s base n).reverse ++ cardWrites s.trace ∧
      cardReads t.trace = cardReads s.trace) ∧
    (wr = false → cardReads t.trace = (s.card.gives n).reverse ++ cardReads s.trace ∧
      cardWrites t.trace = cardWrites s.trace ∧ t.card = s.card.after n ∧
      (n ≤ 2 ^ s.cfg.addrBits → apart s.cfg dptr 16 base n → bytesAt t base n = s.card.gives n))

/-- For every enabled state with a well-formed configuration and canonical memory, every address and descriptor that is
last or exhausts the request (one that continues: EveryDescriptorIsMovedHandedBackAndCounted and
LinkContinuesWithTheDescriptorAtNext): the descriptor row completes; with n the minimum of the effective size and
BYCR, n bytes passed the card, BYCR is less by n, XFER by n clamped at 0; the 16 bytes at the descriptor's address
hold it as handed back; every byte outside the descriptor, and in the read direction outside the n bytes of the
buffer, is unchanged; DATA_COMPLETE and AUTOCMD_DONE are set and IDST gains TX_DONE or RX_DONE and RX_SUMMARY; the
card gets one (STOP_CMD_ID, 0) exactly if CMDR is an AUTOSTOP word that is no clock change and XFER is 0; only BYCR,
RISR, IDST and, through an auto-stop, RESP0 to RESP3 are written; one IrqSet ends it. That the row goes on to the
auto-stop check and the line, as the rest of its WR CMDR, is the model's reading (log entry 9, DEDUCED, from R144,
R230, R281). Addresses are modulo 2^ADDR_BITS; any width but 32 is the model's choice (log entry 20, DESIGN CHOICE).
(R255, R256, R257, R260, R261, R262, R263, R144, R230, R281, log entry 9, log entry 20) -/
def Obligations.DescriptorIsMovedHandedBackAndCounted : Prop :=
  ∀ (s : State) (dptr : Word) (d : Desc), s.walkEnabled = true → s.cfg.wf = true → descFits s.cfg →
    s.mem.wf s.cfg.addrBits = true →
    (d.isLast s.cfg.pos = true ∨ (s.cell .bycr).toNat ≤ d.effSize s.cfg) →
    let n := d.chunk s.cfg (s.cell .bycr)
    let wr := cmdWrite s.cfg.pos (s.cell .cmdr)
    ∃ t, exec (decodeDesc s.cfg.pos dptr d) s = .next t ∧
      (t.cell .bycr).toNat = (s.cell .bycr).toNat - n ∧ t.xfer.toNat = s.xfer.toNat - n ∧
      cardBytes t.trace = n + cardBytes s.trace ∧
      bytesAt t dptr 16 = (d.handedBack s.cfg).toBytes s.cfg.descByteOrder ∧
      (∀ q, outside s.cfg q dptr 16 → (wr = true ∨ outside s.cfg q (d.base s.cfg) n) →
        t.mem.read q = s.mem.read q) ∧
      (t.cell .risr).getLsbD s.cfg.pos.dataComplete = true ∧ (t.cell .risr).getLsbD s.cfg.pos.autocmdDone = true ∧
      t.cell .idst = (if wr then setBit (s.cell .idst) s.cfg.pos.txDone
        else setBit (setBit (s.cell .idst) s.cfg.pos.rxDone) s.cfg.pos.rxSummary) ∧
      cardCommands t.trace =
        (if autostop s.cfg.pos (s.cell .cmdr) = true ∧ clkChange s.cfg.pos (s.cell .cmdr) = false ∧ t.xfer = 0
          then [(s.cfg.stopCmdId, 0)] else []) ++ cardCommands s.trace ∧
      s.keepsCells t [.bycr, .risr, .idst, .resp0, .resp1, .resp2, .resp3] ∧
      (autostop s.cfg.pos (s.cell .cmdr) = false ∨ t.xfer ≠ 0 →
        t.cell .risr = setBit (setBit (s.cell .risr) s.cfg.pos.dataComplete) s.cfg.pos.autocmdDone ∧
        s.keepsCells t [.bycr, .risr, .idst]) ∧
      t.log = s.log ∧ t.cfg = s.cfg ∧ t.inbox = s.inbox ∧ ∃ es, t.trace = .irqSet t.irqLevel :: es

/-- For every enabled state with a well-formed configuration and canonical memory, every address and descriptor that is
last or exhausts the request (one that continues: EveryDescriptorIsMovedHandedBackAndCounted), the descriptor row
(log entry 9, DEDUCED) completes, and with n the minimum of the effective size and BYCR and the base the masked
buffer address: in the write direction the card is sent exactly the n bytes memory holds from the base upward, in
order, and gives none; in the read direction the card gives its next n bytes, is sent none, and, where the
descriptor does not overlap the buffer, memory holds those bytes from the base upward, in order. Addresses are
modulo 2^ADDR_BITS; any width but 32 is the model's choice (log entry 20, DESIGN CHOICE). (R254, R256, R257, R258,
R259, log entry 9, log entry 20) -/
def Obligations.TransferDataIsTheBufferInOrder : Prop :=
  ∀ (s : State) (dptr : Word) (d : Desc), s.walkEnabled = true → s.cfg.wf = true → s.mem.wf s.cfg.addrBits = true →
    (d.isLast s.cfg.pos = true ∨ (s.cell .bycr).toNat ≤ d.effSize s.cfg) →
    let n := min (d.effSize s.cfg) (s.cell .bycr).toNat
    let base := d.addr &&& s.cfg.bufAddrMask
    ∃ t, exec (decodeDesc s.cfg.pos dptr d) s = .next t ∧
      (cmdWrite s.cfg.pos (s.cell .cmdr) = true →
        cardWrites t.trace = (bytesAt s base n).reverse ++ cardWrites s.trace ∧
        cardReads t.trace = cardReads s.trace) ∧
      (cmdWrite s.cfg.pos (s.cell .cmdr) = false →
        cardReads t.trace = (s.card.gives n).reverse ++ cardReads s.trace ∧
        cardWrites t.trace = cardWrites s.trace ∧
        (n ≤ 2 ^ s.cfg.addrBits → apart s.cfg dptr 16 base n → bytesAt t base n = s.card.gives n))

/-- For every configuration and descriptor: the status written back has HOLD (bit 31 in the default map) clear and every
other bit as fetched; addr and next are as fetched; the size is as fetched, except that a zero size becomes 65536
exactly when DESC_WRITEBACK_NORMALISES_SIZE is set; the effective size of a zero size is 65536 and of any other the
size itself, or at most 65536 when DESC_OVERSIZE_CLAMP is set. (R260, R104, R256, 00_scope.md R5) -/
def Obligations.HandedBackDescriptorDiffersOnlyInHoldAndZeroSize : Prop :=
  ∀ (c : Cfg) (d : Desc),
    (∀ k, k < 32 → (d.handedBack c).status.getLsbD k = (d.status.getLsbD k && decide (k ≠ c.pos.hold))) ∧
    (d.handedBack c).addr = d.addr ∧ (d.handedBack c).next = d.next ∧
    (d.handedBack c).size = (if d.size = 0 ∧ c.writebackNormalisesSize = true then 0x00010000 else d.size) ∧
    (d.size = 0 → d.effSize c = 65536) ∧
    (d.size ≠ 0 → d.effSize c = (if c.oversizeClamp = true then min d.size.toNat 65536 else d.size.toNat))

/-- For every enabled state, every address and descriptor without LAST: let u be the state after its bytes are moved,
handed back and counted (EveryDescriptorIsMovedHandedBackAndCounted says what u holds). If BYCR is not 0 in u,
DESC.LINK is exactly the descriptor row that the 16 bytes at next in u's memory decode to, run in u after that
fetch; if BYCR is 0 in u, next is not used and the walk completes. That a descriptor row is the rest of the walk,
with auto-stop check and line, is the model's reading (log entry 9, DEDUCED). Addresses are modulo 2^ADDR_BITS; any
width but 32 is the model's choice (log entry 20, DESIGN CHOICE). (R262, R255, R87, log entry 9, log entry 20) -/
def Obligations.LinkContinuesWithTheDescriptorAtNext : Prop :=
  ∀ (s : State) (dptr : Word) (d : Desc), s.walkEnabled = true → d.isLast s.cfg.pos = false →
    let wr := cmdWrite s.cfg.pos (s.cell .cmdr)
    let u := s.processDesc wr dptr d
    (u.cell .bycr ≠ 0 → ∀ i, decode s.cfg (.descriptor d.next (bytesAt u d.next 16)) = .ok i →
      exec (.descLink dptr d) s = exec i (u.memRead d.next.toNat 16).2) ∧
    (u.cell .bycr = 0 → exec (.descLink dptr d) s = .next (u.walkComplete wr).autoStopCheck.irqUpdate)

/-- For every state u after a dispatch in which the walk is enabled and, in the read direction, the card has data ready:
what follows the dispatch is exactly the descriptor row that the 16 bytes at DLBA decode to, run after the readiness
check (read direction only) and that fetch. That a descriptor row is the rest of the walk, with auto-stop check and
line, is the model's reading (log entry 9, DEDUCED). Addresses are modulo 2^ADDR_BITS; any width but 32 is the
model's choice (log entry 20, DESIGN CHOICE). (R250, R251, R252, R253, R254, R144, log entry 9, log entry 20) -/
def Obligations.WalkStartsWithTheDescriptorAtDlba : Prop :=
  ∀ (u : State) (i : Instr), u.walkEnabled = true →
    (cmdWrite u.cfg.pos (u.cell .cmdr) = true ∨ u.card.dataReady = true) →
    decode u.cfg (.descriptor (u.cell .dlba) (bytesAt u (u.cell .dlba) 16)) = .ok i →
    .next u.afterDispatch =
      exec i ((if cmdWrite u.cfg.pos (u.cell .cmdr) then u else u.cardDataReady.2).memRead (u.cell .dlba).toNat 16).2

/-- For every state with a well-formed configuration and every loaded word: if DMA_ENB is 0, BYCR is 0, BKSR is 0, or
the word is a read and the card after the dispatch has no data ready, then WR CMDR completes with memory, BYCR,
XFER, IDST and the DATA_COMPLETE bit unchanged and no byte passed the card. (R250, R252, R404) -/
def Obligations.NoWalkWithoutItsConditions : Prop :=
  ∀ (s : State) (w : Word), s.cfg.wf = true → loadBit s.cfg.pos w = true →
    ((s.cell .gctl).getLsbD s.cfg.pos.dmaEnb = false ∨ s.cell .bycr = 0 ∨ s.cell .bksr = 0 ∨
      (cmdWrite s.cfg.pos w = false ∧ (cardAfterDispatch s w).dataReady = false)) →
    ∃ t, exec (.wrCmdr w) s = .next t ∧ t.mem = s.mem ∧ t.cell .bycr = s.cell .bycr ∧ t.xfer = s.xfer ∧
      t.cell .idst = s.cell .idst ∧
      (t.cell .risr).getLsbD s.cfg.pos.dataComplete = (s.cell .risr).getLsbD s.cfg.pos.dataComplete ∧
      cardBytes t.trace = cardBytes s.trace

/-- For every state with a well-formed configuration and every loaded word whose walk is enabled and whose card, for a
read, has data ready after the dispatch: WR CMDR completes and there is an M, 1 <= M <= BYCR, such that BYCR is less
by M, XFER is less by M clamped at 0, exactly M bytes passed the card, and DATA_COMPLETE, AUTOCMD_DONE and the IDST
bits of the direction are set, every raw status bit but those and NO_RESPONSE and CMD_COMPLETE as before. (R265,
R256, R261, R262, R263) -/
def Obligations.WalkCountsEveryByteOnce : Prop :=
  ∀ (s : State) (w : Word), s.cfg.wf = true → loadBit s.cfg.pos w = true → s.walkEnabled = true →
    (cmdWrite s.cfg.pos w = true ∨ (cardAfterDispatch s w).dataReady = true) →
    ∃ t M, exec (.wrCmdr w) s = .next t ∧ 1 ≤ M ∧ M ≤ (s.cell .bycr).toNat ∧
      (t.cell .bycr).toNat = (s.cell .bycr).toNat - M ∧ t.xfer.toNat = s.xfer.toNat - M ∧
      cardBytes t.trace = M + cardBytes s.trace ∧
      (t.cell .risr).getLsbD s.cfg.pos.dataComplete = true ∧ (t.cell .risr).getLsbD s.cfg.pos.autocmdDone = true ∧
      keepsRawBits s t [s.cfg.pos.noResponse, s.cfg.pos.cmdComplete, s.cfg.pos.dataComplete, s.cfg.pos.autocmdDone] ∧
      t.cell .idst = (if cmdWrite s.cfg.pos w then setBit (s.cell .idst) s.cfg.pos.txDone
        else setBit (setBit (s.cell .idst) s.cfg.pos.rxDone) s.cfg.pos.rxSummary)

/-- For every state with a well-formed configuration and canonical memory, and every loaded write word with the walk
enabled: if the bytes at DLBA are a descriptor without LAST of effective size K < N = BYCR, the bytes at its next
are a descriptor of effective size at least N - K, and the two do not overlap, then WR CMDR completes; the card was
sent exactly N bytes: the first K of the first buffer and the first N - K of the second, as memory holds it after
the first write-back, in order; BYCR is 0, XFER is less by N clamped at 0; both descriptors stand in memory as
handed back, HOLD clear in both, every byte outside them is unchanged; DATA_COMPLETE and TX_DONE are set. Addresses
are modulo 2^ADDR_BITS; any width but 32 is the model's choice (log entry 20, DESIGN CHOICE). (R266, R265, R258,
R260, R263, 20_memory.md R77, log entry 20) -/
def Obligations.TwoDescriptorChainMovesTheRequest : Prop :=
  ∀ (s : State) (w : Word) (d1 d2 : Desc), s.cfg.wf = true → descFits s.cfg → s.mem.wf s.cfg.addrBits = true →
    loadBit s.cfg.pos w = true → cmdWrite s.cfg.pos w = true → s.walkEnabled = true →
    bytesAt s (s.cell .dlba) 16 = d1.toBytes s.cfg.descByteOrder →
    bytesAt s d1.next 16 = d2.toBytes s.cfg.descByteOrder → apart s.cfg (s.cell .dlba) 16 d1.next 16 →
    d1.isLast s.cfg.pos = false → d1.effSize s.cfg < (s.cell .bycr).toNat →
    (s.cell .bycr).toNat ≤ d1.effSize s.cfg + d2.effSize s.cfg →
    let N := (s.cell .bycr).toNat
    let K := d1.effSize s.cfg
    let m := s.mem.writeBytes s.cfg.addrBits (s.cell .dlba).toNat
      ((d1.handedBack s.cfg).toBytes s.cfg.descByteOrder)
    ∃ t, exec (.wrCmdr w) s = .next t ∧ cardBytes t.trace = N + cardBytes s.trace ∧
      cardWrites t.trace =
        (bytesAt s (d1.base s.cfg) K ++ bytesAt { s with mem := m } (d2.base s.cfg) (N - K)).reverse ++
          cardWrites s.trace ∧
      t.cell .bycr = 0 ∧ t.xfer.toNat = s.xfer.toNat - N ∧
      bytesAt t (s.cell .dlba) 16 = (d1.handedBack s.cfg).toBytes s.cfg.descByteOrder ∧
      bytesAt t d1.next 16 = (d2.handedBack s.cfg).toBytes s.cfg.descByteOrder ∧
      (d1.handedBack s.cfg).status.getLsbD s.cfg.pos.hold = false ∧
      (d2.handedBack s.cfg).status.getLsbD s.cfg.pos.hold = false ∧
      (∀ q, outside s.cfg q (s.cell .dlba) 16 → outside s.cfg q d1.next 16 → t.mem.read q = s.mem.read q) ∧
      (t.cell .risr).getLsbD s.cfg.pos.dataComplete = true ∧
      t.cell .idst = setBit (s.cell .idst) s.cfg.pos.txDone

/-- For every state with a well-formed configuration and canonical memory, and every loaded read word with the walk
enabled whose card has data ready after the dispatch: if the bytes at DLBA are a descriptor without LAST of
effective size K < N = BYCR, the bytes at its next are a descriptor of effective size at least N - K, and
descriptors and buffers do not overlap each other, then WR CMDR completes; the card gave its next N bytes and was
sent none; memory holds the first K of them from the first buffer's base and the other N - K from the second's, in
order; BYCR is 0, XFER is less by N clamped at 0; both descriptors stand in memory as handed back, every byte
outside descriptors and buffers is unchanged; DATA_COMPLETE, RX_DONE and RX_SUMMARY are set. Addresses are modulo
2^ADDR_BITS; any width but 32 is the model's choice (log entry 20, DESIGN CHOICE). (R266, R265, R259, R260, R263,
20_memory.md R77, R252, log entry 20) -/
def Obligations.TwoDescriptorChainReadsTheRequest : Prop :=
  ∀ (s : State) (w : Word) (d1 d2 : Desc), s.cfg.wf = true → descFits s.cfg → s.mem.wf s.cfg.addrBits = true →
    loadBit s.cfg.pos w = true → cmdWrite s.cfg.pos w = false → s.walkEnabled = true →
    bytesAt s (s.cell .dlba) 16 = d1.toBytes s.cfg.descByteOrder →
    bytesAt s d1.next 16 = d2.toBytes s.cfg.descByteOrder → apart s.cfg (s.cell .dlba) 16 d1.next 16 →
    d1.isLast s.cfg.pos = false → d1.effSize s.cfg < (s.cell .bycr).toNat →
    (s.cell .bycr).toNat ≤ d1.effSize s.cfg + d2.effSize s.cfg →
    (cardAfterDispatch s w).dataReady = true →
    let N := (s.cell .bycr).toNat
    let K := d1.effSize s.cfg
    let b1 := d1.base s.cfg
    let b2 := d2.base s.cfg
    N ≤ 2 ^ s.cfg.addrBits → apart s.cfg b1 K (s.cell .dlba) 16 → apart s.cfg b1 K d1.next 16 →
    apart s.cfg b2 (N - K) (s.cell .dlba) 16 → apart s.cfg b2 (N - K) d1.next 16 → apart s.cfg b1 K b2 (N - K) →
    ∃ t, exec (.wrCmdr w) s = .next t ∧ cardBytes t.trace = N + cardBytes s.trace ∧
      cardReads t.trace = ((cardAfterDispatch s w).gives N).reverse ++ cardReads s.trace ∧
      cardWrites t.trace = cardWrites s.trace ∧
      bytesAt t b1 K = (cardAfterDispatch s w).gives K ∧
      bytesAt t b2 (N - K) = ((cardAfterDispatch s w).after K).gives (N - K) ∧
      t.cell .bycr = 0 ∧ t.xfer.toNat = s.xfer.toNat - N ∧
      bytesAt t (s.cell .dlba) 16 = (d1.handedBack s.cfg).toBytes s.cfg.descByteOrder ∧
      bytesAt t d1.next 16 = (d2.handedBack s.cfg).toBytes s.cfg.descByteOrder ∧
      (∀ q, outside s.cfg q (s.cell .dlba) 16 → outside s.cfg q d1.next 16 → outside s.cfg q b1 K →
        outside s.cfg q b2 (N - K) → t.mem.read q = s.mem.read q) ∧
      (t.cell .risr).getLsbD s.cfg.pos.dataComplete = true ∧
      t.cell .idst = setBit (setBit (s.cell .idst) s.cfg.pos.rxDone) s.cfg.pos.rxSummary

/-- For every state and value WR FIFO completes: the card is sent exactly FIFO_BYTES bytes, byte k from bits 8k+7:8k, in
order, and gives none, in every case; with FIFO_BYTES 4, the default, these are v[7:0], v[15:8], v[23:16], v[31:24]
(for any other number the bytes, 0 past bit 31, are the model's choice, log entry 18, DESIGN CHOICE); XFER is less
by FIFO_BYTES clamped at 0; memory, log but for UNIMP_SET, configuration and every cell but RISR and RESP0 to RESP3
are unchanged; unless an auto-stop is due only RISR changes, by DATA_COMPLETE exactly when the new XFER is 0, and
the events are those Card.write_byte calls and one IrqSet. (R311, R313, R109, R310, 00_scope.md R5, log entry 18) -/
def Obligations.FifoWriteSendsFourBytesInOrder : Prop :=
  ∀ (s : State) (v : Word), let sent := (List.range s.cfg.fifoBytes).map (fun k => v.extractLsb' (8 * k) 8)
    ∃ t, exec (.wrFifo v) s = .next t ∧
      cardWrites t.trace = sent.reverse ++ cardWrites s.trace ∧ cardReads t.trace = cardReads s.trace ∧
      (s.cfg.fifoBytes = 4 → cardWrites t.trace = v.extractLsb' 24 8 :: v.extractLsb' 16 8 :: v.extractLsb' 8 8 ::
        v.extractLsb' 0 8 :: cardWrites s.trace) ∧
      t.xfer.toNat = s.xfer.toNat - s.cfg.fifoBytes ∧ t.mem = s.mem ∧ t.cfg = s.cfg ∧ t.inbox = s.inbox ∧
      t.log = s.logAfterWrite .fifo v ∧ s.keepsCells t [.risr, .resp0, .resp1, .resp2, .resp3] ∧
      (autostop s.cfg.pos (s.cell .cmdr) = false ∨ t.xfer ≠ 0 →
        s.keepsCells t [.risr] ∧
        t.cell .risr = (if t.xfer = 0 then setBit (s.cell .risr) s.cfg.pos.dataComplete else s.cell .risr) ∧
        t.card = sent.foldl Card.writeByte s.card ∧
        t.trace = .irqSet t.irqLevel :: ((sent.map ExtEvent.cardWrite).reverse ++ s.trace))

/-- For every state whose card has data ready RD FIFO completes: it takes the card's next FIFO_BYTES bytes, in every
case, and returns, modulo 2^32, the number whose digits to the base 256 they are, the first the lowest; with
FIFO_BYTES 4, the default, that is b0 + b1*2^8 + b2*2^16 + b3*2^24 (for any other number the value, cut to 32 bits,
is the model's choice, log entry 18, DESIGN CHOICE); XFER is less by FIFO_BYTES clamped at 0; memory, log,
configuration and every cell but RISR and RESP0 to RESP3 are unchanged; unless an auto-stop is due only RISR
changes, by DATA_COMPLETE exactly when the new XFER is 0. (R312, R313, R109, 00_scope.md R5, log entry 18) -/
def Obligations.FifoReadReturnsFourBytesLittleEndian : Prop :=
  ∀ s : State, s.card.dataReady = true → let b := s.card.gives s.cfg.fifoBytes
    ∃ t v, exec .rdFifo s = .next t ∧ v.toNat = leNat b % 2 ^ 32 ∧
      (s.cfg.fifoBytes = 4 → v.toNat = (b.getD 0 0).toNat + (b.getD 1 0).toNat * 2 ^ 8 +
        (b.getD 2 0).toNat * 2 ^ 16 + (b.getD 3 0).toNat * 2 ^ 24) ∧
      (∃ es, t.trace = .busRead 4 v :: .irqSet t.irqLevel :: es) ∧
      cardReads t.trace = b.reverse ++ cardReads s.trace ∧ cardWrites t.trace = cardWrites s.trace ∧
      t.xfer.toNat = s.xfer.toNat - s.cfg.fifoBytes ∧ t.mem = s.mem ∧ t.cfg = s.cfg ∧ t.inbox = s.inbox ∧
      t.log = s.log ∧ s.keepsCells t [.risr, .resp0, .resp1, .resp2, .resp3] ∧
      (autostop s.cfg.pos (s.cell .cmdr) = false ∨ t.xfer ≠ 0 →
        s.keepsCells t [.risr] ∧
        t.cell .risr = (if t.xfer = 0 then setBit (s.cell .risr) s.cfg.pos.dataComplete else s.cell .risr) ∧
        t.card = s.card.after s.cfg.fifoBytes)

/-- For every state whose card has no data ready RD FIFO completes with NoData (the offset of FIFO, 0x200 in the default
map) appended to the log and 0 returned after one readiness check; nothing else changes. (R312, R340) -/
def Obligations.FifoReadWithoutDataReadsZero : Prop :=
  ∀ s : State, s.card.dataReady = false →
    exec .rdFifo s = .next { s with
      log := s.log ++ [.noData (s.cfg.offsets.get .fifo)]
      trace := .busRead 4 0 :: .cardDataReady :: s.trace }

/-- For every state with a well-formed configuration, XFER at most FIFO_BYTES (4 in the default configuration, any other
number: log entry 18) and an AUTOSTOP word in CMDR: WR FIFO, and RD FIFO when the card has data ready, complete with
XFER 0, DATA_COMPLETE and AUTOCMD_DONE set, and CMDR, CAGR and every raw status bit but NO_RESPONSE, CMD_COMPLETE,
DATA_COMPLETE and AUTOCMD_DONE unchanged. If the word is no clock change, exactly one command (STOP_CMD_ID, 0) more
reached the card; if it is one, no command did, CMD_COMPLETE is set too, NO_RESPONSE is as before, and no cell but
RISR changed. (R230, R231, R233, R311, R312, R405, log entry 18) -/
def Obligations.FifoAccessThatEndsTheTransferAutoStops : Prop :=
  ∀ (s : State) (v : Word), s.cfg.wf = true → s.xfer.toNat ≤ s.cfg.fifoBytes →
    autostop s.cfg.pos (s.cell .cmdr) = true →
    ∀ i, (i = .wrFifo v ∨ (i = .rdFifo ∧ s.card.dataReady = true)) →
      ∃ t, exec i s = .next t ∧ t.xfer = 0 ∧ (t.cell .risr).getLsbD s.cfg.pos.dataComplete = true ∧
        (t.cell .risr).getLsbD s.cfg.pos.autocmdDone = true ∧
        keepsRawBits s t
          [s.cfg.pos.noResponse, s.cfg.pos.cmdComplete, s.cfg.pos.dataComplete, s.cfg.pos.autocmdDone] ∧
        t.cell .cmdr = s.cell .cmdr ∧ t.cell .cagr = s.cell .cagr ∧
        (clkChange s.cfg.pos (s.cell .cmdr) = false →
          cardCommands t.trace = (s.cfg.stopCmdId, 0) :: cardCommands s.trace) ∧
        (clkChange s.cfg.pos (s.cell .cmdr) = true → cardCommands t.trace = cardCommands s.trace ∧
          (t.cell .risr).getLsbD s.cfg.pos.cmdComplete = true ∧
          (t.cell .risr).getLsbD s.cfg.pos.noResponse = (s.cell .risr).getLsbD s.cfg.pos.noResponse ∧
          s.keepsCells t [.risr])

/-- For every register and value, every state and any two values of UNIMP_SET, the first with the register and the
second without: the write with the first leaves the log of the state with the entry (Unimplemented, register, value)
appended and otherwise exactly what the same write does from that state with the second. That a register of
UNIMP_SET keeps its own write rule, the action and fixed ones included, where R21 would store the value verbatim, is
the model's reading (log entry 14, DEDUCED, from R130 and R344). (R130, R344, R116, R21, log entry 14) -/
def Obligations.UnimplementedIsLoggedAndTheWriteStillRuns : Prop :=
  ∀ (r : Reg) (v : Word) (s : State) (u u' : List Reg), r ∈ u → r ∉ u' →
    ∃ t, exec (wrInstr v r)
        { s with log := s.log ++ [.unimplemented r v], cfg := { s.cfg with unimpSet := u' } } = .next t ∧
      exec (wrInstr v r) { s with cfg := { s.cfg with unimpSet := u } } =
        .next { t with cfg := { t.cfg with unimpSet := u } }

/-- For every state in which the level last set at the sink equals the function of RISR, IMKR and INT_ENB, a step that
answers a next state leaves them equal. (R281, R280, R55) -/
def Obligations.LineSeenBySinkFollowsTheState : Prop :=
  ∀ s t : State, sinkLevel s.trace = s.irqLevel → step s = .next t → sinkLevel t.trace = t.irqLevel

/-- For every state with a well-formed configuration that meets R56 (LOAD and the strobes 0, XFER at most BYCR, no
status bit outside those a rule sets, CARD_INSERT and CARD_REMOVE not both 1, and the reset table of the same form):
if the next input is not a restore of a snapshot that violates them, a step that answers a next state keeps them.
(R56, 00_scope.md R6) -/
def Obligations.RegisterInvariantsAreKept : Prop :=
  ∀ s t : State, s.Inv → restoresOnlyInv s → step s = .next t → t.Inv

/-- For every state whose memory lists rising addresses below 2^ADDR_BITS and no entry equal to the unlisted byte, a
step that answers a next state leaves memory in that form. Addresses are modulo 2^ADDR_BITS; any width but 32 is the
model's choice (log entry 20, DESIGN CHOICE). (00_scope.md R7, R12, 20_memory.md R83, log entry 20) -/
def Obligations.MemoryStaysCanonical : Prop :=
  ∀ s t : State, s.mem.wf s.cfg.addrBits = true → step s = .next t → t.mem.wf t.cfg.addrBits = true

/-- State.reset meets Inv (R56), its memory is canonical, its configuration well-formed, and the sink's level equals the
line. (R56, R53, R383) -/
def Obligations.ResetStateMeetsTheInvariants : Prop :=
  State.reset.Inv ∧ State.reset.mem.wf State.reset.cfg.addrBits = true ∧ State.reset.cfg.wf = true ∧
    sinkLevel State.reset.trace = State.reset.irqLevel

/-- For every state, a step that answers a next state keeps the old log as the beginning of the new one, the old events
as the older events of the new record, and the configuration. (R55, R340, R5) -/
def Obligations.LogAndEventsOnlyGrow : Prop :=
  ∀ s t : State, step s = .next t → s.log <+: t.log ∧ s.trace <:+ t.trace ∧ t.cfg = s.cfg

/-- For every operation, state and other log: exec answers a next state t whose log is the old one with some entries
appended, and from the state with the other log exec answers t with the other log and the same entries appended.
(R340, R55) -/
def Obligations.NoOperationReadsTheLog : Prop :=
  ∀ (i : Instr) (s : State) (l : List Diag), ∃ t ds, exec i s = .next t ∧ t.log = s.log ++ ds ∧
    exec i { s with log := l } = .next { t with log := l ++ ds }

/-- For every operation and state, whatever the card and memory, exec answers a next state (R13). A step never refuses;
that it faults, and only when the next input is no operation, is the model's choice (log entry 13, DESIGN CHOICE).
(R13, log entry 13) -/
def Obligations.EveryOperationEndsInANextState : Prop :=
  (∀ (i : Instr) (s : State), ∃ t, exec i s = .next t) ∧
  (∀ s : State, (∃ t, step s = .next t) ∨
    ∃ inp rest e, s.inbox = inp :: rest ∧ decodeInput s.cfg inp = .error e ∧ step s = .fault (.noOperation e))
end

