-- ==== Sys2Proof/Laws/Decode.lean ====
section
/-! SUPPORT. Laws of the decoder's parts: the register map is one-to-one, the header and the offset fit together, byte
order round-trips, a command word's class in masks (30_encoding.md R111). -/

namespace Sys2Proof

theorem Reg.mem_all (r : Reg) : r ∈ Reg.all := by cases r <;> decide

/-- What R6 says of the register map: multiples of 4 inside the window, all different. -/
theorem Cfg.wf_map {c : Cfg} (h : c.wf = true) :
    (∀ r, (c.offsets.get r).toNat % 4 = 0 ∧ (c.offsets.get r).toNat < c.mmioSize) ∧
    ∀ r r', c.offsets.get r = c.offsets.get r' → r = r' := by
  simp only [Cfg.wf, Cfg.mapWf, Bool.and_eq_true, List.all_eq_true, beq_iff_eq, decide_eq_true_eq] at h
  refine ⟨fun r => h.1.2.1 r r.mem_all, fun r r' e => ?_⟩
  exact List.inj_on_of_nodup_map h.1.2.2 r.mem_all r'.mem_all e

theorem Cfg.wf_stage {c : Cfg} (h : c.wf = true) : 1 ≤ c.stageBytes := by
  simp only [Cfg.wf, Bool.and_eq_true, decide_eq_true_eq] at h
  exact h.1.1

theorem Cfg.wf_pos {c : Cfg} (h : c.wf = true) : c.pos.wf = true := by
  simp only [Cfg.wf, Bool.and_eq_true] at h
  exact h.2

/-- The register found at an offset stands there, inside the window (30_encoding.md R110). -/
theorem regAt_some {c : Cfg} {off : Word} {r : Reg} (h : regAt c off = some r) :
    c.offsets.get r = off ∧ off.toNat < c.mmioSize := by
  unfold regAt at h
  split at h
  · exact ⟨by simpa using List.find?_some h, ‹_›⟩
  · cases h

/-- Each register is found at its own offset (30_encoding.md R110). -/
theorem regAt_offset {c : Cfg} (h : c.wf = true) (r : Reg) : regAt c (c.offsets.get r) = some r := by
  obtain ⟨hm, hi⟩ := Cfg.wf_map h
  unfold regAt
  rw [if_pos (hm r).2]
  cases hf : Reg.all.find? (fun r' => c.offsets.get r' == c.offsets.get r) with
  | none => simpa using List.find?_eq_none.1 hf r r.mem_all
  | some r' => rw [hi r' r (by simpa using List.find?_some hf)]

/-- No register is found where none stands. -/
theorem regAt_none {c : Cfg} {off : Word} (h : ∀ r, c.offsets.get r ≠ off) : regAt c off = none := by
  cases hf : regAt c off with
  | none => rfl
  | some r => exact absurd (regAt_some hf).1 (h r)

theorem legalShape_iff (off : Word) (size : Nat) :
    legalShape off size = true ↔ size = 4 ∧ off.toNat % 4 = 0 := by
  simp [legalShape, accessBytes]

theorem legalShape_offset {c : Cfg} (h : c.wf = true) (r : Reg) : legalShape (c.offsets.get r) accessBytes = true :=
  (legalShape_iff _ _).2 ⟨rfl, ((Cfg.wf_map h).1 r).1⟩

/-- The header and the high offset bits hold the whole offset (R101). -/
theorem offset_of_header (b : Bool) (off : Word) :
    (off.extractLsb' 12 20 ++ (BitVec.ofBool b ++ off.extractLsb' 0 12).extractLsb' 0 12 : Word) = off := by
  apply BitVec.eq_of_getLsbD_eq
  intro i hi
  rw [BitVec.getLsbD_append]
  by_cases h : i < 12
  · rw [if_pos h, BitVec.getLsbD_extractLsb', BitVec.getLsbD_append, BitVec.getLsbD_extractLsb']
    simp [h]
  · rw [if_neg h, BitVec.getLsbD_extractLsb']
    have h1 : i - 12 < 20 := by omega
    have h2 : 12 + (i - 12) = i := by omega
    simp [h1, h2]

/-- Bit 12 of the header is the direction (R101). -/
theorem write_of_header (b : Bool) (off : Word) :
    (BitVec.ofBool b ++ off.extractLsb' 0 12 : BitVec 13).getLsbD 12 = b := by
  rw [BitVec.getLsbD_append]
  simp

/-- A bus transaction decodes by its shape, its offset and its direction (R110). -/
theorem decodeInput_mmioInput (c : Cfg) (b : Bool) (off : Word) (size : Nat) (v : Word) :
    decodeInput c (mmioInput b off size v) = .ok
      (if legalShape off size then
        match regAt c off with
        | some r => if b then wrInstr v r else rdInstr r
        | none => if b then .wrxUnknownOffset off v else .rdxUnknownOffset off
      else if b then .wrxIllegalAccess off size v else .rdxIllegalAccess off size) := by
  simp only [decodeInput, mmioInput, decodeMmio, offset_of_header, write_of_header] <;> rfl

theorem decodeInput_writeInput {c : Cfg} (h : c.wf = true) (r : Reg) (v : Word) :
    decodeInput c (writeInput c r v) = .ok (wrInstr v r) := by
  simp [writeInput, decodeInput_mmioInput, legalShape_offset h, regAt_offset h]

theorem decodeInput_readInput {c : Cfg} (h : c.wf = true) (r : Reg) :
    decodeInput c (readInput c r) = .ok (rdInstr r) := by
  simp [readInput, decodeInput_mmioInput, legalShape_offset h, regAt_offset h]

/-- `le32` inverts `bytes_le32` (00_scope.md R11). -/
theorem le32_bytesLe32 (v : Word) :
    le32 (v.extractLsb' 0 8) (v.extractLsb' 8 8) (v.extractLsb' 16 8) (v.extractLsb' 24 8) = v := by
  apply BitVec.eq_of_getLsbD_eq
  intro i hi
  unfold le32
  simp only [BitVec.getLsbD_append, BitVec.getLsbD_extractLsb']
  by_cases h1 : i < 8
  · simp [h1]
  · by_cases h2 : i < 16
    · have e : i - 8 < 8 := by omega
      have e2 : 8 + (i - 8) = i := by omega
      simp [h1, e, e2]
    · by_cases h3 : i < 24
      · have e : ¬ i - 8 < 8 := by omega
        have e1 : i - 8 - 8 < 8 := by omega
        have e2 : 16 + (i - 8 - 8) = i := by omega
        simp [h1, e, e1, e2]
      · have e : ¬ i - 8 < 8 := by omega
        have e1 : ¬ i - 8 - 8 < 8 := by omega
        have e2 : i - 8 - 8 - 8 < 8 := by omega
        have e3 : 24 + (i - 8 - 8 - 8) = i := by omega
        simp [h1, e, e1, e2, e3]

/-- A descriptor's bytes decode to it, in either byte order (20_memory.md R75). -/
theorem ofBytes_toBytes (o : ByteOrder) (d : Desc) : Desc.ofBytes o (d.toBytes o) = d := by
  have hb (v : Word) : be32 (v.extractLsb' 24 8) (v.extractLsb' 16 8) (v.extractLsb' 8 8) (v.extractLsb' 0 8) = v :=
    le32_bytesLe32 v
  cases d
  cases o <;>
    simp [Desc.ofBytes, Desc.toBytes, ByteOrder.bytes, ByteOrder.word, bytesLe32, le32List, be32At, le32_bytesLe32, hb]

theorem length_toBytes (o : ByteOrder) (d : Desc) : (d.toBytes o).length = descBytes := by cases o <;> rfl

/-- A single bit as a mask. -/
theorem and_bit (w : Word) (n : Nat) (h : n < 32) : (w &&& bit n = bit n) ↔ w.getLsbD n = true := by
  constructor
  · intro e
    have := congrArg (fun x : Word => x.getLsbD n) e
    simpa [bit, BitVec.getLsbD_and, BitVec.getLsbD_twoPow, h] using this
  · intro e
    apply BitVec.eq_of_getLsbD_eq
    intro i _
    simp only [bit, BitVec.getLsbD_and, BitVec.getLsbD_twoPow]
    by_cases hi : n = i
    · subst hi; simp [e]
    · simp [hi]

/-- A word agrees with `m` on the bits of a mask exactly when it does bit by bit. -/
theorem and_eq_iff (w k m : Word) :
    w &&& k = m ↔ ∀ i, i < 32 → (w.getLsbD i && k.getLsbD i) = m.getLsbD i := by
  constructor
  · intro e i _
    rw [← e, BitVec.getLsbD_and]
  · intro h
    apply BitVec.eq_of_getLsbD_eq
    intro i hi
    rw [BitVec.getLsbD_and]
    exact h i hi

end Sys2Proof
end

