-- ==== Sys2Proof/Laws/Flags.lean ====
section
/-! SUPPORT. Bit by bit: setting and clearing a named field, a word under a mask of single bits, the numbers that four
bytes stand for. -/

namespace Sys2Proof

theorem getLsbD_bit (n k : Nat) (hn : n < 32) : (bit n).getLsbD k = decide (n = k) := by
  by_cases h : n = k
  · subst h; simp [bit, hn]
  · simp [bit, BitVec.getLsbD_twoPow, h]

@[simp] theorem getElem_bit (n k : Nat) (hk : k < 32) : (bit n)[k] = decide (n = k) := by
  by_cases h : n = k
  · subst h; simp [bit]
  · simp [bit, h, Ne.symm h]

@[simp] theorem getElem_setBit (v : Word) (n k : Nat) (hk : k < 32) : (setBit v n)[k] = (v[k] || decide (n = k)) := by
  simp [setBit]

@[simp] theorem getElem_clearBit (v : Word) (n k : Nat) (hk : k < 32) :
    (clearBit v n)[k] = (v[k] && !decide (n = k)) := by
  simp [clearBit]

theorem getLsbD_setBit (v : Word) (n k : Nat) (hk : k < 32) :
    (setBit v n).getLsbD k = (v.getLsbD k || decide (n = k)) := by
  simp [hk]

theorem getLsbD_clearBit (v : Word) (n k : Nat) (hk : k < 32) :
    (clearBit v n).getLsbD k = (v.getLsbD k && !decide (n = k)) := by
  simp [hk]

/-- A word under the mask of one bit. -/
theorem and_bit_eq (w : Word) (n : Nat) : w &&& bit n = if w.getLsbD n then bit n else 0 := by
  apply BitVec.eq_of_getLsbD_eq
  intro i hi
  by_cases h : n = i
  · subst h; cases hw : w[n] <;> simp [hi, hw]
  · cases hw : w.getLsbD n <;> simp [hi, h]

/-- Clearing the load bit leaves every other bit (41_command_engine.md R220). -/
theorem getLsbD_clearBit_ne (v : Word) (n k : Nat) (h : n ≠ k) : (clearBit v n).getLsbD k = v.getLsbD k := by
  by_cases hk : k < 32
  · simp [hk, h]
  · rw [BitVec.getLsbD_of_ge _ _ (by omega), BitVec.getLsbD_of_ge _ _ (by omega)]

/-! ### What the well-formedness of the positions says (00_scope.md R6) -/

/-- The named fields of a register lie in its 32 bits and do not overlap. -/
theorem Positions.wf_fields {p : Positions} (h : p.wf = true) :
    ∀ l ∈ p.fieldBits, l.Nodup ∧ ∀ n ∈ l, n < 32 := by
  simpa [Positions.wf] using h

theorem Positions.wf_gctl {p : Positions} (h : p.wf = true) :
    p.softRst < 32 ∧ p.fifoRst < 32 ∧ p.dmaRst < 32 ∧ p.intEnb < 32 ∧ p.dmaEnb < 32 ∧
    (∀ n ∈ [p.intEnb, p.dmaEnb], n ≠ p.softRst ∧ n ≠ p.fifoRst ∧ n ≠ p.dmaRst) := by
  have := wf_fields h [p.softRst, p.fifoRst, p.dmaRst, p.intEnb, p.dmaEnb] (by simp [fieldBits])
  simp only [List.nodup_cons, List.mem_cons, List.not_mem_nil, or_false, not_or, forall_eq_or_imp, forall_eq] at this ⊢
  omega

theorem Positions.wf_cmdr {p : Positions} (h : p.wf = true) :
    p.cmdIdx + 6 ≤ 32 ∧ p.load < 32 ∧ (p.load < p.cmdIdx ∨ p.cmdIdx + 6 ≤ p.load) ∧
    (∀ n ∈ [p.respExp, p.respLong, p.cmdWrite, p.autostop, p.clkChange],
      n < 32 ∧ n ≠ p.load ∧ (n < p.cmdIdx ∨ p.cmdIdx + 6 ≤ n)) := by
  have h0 := wf_fields h _ (List.mem_cons_of_mem _ (List.mem_cons_self ..))
  have hs : ([p.cmdIdx, p.cmdIdx + 1, p.cmdIdx + 2, p.cmdIdx + 3, p.cmdIdx + 4, p.cmdIdx + 5] ++
      ([p.respExp, p.respLong, p.dataExp, p.cmdWrite, p.autostop, p.clkChange] ++ [p.load])).Nodup := h0.1
  have hd := List.disjoint_of_nodup_append hs
  have hl := List.disjoint_of_nodup_append (List.nodup_append.1 hs).2.1
  have hout : ∀ n ∈ [p.respExp, p.respLong, p.dataExp, p.cmdWrite, p.autostop, p.clkChange] ++ [p.load],
      n < p.cmdIdx ∨ p.cmdIdx + 6 ≤ n := by
    intro n hn
    by_contra hc
    have : n = p.cmdIdx ∨ n = p.cmdIdx + 1 ∨ n = p.cmdIdx + 2 ∨ n = p.cmdIdx + 3 ∨ n = p.cmdIdx + 4 ∨
        n = p.cmdIdx + 5 := by omega
    exact hd (by simpa using this) hn
  refine ⟨h0.2 (p.cmdIdx + 5) (by simp), h0.2 p.load (by simp), hout _ (by simp), fun n hn => ?_⟩
  have hn' : n ∈ [p.respExp, p.respLong, p.dataExp, p.cmdWrite, p.autostop, p.clkChange] := by
    simp only [List.mem_cons, List.not_mem_nil, or_false] at hn ⊢
    rcases hn with h | h | h | h | h <;> simp [h]
  exact ⟨h0.2 n (List.mem_append_right _ (List.mem_append_left [p.load] hn') : n ∈ [p.cmdIdx, p.cmdIdx + 1, p.cmdIdx + 2,
    p.cmdIdx + 3, p.cmdIdx + 4, p.cmdIdx + 5] ++ (_ ++ _)),
    fun e => hl hn' (by simp [e]), hout _ (List.mem_append_left _ hn')⟩

theorem Positions.wf_risr {p : Positions} (h : p.wf = true) :
    [p.noResponse, p.cmdComplete, p.dataComplete, p.autocmdDone, p.sdioIntr, p.cardInsert, p.cardRemove].Nodup ∧
    (∀ n ∈ [p.noResponse, p.cmdComplete, p.dataComplete, p.autocmdDone, p.sdioIntr, p.cardInsert, p.cardRemove],
      n < 32) :=
  wf_fields h _ (by simp [fieldBits])

theorem Positions.wf_star {p : Positions} (h : p.wf = true) : p.cardPresent < 32 := by
  simpa using (wf_fields h [p.cardPresent] (by simp [fieldBits])).2

theorem Positions.wf_idst {p : Positions} (h : p.wf = true) :
    [p.txDone, p.rxDone, p.rxSummary].Nodup ∧ ∀ n ∈ [p.txDone, p.rxDone, p.rxSummary], n < 32 :=
  wf_fields h _ (by simp [fieldBits])

theorem Positions.wf_desc {p : Positions} (h : p.wf = true) : p.hold < 32 ∧ p.last < 32 ∧ p.last ≠ p.hold := by
  have := wf_fields h [p.hold, p.error, p.chain, p.first, p.last, p.noIrq] (by simp [fieldBits])
  simp only [List.nodup_cons, List.mem_cons, List.not_mem_nil, or_false, not_or, forall_eq_or_imp, forall_eq] at this
  omega

/-! ### Numbers of bytes -/

/-- Stream bytes come from the word, eight bits at a time (30_encoding.md R109). -/
theorem streamBytes_eq (n : Nat) (v : Word) :
    streamBytes n v = (List.range n).map (fun k => v.extractLsb' (8 * k) 8) := by
  induction n generalizing v with
  | zero => rfl
  | succ n ih =>
    rw [List.range_succ_eq_map, List.map_cons, List.map_map, streamBytes, ih]
    congr 1
    apply List.map_congr_left
    intro k _
    apply BitVec.eq_of_getLsbD_eq
    intro i hi
    simp only [Function.comp, BitVec.getLsbD_extractLsb', BitVec.getLsbD_ushiftRight, hi, decide_true, Bool.true_and]
    congr 1
    omega

/-- The word of stream bytes, as a number (30_encoding.md R109). -/
theorem toNat_streamWord_cons (b : Byte) (rest : List Byte) :
    (streamWord (b :: rest)).toNat = (b.toNat + 2 ^ 8 * (streamWord rest).toNat) % 2 ^ 32 := by
  have hb := b.isLt
  simp only [streamWord, BitVec.toNat_or, BitVec.toNat_setWidth, BitVec.toNat_shiftLeft, Nat.shiftLeft_eq]
  rw [Nat.mod_eq_of_lt (show b.toNat < 2 ^ 32 by omega)]
  have e : (streamWord rest).toNat * 2 ^ 8 % 2 ^ 32 = 2 ^ 8 * ((streamWord rest).toNat % 2 ^ 24) := by
    rw [Nat.mul_comm, show (2 : Nat) ^ 32 = 2 ^ 8 * 2 ^ 24 by norm_num, Nat.mul_mod_mul_left]
  rw [e, Nat.or_comm, ← Nat.two_pow_add_eq_or_of_lt hb]
  omega

/-- `be32` as a number (00_scope.md R11). -/
theorem toNat_be32 (b0 b1 b2 b3 : Byte) :
    (be32 b0 b1 b2 b3).toNat = b0.toNat * 2 ^ 24 + b1.toNat * 2 ^ 16 + b2.toNat * 2 ^ 8 + b3.toNat := by
  have h0 := b0.isLt
  have h1 := b1.isLt
  have h2 := b2.isLt
  have h3 := b3.isLt
  unfold be32
  rw [BitVec.toNat_append, BitVec.toNat_append, BitVec.toNat_append, Nat.shiftLeft_eq, Nat.shiftLeft_eq,
    Nat.shiftLeft_eq]
  rw [Nat.mul_comm b0.toNat, ← Nat.two_pow_add_eq_or_of_lt (by omega)]
  rw [Nat.mul_comm _ (2 ^ 8), ← Nat.two_pow_add_eq_or_of_lt (by omega)]
  rw [Nat.mul_comm _ (2 ^ 8), ← Nat.two_pow_add_eq_or_of_lt (by omega)]
  omega

/-- `le32` as a number (00_scope.md R11). -/
theorem toNat_le32 (b0 b1 b2 b3 : Byte) :
    (le32 b0 b1 b2 b3).toNat = b0.toNat + b1.toNat * 2 ^ 8 + b2.toNat * 2 ^ 16 + b3.toNat * 2 ^ 24 := by
  have h : le32 b0 b1 b2 b3 = be32 b3 b2 b1 b0 := rfl
  rw [h, toNat_be32]
  omega

end Sys2Proof
end

