-- ==== Sys2Proof/Laws/Memory.lean ====
section
/-! SUPPORT. Laws of external memory: read after write, the frame of a write, and that every operation keeps the canonical
form. Addresses are taken modulo `2^bits`. -/

namespace Sys2Proof.Machine

namespace Memory

theorem wfFrom_mono {bits lo lo' : Nat} {m : Memory} (h : lo' ≤ lo) (hm : wfFrom bits lo m = true) : wfFrom bits lo' m = true := by
  cases m with
  | nil => rfl
  | cons kb rest =>
    obtain ⟨k, b⟩ := kb
    simp only [wfFrom, Bool.and_eq_true, decide_eq_true_eq] at hm ⊢
    exact ⟨⟨⟨by omega, hm.1.1.2⟩, hm.1.2⟩, hm.2⟩

/-- Below its first address a canonical memory reads as unlisted. -/
theorem read_below {bits lo : Nat} {m : Memory} (hm : wfFrom bits lo m = true) {a : Nat} (ha : a < lo) :
    read m a = unlisted := by
  induction m generalizing lo with
  | nil => rfl
  | cons kb rest ih =>
    obtain ⟨k, b⟩ := kb
    simp only [wfFrom, Bool.and_eq_true, decide_eq_true_eq] at hm
    have : a ≠ k := by omega
    simp only [read, if_neg this]
    exact ih hm.2 (by omega)

theorem wfFrom_write {bits lo : Nat} {m : Memory} (hm : wfFrom bits lo m = true) {a : Nat} (ha : lo ≤ a) (ha' : a < 2 ^ bits)
    (v : Byte) : wfFrom bits lo (write m a v) = true := by
  induction m generalizing lo with
  | nil =>
    by_cases hv : v = unlisted
    · simp [write, hv, wfFrom]
    · simp [write, hv, wfFrom, ha]
      omega
  | cons kb rest ih =>
    obtain ⟨k, b⟩ := kb
    have hm' := hm
    simp only [wfFrom, Bool.and_eq_true, decide_eq_true_eq] at hm
    obtain ⟨⟨⟨h1, h2⟩, h3⟩, h4⟩ := hm
    unfold write
    by_cases hak : a < k
    · by_cases hv : v = unlisted
      · simpa [hak, hv] using hm'
      · have hk : a + 1 ≤ k := hak
        simp only [hak, hv, if_true, if_false, wfFrom, Bool.and_eq_true, decide_eq_true_eq, bne_iff_ne, ne_eq,
          not_false_eq_true, and_true]
        exact ⟨⟨ha, ha'⟩, ⟨⟨hk, h2⟩, by simpa using h3⟩, h4⟩
    · by_cases hk : a = k
      · subst hk
        by_cases hv : v = unlisted
        · simp only [hv, if_true, lt_irrefl, if_false]
          exact wfFrom_mono (by omega) h4
        · simp only [hv, if_true, lt_irrefl, if_false, wfFrom, Bool.and_eq_true, decide_eq_true_eq, bne_iff_ne, ne_eq,
            not_false_eq_true, and_true]
          exact ⟨⟨ha, ha'⟩, h4⟩
      · simp only [hak, hk, if_false, wfFrom, Bool.and_eq_true, decide_eq_true_eq]
        exact ⟨⟨⟨h1, h2⟩, h3⟩, ih h4 (by omega)⟩

theorem read_write_same {bits lo : Nat} {m : Memory} (hm : wfFrom bits lo m = true) (a : Nat) (v : Byte) :
    read (write m a v) a = v := by
  induction m generalizing lo with
  | nil =>
    by_cases hv : v = unlisted
    · simp [write, hv, read]
    · simp [write, hv, read]
  | cons kb rest ih =>
    obtain ⟨k, b⟩ := kb
    have hm' := hm
    simp only [wfFrom, Bool.and_eq_true, decide_eq_true_eq] at hm
    unfold write
    by_cases hak : a < k
    · by_cases hv : v = unlisted
      · have hb := read_below hm.2 (show a < k + 1 by omega)
        have : a ≠ k := by omega
        simp [hak, hv, read, this, hb]
      · simp [hak, hv, read]
    · by_cases hk : a = k
      · subst hk
        by_cases hv : v = unlisted
        · have hb := read_below hm.2 (Nat.lt_succ_self a)
          simp [hv, hb]
        · simp [hv, read]
      · simp only [hak, hk, if_false, read]
        exact ih hm.2

theorem read_write_ne (m : Memory) {a a' : Nat} (h : a' ≠ a) (v : Byte) : read (write m a v) a' = read m a' := by
  induction m with
  | nil =>
    by_cases hv : v = unlisted
    · simp [write, hv]
    · simp [write, hv, read, h]
  | cons kb rest ih =>
    obtain ⟨k, b⟩ := kb
    unfold write
    by_cases hak : a < k
    · by_cases hv : v = unlisted
      · simp [hak, hv]
      · simp [hak, hv, read, h]
    · by_cases hk : a = k
      · subst hk
        by_cases hv : v = unlisted
        · simp [hv, read, h]
        · simp [hv, read, h]
      · simp only [hak, hk, if_false, read, ih]

/-- A write keeps the canonical form. -/
theorem wf_write {bits : Nat} {m : Memory} (hm : wf bits m = true) (a : Nat) (v : Byte) :
    wf bits (write m (a % 2 ^ bits) v) = true :=
  wfFrom_write hm (Nat.zero_le _) (Nat.mod_lt _ (Nat.two_pow_pos bits)) v

/-- `MemWrite` keeps the canonical form. -/
theorem wf_writeBytes {bits : Nat} {m : Memory} (hm : wf bits m = true) (a : Nat) (s : List Byte) :
    wf bits (writeBytes bits m a s) = true := by
  induction s generalizing m a with
  | nil => exact hm
  | cons b rest ih => exact ih (wf_write hm a b) (a + 1)

/-- `MemWrite` leaves every byte outside its range as it was. -/
theorem read_writeBytes_outside (bits : Nat) (m : Memory) (a : Nat) (s : List Byte) (q : Nat)
    (h : ∀ k, k < s.length → q ≠ (a + k) % 2 ^ bits) : read (writeBytes bits m a s) q = read m q := by
  induction s generalizing m a with
  | nil => rfl
  | cons b rest ih =>
    have hrest : ∀ k, k < rest.length → q ≠ (a + 1 + k) % 2 ^ bits := by
      intro k hk
      have := h (k + 1) (by simpa using hk)
      rwa [show a + (k + 1) = a + 1 + k by omega] at this
    rw [writeBytes, ih _ _ hrest, read_write_ne]
    simpa using h 0 (by simp)

theorem readBytes_length (bits : Nat) (m : Memory) (a n : Nat) : (readBytes bits m a n).length = n := by
  induction n generalizing a with
  | zero => rfl
  | succ n ih => simp [readBytes, ih]

/-- What `MemRead` gives depends only on the bytes in its range. -/
theorem readBytes_congr (bits : Nat) (m m' : Memory) (a n : Nat)
    (h : ∀ k, k < n → read m ((a + k) % 2 ^ bits) = read m' ((a + k) % 2 ^ bits)) :
    readBytes bits m a n = readBytes bits m' a n := by
  induction n generalizing a with
  | zero => rfl
  | succ n ih =>
    simp only [readBytes, List.cons.injEq]
    refine ⟨h 0 (by omega), ih _ fun k hk => ?_⟩
    rw [show a + 1 + k = a + (k + 1) by omega]
    exact h (k + 1) (by omega)

theorem readBytes_add (bits : Nat) (m : Memory) (a n k : Nat) :
    readBytes bits m a (n + k) = readBytes bits m a n ++ readBytes bits m (a + n) k := by
  induction n generalizing a with
  | zero => simp [readBytes]
  | succ n ih =>
    rw [Nat.succ_add]
    simp only [readBytes, ih, List.cons_append, show a + 1 + n = a + (n + 1) by omega]

/-- Two bytes of one range that fits in the address space stand at different addresses. -/
theorem addr_ne {M a j k : Nat} (hj : j < M) (hk : k < M) (h : j ≠ k) : (a + j) % M ≠ (a + k) % M := by
  intro e
  have e' : j % M = k % M := Nat.ModEq.add_left_cancel' a e
  rw [Nat.mod_eq_of_lt hj, Nat.mod_eq_of_lt hk] at e'
  exact h e'

/-- `MemRead` of what `MemWrite` has just stored gives it back, for ranges that fit in the address space. -/
theorem readBytes_writeBytes {bits : Nat} {m : Memory} (hm : wf bits m = true) (a : Nat) (s : List Byte)
    (hs : s.length ≤ 2 ^ bits) : readBytes bits (writeBytes bits m a s) a s.length = s := by
  induction s generalizing m a with
  | nil => rfl
  | cons b rest ih =>
    simp only [List.length_cons] at hs
    simp only [List.length_cons, readBytes, writeBytes, List.cons.injEq]
    constructor
    · rw [read_writeBytes_outside, read_write_same hm]
      intro k hk
      have := addr_ne (a := a) (show 0 < 2 ^ bits by omega) (show k + 1 < 2 ^ bits by omega) (by omega)
      rwa [show a + 1 + k = a + (k + 1) by omega]
    · exact ih (wf_write hm a b) (a + 1) (by omega)

end Memory

end Sys2Proof.Machine
end

