-- ==== Sys2Proof/Laws/State.lean ====
section
/-! SUPPORT. One lemma per field per update of the state, so that no later proof unfolds a record update. -/

namespace Sys2Proof

theorem Regs.get_set (x : Regs) (c c' : Cell) (v : Word) :
    (x.set v c).get c' = if c' = c then v else x.get c' := by
  cases c <;> cases c' <;> rfl

/-- Two register files that agree on every cell are equal. -/
theorem Regs.ext_get (x y : Regs) (h : ∀ c, x.get c = y.get c) : x = y := by
  cases x
  cases y
  simp only [Regs.mk.injEq]
  exact ⟨h .gctl, h .ckcr, h .tmor, h .bwdr, h .bksr, h .bycr, h .cmdr, h .cagr, h .resp0, h .resp1, h .resp2, h .resp3, h .imkr, h .risr, h .star, h .fwlr, h .funs, h .dbgc, h .a12a, h .ntsr, h .sdbg, h .hwrst, h .dmac, h .dlba, h .idst, h .idie, h .thldc, h .dsbd⟩

end Sys2Proof

namespace Sys2Proof.Machine

variable (s : State)

@[simp] theorem State.cfg_setCell (c : Cell) (v : Word) : (s.setCell c v).cfg = s.cfg := rfl
@[simp] theorem State.xfer_setCell (c : Cell) (v : Word) : (s.setCell c v).xfer = s.xfer := rfl
@[simp] theorem State.log_setCell (c : Cell) (v : Word) : (s.setCell c v).log = s.log := rfl
@[simp] theorem State.card_setCell (c : Cell) (v : Word) : (s.setCell c v).card = s.card := rfl
@[simp] theorem State.mem_setCell (c : Cell) (v : Word) : (s.setCell c v).mem = s.mem := rfl
@[simp] theorem State.trace_setCell (c : Cell) (v : Word) : (s.setCell c v).trace = s.trace := rfl
@[simp] theorem State.inbox_setCell (c : Cell) (v : Word) : (s.setCell c v).inbox = s.inbox := rfl
@[simp] theorem State.cell_setCell (c : Cell) (v : Word) (c' : Cell) : (s.setCell c v).cell c' = (if c' = c then v else s.cell c') := by
  simp [State.cell, State.setCell, Regs.get_set]

@[simp] theorem State.cfg_setXfer (v : Word) : (s.setXfer v).cfg = s.cfg := rfl
@[simp] theorem State.xfer_setXfer (v : Word) : (s.setXfer v).xfer = v := rfl
@[simp] theorem State.log_setXfer (v : Word) : (s.setXfer v).log = s.log := rfl
@[simp] theorem State.card_setXfer (v : Word) : (s.setXfer v).card = s.card := rfl
@[simp] theorem State.mem_setXfer (v : Word) : (s.setXfer v).mem = s.mem := rfl
@[simp] theorem State.trace_setXfer (v : Word) : (s.setXfer v).trace = s.trace := rfl
@[simp] theorem State.inbox_setXfer (v : Word) : (s.setXfer v).inbox = s.inbox := rfl
@[simp] theorem State.cell_setXfer (v : Word) (c' : Cell) : (s.setXfer v).cell c' = s.cell c' := rfl

@[simp] theorem State.cfg_emit (e : ExtEvent) : (s.emit e).cfg = s.cfg := rfl
@[simp] theorem State.xfer_emit (e : ExtEvent) : (s.emit e).xfer = s.xfer := rfl
@[simp] theorem State.log_emit (e : ExtEvent) : (s.emit e).log = s.log := rfl
@[simp] theorem State.card_emit (e : ExtEvent) : (s.emit e).card = s.card := rfl
@[simp] theorem State.mem_emit (e : ExtEvent) : (s.emit e).mem = s.mem := rfl
@[simp] theorem State.trace_emit (e : ExtEvent) : (s.emit e).trace = e :: s.trace := rfl
@[simp] theorem State.inbox_emit (e : ExtEvent) : (s.emit e).inbox = s.inbox := rfl
@[simp] theorem State.cell_emit (e : ExtEvent) (c' : Cell) : (s.emit e).cell c' = s.cell c' := rfl

@[simp] theorem State.cfg_raise (d : Diag) : (s.raise d).cfg = s.cfg := rfl
@[simp] theorem State.xfer_raise (d : Diag) : (s.raise d).xfer = s.xfer := rfl
@[simp] theorem State.log_raise (d : Diag) : (s.raise d).log = s.log ++ [d] := rfl
@[simp] theorem State.card_raise (d : Diag) : (s.raise d).card = s.card := rfl
@[simp] theorem State.mem_raise (d : Diag) : (s.raise d).mem = s.mem := rfl
@[simp] theorem State.trace_raise (d : Diag) : (s.raise d).trace = s.trace := rfl
@[simp] theorem State.inbox_raise (d : Diag) : (s.raise d).inbox = s.inbox := rfl
@[simp] theorem State.cell_raise (d : Diag) (c' : Cell) : (s.raise d).cell c' = s.cell c' := rfl

@[simp] theorem State.cfg_setRisr (n : Nat) : (s.setRisr n).cfg = s.cfg := rfl
@[simp] theorem State.xfer_setRisr (n : Nat) : (s.setRisr n).xfer = s.xfer := rfl
@[simp] theorem State.log_setRisr (n : Nat) : (s.setRisr n).log = s.log := rfl
@[simp] theorem State.card_setRisr (n : Nat) : (s.setRisr n).card = s.card := rfl
@[simp] theorem State.mem_setRisr (n : Nat) : (s.setRisr n).mem = s.mem := rfl
@[simp] theorem State.trace_setRisr (n : Nat) : (s.setRisr n).trace = s.trace := rfl
@[simp] theorem State.inbox_setRisr (n : Nat) : (s.setRisr n).inbox = s.inbox := rfl
@[simp] theorem State.cell_setRisr (n : Nat) (c' : Cell) : (s.setRisr n).cell c' = (if c' = .risr then setBit (s.cell .risr) n else s.cell c') := by
  simp [State.cell, State.setRisr, State.setCell, Regs.get_set]

@[simp] theorem State.cfg_busReturn (n : Nat) (v : Word) : (s.busReturn n v).cfg = s.cfg := rfl
@[simp] theorem State.xfer_busReturn (n : Nat) (v : Word) : (s.busReturn n v).xfer = s.xfer := rfl
@[simp] theorem State.log_busReturn (n : Nat) (v : Word) : (s.busReturn n v).log = s.log := rfl
@[simp] theorem State.card_busReturn (n : Nat) (v : Word) : (s.busReturn n v).card = s.card := rfl
@[simp] theorem State.mem_busReturn (n : Nat) (v : Word) : (s.busReturn n v).mem = s.mem := rfl
@[simp] theorem State.trace_busReturn (n : Nat) (v : Word) : (s.busReturn n v).trace = .busRead n v :: s.trace := rfl
@[simp] theorem State.inbox_busReturn (n : Nat) (v : Word) : (s.busReturn n v).inbox = s.inbox := rfl
@[simp] theorem State.cell_busReturn (n : Nat) (v : Word) (c' : Cell) : (s.busReturn n v).cell c' = s.cell c' := rfl

@[simp] theorem State.cfg_irqUpdate : s.irqUpdate.cfg = s.cfg := rfl
@[simp] theorem State.xfer_irqUpdate : s.irqUpdate.xfer = s.xfer := rfl
@[simp] theorem State.log_irqUpdate : s.irqUpdate.log = s.log := rfl
@[simp] theorem State.card_irqUpdate : s.irqUpdate.card = s.card := rfl
@[simp] theorem State.mem_irqUpdate : s.irqUpdate.mem = s.mem := rfl
@[simp] theorem State.trace_irqUpdate : s.irqUpdate.trace = .irqSet s.irqLevel :: s.trace := rfl
@[simp] theorem State.inbox_irqUpdate : s.irqUpdate.inbox = s.inbox := rfl
@[simp] theorem State.cell_irqUpdate (c' : Cell) : s.irqUpdate.cell c' = s.cell c' := rfl

@[simp] theorem State.cfg_dmaControlLine : s.dmaControlLine.cfg = s.cfg := by unfold dmaControlLine; split <;> rfl
@[simp] theorem State.xfer_dmaControlLine : s.dmaControlLine.xfer = s.xfer := by unfold dmaControlLine; split <;> rfl
@[simp] theorem State.log_dmaControlLine : s.dmaControlLine.log = s.log := by unfold dmaControlLine; split <;> rfl
@[simp] theorem State.card_dmaControlLine : s.dmaControlLine.card = s.card := by unfold dmaControlLine; split <;> rfl
@[simp] theorem State.mem_dmaControlLine : s.dmaControlLine.mem = s.mem := by unfold dmaControlLine; split <;> rfl
@[simp] theorem State.inbox_dmaControlLine : s.dmaControlLine.inbox = s.inbox := by unfold dmaControlLine; split <;> rfl
@[simp] theorem State.trace_dmaControlLine : s.dmaControlLine.trace =
    (if s.cfg.dmaControlDrivesLine then [.irqSet s.irqLevel] else []) ++ s.trace := by unfold dmaControlLine; split <;> rfl
@[simp] theorem State.cell_dmaControlLine (c' : Cell) : s.dmaControlLine.cell c' = s.cell c' := by
  unfold dmaControlLine; split <;> rfl

@[simp] theorem State.cfg_acknowledge (v : Word) : (s.acknowledge v).cfg = s.cfg := rfl
@[simp] theorem State.xfer_acknowledge (v : Word) : (s.acknowledge v).xfer = s.xfer := rfl
@[simp] theorem State.log_acknowledge (v : Word) : (s.acknowledge v).log = s.log := rfl
@[simp] theorem State.card_acknowledge (v : Word) : (s.acknowledge v).card = s.card := rfl
@[simp] theorem State.mem_acknowledge (v : Word) : (s.acknowledge v).mem = s.mem := rfl
@[simp] theorem State.trace_acknowledge (v : Word) : (s.acknowledge v).trace = s.trace := rfl
@[simp] theorem State.inbox_acknowledge (v : Word) : (s.acknowledge v).inbox = s.inbox := rfl
@[simp] theorem State.cell_acknowledge (v : Word) (c' : Cell) : (s.acknowledge v).cell c' = (if c' = .risr then s.cell .risr &&& ~~~v else s.cell c') := by
  simp [State.cell, State.acknowledge, State.setCell, Regs.get_set]

@[simp] theorem State.cfg_memRead (a n : Nat) : (s.memRead a n).2.cfg = s.cfg := rfl
@[simp] theorem State.xfer_memRead (a n : Nat) : (s.memRead a n).2.xfer = s.xfer := rfl
@[simp] theorem State.log_memRead (a n : Nat) : (s.memRead a n).2.log = s.log := rfl
@[simp] theorem State.card_memRead (a n : Nat) : (s.memRead a n).2.card = s.card := rfl
@[simp] theorem State.mem_memRead (a n : Nat) : (s.memRead a n).2.mem = s.mem := rfl
@[simp] theorem State.trace_memRead (a n : Nat) : (s.memRead a n).2.trace = .memRead (a % 2 ^ s.cfg.addrBits) n :: s.trace := rfl
@[simp] theorem State.inbox_memRead (a n : Nat) : (s.memRead a n).2.inbox = s.inbox := rfl
@[simp] theorem State.cell_memRead (a n : Nat) (c' : Cell) : (s.memRead a n).2.cell c' = s.cell c' := rfl

@[simp] theorem State.cfg_memWrite (a : Nat) (b : List Byte) : (s.memWrite a b).cfg = s.cfg := rfl
@[simp] theorem State.xfer_memWrite (a : Nat) (b : List Byte) : (s.memWrite a b).xfer = s.xfer := rfl
@[simp] theorem State.log_memWrite (a : Nat) (b : List Byte) : (s.memWrite a b).log = s.log := rfl
@[simp] theorem State.card_memWrite (a : Nat) (b : List Byte) : (s.memWrite a b).card = s.card := rfl
@[simp] theorem State.mem_memWrite (a : Nat) (b : List Byte) : (s.memWrite a b).mem = s.mem.writeBytes s.cfg.addrBits a b := rfl
@[simp] theorem State.trace_memWrite (a : Nat) (b : List Byte) : (s.memWrite a b).trace = .memWrite (a % 2 ^ s.cfg.addrBits) b :: s.trace := rfl
@[simp] theorem State.inbox_memWrite (a : Nat) (b : List Byte) : (s.memWrite a b).inbox = s.inbox := rfl
@[simp] theorem State.cell_memWrite (a : Nat) (b : List Byte) (c' : Cell) : (s.memWrite a b).cell c' = s.cell c' := rfl

@[simp] theorem State.cfg_cardIssue (id : BitVec 6) (arg : Word) : (s.cardIssue id arg).2.cfg = s.cfg := rfl
@[simp] theorem State.xfer_cardIssue (id : BitVec 6) (arg : Word) : (s.cardIssue id arg).2.xfer = s.xfer := rfl
@[simp] theorem State.log_cardIssue (id : BitVec 6) (arg : Word) : (s.cardIssue id arg).2.log = s.log := rfl
@[simp] theorem State.card_cardIssue (id : BitVec 6) (arg : Word) : (s.cardIssue id arg).2.card = (s.card.issue id arg).2 := rfl
@[simp] theorem State.mem_cardIssue (id : BitVec 6) (arg : Word) : (s.cardIssue id arg).2.mem = s.mem := rfl
@[simp] theorem State.trace_cardIssue (id : BitVec 6) (arg : Word) : (s.cardIssue id arg).2.trace = .cardIssue id arg :: s.trace := rfl
@[simp] theorem State.inbox_cardIssue (id : BitVec 6) (arg : Word) : (s.cardIssue id arg).2.inbox = s.inbox := rfl
@[simp] theorem State.cell_cardIssue (id : BitVec 6) (arg : Word) (c' : Cell) : (s.cardIssue id arg).2.cell c' = s.cell c' := rfl

@[simp] theorem State.cfg_cardDataReady : s.cardDataReady.2.cfg = s.cfg := rfl
@[simp] theorem State.xfer_cardDataReady : s.cardDataReady.2.xfer = s.xfer := rfl
@[simp] theorem State.log_cardDataReady : s.cardDataReady.2.log = s.log := rfl
@[simp] theorem State.card_cardDataReady : s.cardDataReady.2.card = s.card := rfl
@[simp] theorem State.mem_cardDataReady : s.cardDataReady.2.mem = s.mem := rfl
@[simp] theorem State.trace_cardDataReady : s.cardDataReady.2.trace = .cardDataReady :: s.trace := rfl
@[simp] theorem State.inbox_cardDataReady : s.cardDataReady.2.inbox = s.inbox := rfl
@[simp] theorem State.cell_cardDataReady (c' : Cell) : s.cardDataReady.2.cell c' = s.cell c' := rfl

@[simp] theorem State.cfg_cardReadByte : s.cardReadByte.2.cfg = s.cfg := rfl
@[simp] theorem State.xfer_cardReadByte : s.cardReadByte.2.xfer = s.xfer := rfl
@[simp] theorem State.log_cardReadByte : s.cardReadByte.2.log = s.log := rfl
@[simp] theorem State.card_cardReadByte : s.cardReadByte.2.card = s.card.readByte.2 := rfl
@[simp] theorem State.mem_cardReadByte : s.cardReadByte.2.mem = s.mem := rfl
@[simp] theorem State.trace_cardReadByte : s.cardReadByte.2.trace = .cardRead s.card.readByte.1 :: s.trace := rfl
@[simp] theorem State.inbox_cardReadByte : s.cardReadByte.2.inbox = s.inbox := rfl
@[simp] theorem State.cell_cardReadByte (c' : Cell) : s.cardReadByte.2.cell c' = s.cell c' := rfl

@[simp] theorem State.cfg_cardWriteByte (b : Byte) : (s.cardWriteByte b).cfg = s.cfg := rfl
@[simp] theorem State.xfer_cardWriteByte (b : Byte) : (s.cardWriteByte b).xfer = s.xfer := rfl
@[simp] theorem State.log_cardWriteByte (b : Byte) : (s.cardWriteByte b).log = s.log := rfl
@[simp] theorem State.card_cardWriteByte (b : Byte) : (s.cardWriteByte b).card = s.card.writeByte b := rfl
@[simp] theorem State.mem_cardWriteByte (b : Byte) : (s.cardWriteByte b).mem = s.mem := rfl
@[simp] theorem State.trace_cardWriteByte (b : Byte) : (s.cardWriteByte b).trace = .cardWrite b :: s.trace := rfl
@[simp] theorem State.inbox_cardWriteByte (b : Byte) : (s.cardWriteByte b).inbox = s.inbox := rfl
@[simp] theorem State.cell_cardWriteByte (b : Byte) (c' : Cell) : (s.cardWriteByte b).cell c' = s.cell c' := rfl

@[simp] theorem State.memRead_fst (a n : Nat) : (s.memRead a n).1 = s.mem.readBytes s.cfg.addrBits a n := rfl
@[simp] theorem State.cardIssue_fst (id : BitVec 6) (arg : Word) :
    (s.cardIssue id arg).1 = (s.card.issue id arg).1 := rfl
@[simp] theorem State.cardDataReady_fst : s.cardDataReady.1 = s.card.dataReady := rfl
@[simp] theorem State.cardReadByte_fst : s.cardReadByte.1 = s.card.readByte.1 := rfl

@[simp] theorem State.cfg_noteWrite (r : Reg) (v : Word) : (s.noteWrite r v).cfg = s.cfg := by
  unfold State.noteWrite; split <;> rfl
@[simp] theorem State.xfer_noteWrite (r : Reg) (v : Word) : (s.noteWrite r v).xfer = s.xfer := by
  unfold State.noteWrite; split <;> rfl
@[simp] theorem State.card_noteWrite (r : Reg) (v : Word) : (s.noteWrite r v).card = s.card := by
  unfold State.noteWrite; split <;> rfl
@[simp] theorem State.mem_noteWrite (r : Reg) (v : Word) : (s.noteWrite r v).mem = s.mem := by
  unfold State.noteWrite; split <;> rfl
@[simp] theorem State.trace_noteWrite (r : Reg) (v : Word) : (s.noteWrite r v).trace = s.trace := by
  unfold State.noteWrite; split <;> rfl
@[simp] theorem State.inbox_noteWrite (r : Reg) (v : Word) : (s.noteWrite r v).inbox = s.inbox := by
  unfold State.noteWrite; split <;> rfl
@[simp] theorem State.cell_noteWrite (r : Reg) (v : Word) (c' : Cell) : (s.noteWrite r v).cell c' = s.cell c' := by
  unfold State.noteWrite; split <;> rfl
@[simp] theorem State.log_noteWrite (r : Reg) (v : Word) :
    (s.noteWrite r v).log = s.logAfterWrite r v := by
  unfold State.noteWrite State.logAfterWrite; split <;> rfl

@[simp] theorem State.irqLevel_setXfer (v : Word) : (s.setXfer v).irqLevel = s.irqLevel := rfl
@[simp] theorem State.irqLevel_emit (e : ExtEvent) : (s.emit e).irqLevel = s.irqLevel := rfl
@[simp] theorem State.irqLevel_raise (d : Diag) : (s.raise d).irqLevel = s.irqLevel := rfl
@[simp] theorem State.irqLevel_busReturn (n : Nat) (v : Word) : (s.busReturn n v).irqLevel = s.irqLevel := rfl
@[simp] theorem State.irqLevel_irqUpdate : s.irqUpdate.irqLevel = s.irqLevel := rfl
@[simp] theorem State.irqLevel_dmaControlLine : s.dmaControlLine.irqLevel = s.irqLevel := by
  unfold dmaControlLine; split <;> rfl
@[simp] theorem State.irqLevel_memRead (a n : Nat) : (s.memRead a n).2.irqLevel = s.irqLevel := rfl
@[simp] theorem State.irqLevel_memWrite (a : Nat) (b : List Byte) : (s.memWrite a b).irqLevel = s.irqLevel := rfl
@[simp] theorem State.irqLevel_cardIssue (id : BitVec 6) (arg : Word) : (s.cardIssue id arg).2.irqLevel = s.irqLevel := rfl
@[simp] theorem State.irqLevel_cardDataReady : s.cardDataReady.2.irqLevel = s.irqLevel := rfl
@[simp] theorem State.irqLevel_cardReadByte : s.cardReadByte.2.irqLevel = s.irqLevel := rfl
@[simp] theorem State.irqLevel_cardWriteByte (b : Byte) : (s.cardWriteByte b).irqLevel = s.irqLevel := rfl
@[simp] theorem State.irqLevel_noteWrite (r : Reg) (v : Word) : (s.noteWrite r v).irqLevel = s.irqLevel := by
  simp [State.irqLevel]

/-- The line reads three cells, at the configured positions, and nothing else (43_interrupt_coalescer.md R280). -/
theorem State.irqLevel_congr (s t : State) (h0 : t.cfg = s.cfg) (h1 : t.cell .gctl = s.cell .gctl)
    (h2 : t.cell .risr = s.cell .risr) (h3 : t.cell .imkr = s.cell .imkr) : t.irqLevel = s.irqLevel := by
  simp [State.irqLevel, h0, h1, h2, h3]

/-- Two states with equal fields are equal. -/
theorem State.ext_fields (s t : State) (h1 : s.cfg = t.cfg) (h2 : ∀ c, s.cell c = t.cell c) (h3 : s.xfer = t.xfer)
    (h4 : s.log = t.log) (h5 : s.card = t.card) (h6 : s.mem = t.mem) (h7 : s.trace = t.trace)
    (h8 : s.inbox = t.inbox) : s = t := by
  have hx : s.x = t.x := Regs.ext_get _ _ h2
  cases s
  cases t
  simp_all

/-! ### The calls of the card in the record of events -/

@[simp] theorem cardCalls_nil : cardCalls [] = [] := rfl
@[simp] theorem cardCalls_cardIssue (id : BitVec 6) (arg : Word) (es : List ExtEvent) :
    cardCalls (ExtEvent.cardIssue id arg :: es) = (ExtEvent.cardIssue id arg) :: cardCalls es := rfl
@[simp] theorem cardCalls_cardDataReady (es : List ExtEvent) :
    cardCalls (ExtEvent.cardDataReady :: es) = ExtEvent.cardDataReady :: cardCalls es := rfl
@[simp] theorem cardCalls_cardRead (b : Byte) (es : List ExtEvent) :
    cardCalls (ExtEvent.cardRead b :: es) = (ExtEvent.cardRead b) :: cardCalls es := rfl
@[simp] theorem cardCalls_cardWrite (b : Byte) (es : List ExtEvent) :
    cardCalls (ExtEvent.cardWrite b :: es) = (ExtEvent.cardWrite b) :: cardCalls es := rfl
@[simp] theorem cardCalls_memRead (a n : Nat) (es : List ExtEvent) :
    cardCalls (ExtEvent.memRead a n :: es) = cardCalls es := rfl
@[simp] theorem cardCalls_memWrite (a : Nat) (b : List Byte) (es : List ExtEvent) :
    cardCalls (ExtEvent.memWrite a b :: es) = cardCalls es := rfl
@[simp] theorem cardCalls_irqSet (l : Bool) (es : List ExtEvent) :
    cardCalls (ExtEvent.irqSet l :: es) = cardCalls es := rfl
@[simp] theorem cardCalls_busRead (n : Nat) (v : Word) (es : List ExtEvent) :
    cardCalls (ExtEvent.busRead n v :: es) = cardCalls es := rfl
@[simp] theorem cardCalls_saved (x : Snapshot) (b : List Byte) (es : List ExtEvent) :
    cardCalls (ExtEvent.saved x b :: es) = cardCalls es := rfl

end Sys2Proof.Machine
end

