-- ==== Sys2Proof/Laws/Engine.lean ====
section
/-! SUPPORT. One spec lemma per shared operation of the engines: what it leaves alone (`Frame`), what it counts, where it
writes memory. -/

namespace Sys2Proof.Machine

/-- From `s` to `t` only the cells of `but`, `XFER`, the card, memory and new events changed. -/
structure Frame (s t : State) (but : List Cell) : Prop where
  cfg : t.cfg = s.cfg
  inbox : t.inbox = s.inbox
  log : t.log = s.log
  cells : s.keepsCells t but
  trace : s.trace <:+ t.trace

theorem Frame.refl (s : State) (but : List Cell) : Frame s s but :=
  ⟨rfl, rfl, rfl, fun _ _ => rfl, List.suffix_refl _⟩

theorem Frame.trans {s t u : State} {but : List Cell} (h : Frame s t but) (h' : Frame t u but) : Frame s u but :=
  ⟨h'.cfg.trans h.cfg, h'.inbox.trans h.inbox, h'.log.trans h.log,
    fun c hc => (h'.cells c hc).trans (h.cells c hc), h.trace.trans h'.trace⟩

theorem Frame.mono {s t : State} {but but' : List Cell} (h : Frame s t but) (hs : but ⊆ but') : Frame s t but' :=
  ⟨h.cfg, h.inbox, h.log, fun c hc => h.cells c (fun hb => hc (hs hb)), h.trace⟩

theorem frame_setCell (s : State) (c : Cell) (v : Word) : Frame s (s.setCell c v) [c] :=
  ⟨rfl, rfl, rfl, fun c' hc => by simp at hc; simp [hc], List.suffix_refl _⟩

theorem frame_setXfer (s : State) (v : Word) : Frame s (s.setXfer v) [] :=
  ⟨rfl, rfl, rfl, fun _ _ => rfl, List.suffix_refl _⟩

theorem frame_emit (s : State) (e : ExtEvent) : Frame s (s.emit e) [] :=
  ⟨rfl, rfl, rfl, fun _ _ => rfl, List.suffix_cons _ _⟩

theorem frame_setRisr (s : State) (n : Nat) : Frame s (s.setRisr n) [.risr] := frame_setCell _ _ _

theorem frame_irqUpdate (s : State) : Frame s s.irqUpdate [] := frame_emit _ _

theorem frame_dmaControlLine (s : State) : Frame s s.dmaControlLine [] := by
  unfold State.dmaControlLine; split
  · exact frame_irqUpdate s
  · exact Frame.refl s []

theorem frame_memWrite (s : State) (a : Nat) (b : List Byte) : Frame s (s.memWrite a b) [] :=
  ⟨rfl, rfl, rfl, fun _ _ => rfl, List.suffix_cons _ _⟩

theorem frame_cardIssue (s : State) (id : BitVec 6) (arg : Word) : Frame s (s.cardIssue id arg).2 [] :=
  ⟨rfl, rfl, rfl, fun _ _ => rfl, List.suffix_cons _ _⟩

theorem frame_cardReadByte (s : State) : Frame s s.cardReadByte.2 [] :=
  ⟨rfl, rfl, rfl, fun _ _ => rfl, List.suffix_cons _ _⟩

theorem frame_cardWriteByte (s : State) (b : Byte) : Frame s (s.cardWriteByte b) [] :=
  ⟨rfl, rfl, rfl, fun _ _ => rfl, List.suffix_cons _ _⟩

/-! ### Bytes to and from the card -/

theorem frame_sendBytes (s : State) (b : List Byte) : Frame s (s.sendBytes b) [] := by
  induction b generalizing s with
  | nil => exact Frame.refl _ _
  | cons x rest ih => exact (frame_cardWriteByte s x).trans (ih _)

@[simp] theorem xfer_sendBytes (s : State) (b : List Byte) : (s.sendBytes b).xfer = s.xfer := by
  induction b generalizing s with
  | nil => rfl
  | cons x rest ih => exact (ih _).trans rfl

@[simp] theorem mem_sendBytes (s : State) (b : List Byte) : (s.sendBytes b).mem = s.mem := by
  induction b generalizing s with
  | nil => rfl
  | cons x rest ih => exact (ih _).trans rfl

/-- The events of sending bytes: one `Card.write_byte` a byte, in order. -/
theorem trace_sendBytes (s : State) (b : List Byte) :
    (s.sendBytes b).trace = (b.map ExtEvent.cardWrite).reverse ++ s.trace := by
  induction b generalizing s with
  | nil => rfl
  | cons x rest ih => simp [State.sendBytes, ih]

theorem cardBytes_sendBytes (s : State) (b : List Byte) :
    cardBytes (s.sendBytes b).trace = b.length + cardBytes s.trace := by
  induction b generalizing s with
  | nil => simp [State.sendBytes]
  | cons x rest ih => simp [State.sendBytes, ih, cardBytes]; omega

theorem frame_takeBytes (s : State) (n : Nat) : Frame s (s.takeBytes n).2 [] := by
  induction n generalizing s with
  | zero => exact Frame.refl _ _
  | succ n ih => exact (frame_cardReadByte s).trans (ih _)

@[simp] theorem xfer_takeBytes (s : State) (n : Nat) : (s.takeBytes n).2.xfer = s.xfer := by
  induction n generalizing s with
  | zero => rfl
  | succ n ih => exact (ih _).trans rfl

@[simp] theorem mem_takeBytes (s : State) (n : Nat) : (s.takeBytes n).2.mem = s.mem := by
  induction n generalizing s with
  | zero => rfl
  | succ n ih => exact (ih _).trans rfl

@[simp] theorem length_takeBytes (s : State) (n : Nat) : (s.takeBytes n).1.length = n := by
  induction n generalizing s with
  | zero => rfl
  | succ n ih => simp [State.takeBytes, ih]

/-- The events of taking bytes: one `Card.read_byte` a byte, in order. -/
theorem trace_takeBytes (s : State) (n : Nat) :
    (s.takeBytes n).2.trace = ((s.takeBytes n).1.map ExtEvent.cardRead).reverse ++ s.trace := by
  induction n generalizing s with
  | zero => rfl
  | succ n ih => simp [State.takeBytes, ih]

theorem cardBytes_takeBytes (s : State) (n : Nat) :
    cardBytes (s.takeBytes n).2.trace = n + cardBytes s.trace := by
  induction n generalizing s with
  | zero => simp [State.takeBytes]
  | succ n ih => simp [State.takeBytes, ih, cardBytes]; omega

/-! ### The data movement of a chunk -/

theorem frame_movePiece (s : State) (wr : Bool) (a m : Nat) : Frame s (s.movePiece wr a m) [] := by
  cases wr with
  | true => exact (frame_emit s _).trans (frame_sendBytes _ _)
  | false => exact (frame_takeBytes s m).trans (frame_memWrite _ _ _)

@[simp] theorem xfer_movePiece (s : State) (wr : Bool) (a m : Nat) : (s.movePiece wr a m).xfer = s.xfer := by
  cases wr <;> simp [State.movePiece]

theorem cardBytes_movePiece (s : State) (wr : Bool) (a m : Nat) :
    cardBytes (s.movePiece wr a m).trace = m + cardBytes s.trace := by
  cases wr with
  | true => simp [State.movePiece, cardBytes_sendBytes, Memory.readBytes_length, cardBytes]
  | false => simp [State.movePiece, cardBytes, cardBytes_takeBytes]

theorem mem_movePiece_true (s : State) (a m : Nat) : (s.movePiece true a m).mem = s.mem := by
  simp [State.movePiece]

theorem memWf_movePiece {s : State} (h : s.mem.wf s.cfg.addrBits = true) (wr : Bool) (a m : Nat) :
    (s.movePiece wr a m).mem.wf s.cfg.addrBits = true := by
  cases wr with
  | true => simpa [State.movePiece] using h
  | false => simpa [State.movePiece, (frame_takeBytes s m).cfg] using Memory.wf_writeBytes h a _

/-- A piece changes memory only inside itself, and only in the read direction. -/
theorem read_movePiece_outside (s : State) (wr : Bool) (a m q : Nat)
    (h : wr = true ∨ ∀ k, k < m → q ≠ (a + k) % 2 ^ s.cfg.addrBits) :
    (s.movePiece wr a m).mem.read q = s.mem.read q := by
  cases wr with
  | true => simp [State.movePiece]
  | false =>
    simp only [State.movePiece, Bool.false_eq_true, if_false, State.mem_memWrite, mem_takeBytes,
      (frame_takeBytes s m).cfg]
    exact Memory.read_writeBytes_outside _ _ _ _ _ (by simpa using h)

theorem frame_movePieces (s : State) (wr : Bool) (base n done fuel : Nat) :
    Frame s (s.movePieces wr base n done fuel) [] := by
  induction fuel generalizing s done with
  | zero => exact Frame.refl _ _
  | succ fuel ih =>
    unfold State.movePieces
    split
    · exact (frame_movePiece s wr _ _).trans (ih _ _)
    · exact Frame.refl _ _

@[simp] theorem xfer_movePieces (s : State) (wr : Bool) (base n done fuel : Nat) :
    (s.movePieces wr base n done fuel).xfer = s.xfer := by
  induction fuel generalizing s done with
  | zero => rfl
  | succ fuel ih => unfold State.movePieces; split <;> simp [ih]

theorem cardBytes_movePieces (s : State) (wr : Bool) (base n done fuel : Nat) (hc : 1 ≤ s.cfg.stageBytes)
    (hf : n - done ≤ fuel) :
    cardBytes (s.movePieces wr base n done fuel).trace = (n - done) + cardBytes s.trace := by
  induction fuel generalizing s done with
  | zero => simp [State.movePieces]; omega
  | succ fuel ih =>
    unfold State.movePieces
    split
    · rw [ih _ _ (by rw [(frame_movePiece s wr _ _).cfg]; exact hc) (by omega), cardBytes_movePiece]
      omega
    · omega

theorem mem_movePieces_true (s : State) (base n done fuel : Nat) :
    (s.movePieces true base n done fuel).mem = s.mem := by
  induction fuel generalizing s done with
  | zero => rfl
  | succ fuel ih => unfold State.movePieces; split <;> simp [ih, mem_movePiece_true]

theorem memWf_movePieces {s : State} (h : s.mem.wf s.cfg.addrBits = true) (wr : Bool) (base n done fuel : Nat) :
    (s.movePieces wr base n done fuel).mem.wf s.cfg.addrBits = true := by
  induction fuel generalizing s done with
  | zero => exact h
  | succ fuel ih =>
    unfold State.movePieces
    split
    · have hc := (frame_movePiece s wr (base + done) (min s.cfg.stageBytes (n - done))).cfg
      have := ih (s := s.movePiece wr (base + done) (min s.cfg.stageBytes (n - done)))
        (by rw [hc]; exact memWf_movePiece h wr _ _) (done + min s.cfg.stageBytes (n - done))
      rwa [hc] at this
    · exact h

/-- A chunk changes memory only inside its buffer, and only in the read direction. -/
theorem read_movePieces_outside (s : State) (wr : Bool) (base n done fuel q : Nat)
    (h : wr = true ∨ ∀ k, done ≤ k → k < n → q ≠ (base + k) % 2 ^ s.cfg.addrBits) :
    (s.movePieces wr base n done fuel).mem.read q = s.mem.read q := by
  induction fuel generalizing s done with
  | zero => rfl
  | succ fuel ih =>
    unfold State.movePieces
    split
    · rw [ih _ _ (by rw [(frame_movePiece s wr _ _).cfg]; exact h.imp id (fun h k hk => h k (by omega))),
        read_movePiece_outside]
      refine h.imp id (fun h k hk => ?_)
      rw [Nat.add_assoc]
      exact h (done + k) (by omega) (by omega)
    · rfl

/-! ### One descriptor -/

theorem frame_moveChunk (s : State) (wr : Bool) (base n : Nat) : Frame s (s.moveChunk wr base n) [] :=
  frame_movePieces _ _ _ _ _ _

@[simp] theorem xfer_moveChunk (s : State) (wr : Bool) (base n : Nat) :
    (s.moveChunk wr base n).xfer = s.xfer := xfer_movePieces _ _ _ _ _ _

theorem frame_processDesc (s : State) (wr : Bool) (dptr : Word) (d : Desc) :
    Frame s (s.processDesc wr dptr d) [.bycr] := by
  have h1 := frame_moveChunk s wr (d.base s.cfg).toNat (d.chunk s.cfg (s.cell .bycr))
  have h2 := frame_memWrite (s.moveChunk wr (d.base s.cfg).toNat (d.chunk s.cfg (s.cell .bycr))) dptr.toNat
    ((d.handedBack s.cfg).toBytes s.cfg.descByteOrder)
  exact (((h1.trans h2).mono (List.nil_subset _)).trans ((frame_setXfer _ _).mono (List.nil_subset _))).trans
    (frame_setCell _ _ _)

/-- The chunk never exceeds the outstanding request (42_dma_engine.md R256). -/
theorem chunk_le (c : Cfg) (d : Desc) (b : Word) : d.chunk c b ≤ b.toNat := Nat.min_le_right _ _

theorem effSize_pos (c : Cfg) (d : Desc) : 1 ≤ d.effSize c := by
  unfold Desc.effSize descMaxSize
  split
  · omega
  · rename_i h
    have : d.size.toNat ≠ 0 := fun e => h (BitVec.eq_of_toNat_eq e)
    split <;> omega

/-- The chunk holds at least one byte while anything is outstanding (42_dma_engine.md R256). -/
theorem chunk_pos (c : Cfg) (d : Desc) {b : Word} (hb : b ≠ 0) : 1 ≤ d.chunk c b := by
  have h1 := effSize_pos c d
  have h2 : b.toNat ≠ 0 := fun e => hb (BitVec.eq_of_toNat_eq e)
  unfold Desc.chunk
  omega

theorem bycr_moveChunk (s : State) (wr : Bool) (base n : Nat) (c : Cell) :
    (s.moveChunk wr base n).cell c = s.cell c := (frame_moveChunk s wr base n).cells c (by simp)

/-- `BYCR` after a descriptor (42_dma_engine.md R261). -/
theorem bycr_processDesc (s : State) (wr : Bool) (dptr : Word) (d : Desc) :
    ((s.processDesc wr dptr d).cell .bycr).toNat = (s.cell .bycr).toNat - d.chunk s.cfg (s.cell .bycr) := by
  have h := chunk_le s.cfg d (s.cell .bycr)
  have h2 := (s.cell .bycr).isLt
  simp only [State.processDesc, State.countDown, State.cell_setCell, if_true, State.cell_setXfer, State.cell_memWrite,
    bycr_moveChunk, BitVec.toNat_sub, BitVec.toNat_ofNat]
  omega

/-- `XFER` after a descriptor (42_dma_engine.md R261). -/
theorem xfer_processDesc (s : State) (wr : Bool) (dptr : Word) (d : Desc) :
    (s.processDesc wr dptr d).xfer = satSub s.xfer (d.chunk s.cfg (s.cell .bycr)) := by
  simp [State.processDesc, State.countDown]

theorem cardBytes_processDesc (s : State) (wr : Bool) (dptr : Word) (d : Desc) (hc : 1 ≤ s.cfg.stageBytes) :
    cardBytes (s.processDesc wr dptr d).trace = d.chunk s.cfg (s.cell .bycr) + cardBytes s.trace := by
  simp only [State.processDesc, State.countDown, State.trace_setCell, State.trace_setXfer, State.trace_memWrite,
    cardBytes, State.moveChunk]
  rw [cardBytes_movePieces _ _ _ _ _ _ hc (by omega)]
  simp

theorem memWf_processDesc {s : State} (h : s.mem.wf s.cfg.addrBits = true) (wr : Bool) (dptr : Word) (d : Desc) :
    (s.processDesc wr dptr d).mem.wf s.cfg.addrBits = true := by
  simpa [State.processDesc, State.countDown, State.moveChunk, (frame_movePieces s wr _ _ _ _).cfg] using
    Memory.wf_writeBytes (memWf_movePieces h wr _ _ _ _) dptr.toNat _

/-- A descriptor's step changes memory only in the descriptor and, in the read direction, in its buffer. -/
theorem read_processDesc_outside (s : State) (wr : Bool) (dptr : Word) (d : Desc) (q : Nat)
    (h1 : ∀ k, k < descBytes → q ≠ s.cfg.byteAddr dptr k)
    (h2 : wr = true ∨ ∀ k, k < d.chunk s.cfg (s.cell .bycr) → q ≠ s.cfg.byteAddr (d.base s.cfg) k) :
    (s.processDesc wr dptr d).mem.read q = s.mem.read q := by
  simp only [State.processDesc, State.countDown, State.mem_setCell, State.mem_setXfer, State.mem_memWrite,
    (frame_moveChunk s wr _ _).cfg]
  rw [Memory.read_writeBytes_outside _ _ _ _ _ (by rw [length_toBytes]; exact h1)]
  exact read_movePieces_outside _ _ _ _ _ _ _ (h2.imp id (fun h k _ hk => h k hk))

/-- The write-back: after a descriptor's step its 16 bytes hold it with `HOLD` cleared (42_dma_engine.md R260). -/
theorem readBytes_processDesc {s : State} (h : s.mem.wf s.cfg.addrBits = true) (hf : descBytes ≤ 2 ^ s.cfg.addrBits)
    (wr : Bool) (dptr : Word) (d : Desc) :
    (s.processDesc wr dptr d).mem.readBytes s.cfg.addrBits dptr.toNat descBytes =
      (d.handedBack s.cfg).toBytes s.cfg.descByteOrder := by
  simp only [State.processDesc, State.countDown, State.mem_setCell, State.mem_setXfer, State.mem_memWrite,
    (frame_moveChunk s wr _ _).cfg]
  have := Memory.readBytes_writeBytes (memWf_movePieces h wr (d.base s.cfg).toNat (d.chunk s.cfg (s.cell .bycr)) 0
    (d.chunk s.cfg (s.cell .bycr))) dptr.toNat ((d.handedBack s.cfg).toBytes s.cfg.descByteOrder)
    (by rw [length_toBytes]; exact hf)
  rwa [length_toBytes] at this

/-! ### The walk -/

theorem frame_fetchDesc (s : State) (dptr : Word) : Frame s (s.fetchDesc dptr).2 [] := frame_emit _ _

theorem frame_walkLoop (s : State) (wr : Bool) (dptr : Word) (fuel : Nat) :
    Frame s (s.walkLoop wr dptr fuel) [.bycr] := by
  induction fuel generalizing s dptr with
  | zero => exact Frame.refl _ _
  | succ fuel ih =>
    have h := ((frame_fetchDesc s dptr).mono (List.nil_subset _)).trans
      (frame_processDesc (s.fetchDesc dptr).2 wr dptr (s.fetchDesc dptr).1)
    unfold State.walkLoop
    dsimp only
    split
    · exact h
    · exact h.trans (ih _ _)

theorem memWf_walkLoop {s : State} (h : s.mem.wf s.cfg.addrBits = true) (wr : Bool) (dptr : Word) (fuel : Nat) :
    (s.walkLoop wr dptr fuel).mem.wf s.cfg.addrBits = true := by
  induction fuel generalizing s dptr with
  | zero => exact h
  | succ fuel ih =>
    have h1 := memWf_processDesc (s := (s.fetchDesc dptr).2) h wr dptr (s.fetchDesc dptr).1
    have hc := (frame_processDesc (s.fetchDesc dptr).2 wr dptr (s.fetchDesc dptr).1).cfg
    unfold State.walkLoop
    dsimp only
    split
    · exact h1
    · have := ih (s := (s.fetchDesc dptr).2.processDesc wr dptr (s.fetchDesc dptr).1) (by rw [hc]; exact h1)
        (s.fetchDesc dptr).1.next
      rwa [hc] at this

/-- More fuel than the outstanding request changes nothing: a walk ends by itself (42_dma_engine.md R262). -/
theorem walkLoop_fuel (s : State) (wr : Bool) (dptr : Word) (f f' : Nat) (hb : s.cell .bycr ≠ 0)
    (hf : (s.cell .bycr).toNat ≤ f) (hf' : (s.cell .bycr).toNat ≤ f') :
    s.walkLoop wr dptr f = s.walkLoop wr dptr f' := by
  induction f generalizing s dptr f' with
  | zero =>
    exact absurd (BitVec.eq_of_toNat_eq (by simpa using hf)) hb
  | succ f ih =>
    have hpos : (s.cell .bycr).toNat ≠ 0 := fun e => hb (BitVec.eq_of_toNat_eq e)
    obtain ⟨g, rfl⟩ : ∃ g, f' = g + 1 := ⟨f' - 1, by omega⟩
    unfold State.walkLoop
    dsimp only
    have hc : (s.fetchDesc dptr).2.cell .bycr = s.cell .bycr := rfl
    have h1 := bycr_processDesc (s.fetchDesc dptr).2 wr dptr (s.fetchDesc dptr).1
    have h2 := chunk_pos (s.fetchDesc dptr).2.cfg (s.fetchDesc dptr).1 (b := (s.fetchDesc dptr).2.cell .bycr)
      (by rw [hc]; exact hb)
    rw [hc] at h1 h2
    split
    · rfl
    · rename_i hn
      simp only [Bool.or_eq_true, beq_iff_eq, not_or] at hn
      exact ih _ _ _ hn.2 (by omega) (by omega)

theorem toNat_satSub (a : Word) (n : Nat) : (satSub a n).toNat = a.toNat - n := by
  have := a.isLt
  simp only [satSub, BitVec.toNat_ofNat]
  omega

/-- Saturating subtraction by parts is one by the sum (42_dma_engine.md R265 (ii)). -/
theorem satSub_satSub (a : Word) (m n : Nat) : satSub (satSub a m) n = satSub a (m + n) := by
  apply BitVec.eq_of_toNat_eq
  simp only [toNat_satSub]
  omega

/-- The counters of a loop: it moves some `M` bytes, `1 ≤ M ≤ B`, each counted once in `BYCR`, in `XFER` (clamped) and on
the card's side (42_dma_engine.md R265 (i) to (iii)). -/
theorem walkLoop_counts (s : State) (wr : Bool) (dptr : Word) (fuel : Nat) (hc : 1 ≤ s.cfg.stageBytes)
    (hb : s.cell .bycr ≠ 0) (hf : (s.cell .bycr).toNat ≤ fuel) :
    ∃ M, 1 ≤ M ∧ M ≤ (s.cell .bycr).toNat ∧
      ((s.walkLoop wr dptr fuel).cell .bycr).toNat = (s.cell .bycr).toNat - M ∧
      (s.walkLoop wr dptr fuel).xfer = satSub s.xfer M ∧
      cardBytes (s.walkLoop wr dptr fuel).trace = M + cardBytes s.trace := by
  induction fuel generalizing s dptr with
  | zero => exact absurd (BitVec.eq_of_toNat_eq (by simpa using hf)) hb
  | succ fuel ih =>
    unfold State.walkLoop
    dsimp only
    generalize hF : s.fetchDesc dptr = f
    have hcfg : f.2.cfg = s.cfg := by rw [← hF]; rfl
    have hbc : f.2.cell .bycr = s.cell .bycr := by rw [← hF]; rfl
    have hx : f.2.xfer = s.xfer := by rw [← hF]; rfl
    have ht : cardBytes f.2.trace = cardBytes s.trace := by rw [← hF]; rfl
    have h1 := bycr_processDesc f.2 wr dptr f.1
    have h2 := xfer_processDesc f.2 wr dptr f.1
    have h3 := cardBytes_processDesc f.2 wr dptr f.1 (by rw [hcfg]; exact hc)
    have h4 := (frame_processDesc f.2 wr dptr f.1).cfg
    have hp := chunk_pos s.cfg f.1 hb
    have hl := chunk_le s.cfg f.1 (s.cell .bycr)
    rw [hbc, hcfg] at h1 h2 h3
    rw [hx] at h2
    rw [ht] at h3
    split
    · exact ⟨_, hp, hl, h1, h2, h3⟩
    · rename_i hn
      simp only [Bool.or_eq_true, beq_iff_eq, not_or] at hn
      obtain ⟨M, m1, m2, m3, m4, m5⟩ := ih (f.2.processDesc wr dptr f.1) f.1.next
        (by rw [h4, hcfg]; exact hc) hn.2 (by omega)
      refine ⟨f.1.chunk s.cfg (s.cell .bycr) + M, by omega, by omega, by omega, ?_, by omega⟩
      rw [m4, h2, satSub_satSub]

theorem frame_walkComplete (s : State) (wr : Bool) : Frame s (s.walkComplete wr) [.risr, .idst] := by
  have h := ((frame_setRisr s s.cfg.pos.dataComplete).trans (frame_setRisr _ s.cfg.pos.autocmdDone)).mono
    (but' := [.risr, .idst]) (by simp)
  unfold State.walkComplete
  dsimp only
  split
  · exact h.trans ((frame_setCell _ _ _).mono (by simp))
  · exact h.trans ((frame_setCell _ _ _).mono (by simp))

@[simp] theorem xfer_walkComplete (s : State) (wr : Bool) : (s.walkComplete wr).xfer = s.xfer := by
  cases wr <;> rfl
@[simp] theorem mem_walkComplete (s : State) (wr : Bool) : (s.walkComplete wr).mem = s.mem := by
  cases wr <;> rfl
@[simp] theorem card_walkComplete (s : State) (wr : Bool) : (s.walkComplete wr).card = s.card := by
  cases wr <;> rfl
@[simp] theorem trace_walkComplete (s : State) (wr : Bool) : (s.walkComplete wr).trace = s.trace := by
  cases wr <;> rfl

/-- `RISR` at a walk's end (42_dma_engine.md R263). -/
theorem risr_walkComplete (s : State) (wr : Bool) :
    (s.walkComplete wr).cell .risr =
      setBit (setBit (s.cell .risr) s.cfg.pos.dataComplete) s.cfg.pos.autocmdDone := by
  cases wr <;> simp [State.walkComplete]

/-- `IDST` at a walk's end (42_dma_engine.md R263). -/
theorem idst_walkComplete (s : State) (wr : Bool) :
    (s.walkComplete wr).cell .idst =
      if wr then setBit (s.cell .idst) s.cfg.pos.txDone
      else setBit (setBit (s.cell .idst) s.cfg.pos.rxDone) s.cfg.pos.rxSummary := by
  cases wr <;> simp [State.walkComplete]

theorem frame_walk (s : State) (wr : Bool) : Frame s (s.walk wr) [.bycr, .risr, .idst] :=
  ((frame_walkLoop s wr _ _).mono (by simp)).trans ((frame_walkComplete _ _).mono (by simp))

theorem memWf_walk {s : State} (h : s.mem.wf s.cfg.addrBits = true) (wr : Bool) : (s.walk wr).mem.wf s.cfg.addrBits = true := by
  simpa [State.walk] using memWf_walkLoop h wr _ _

/-- What `DmaWalk()` can be: nothing, a readiness check that found nothing, or a walk (42_dma_engine.md R250, R252). -/
theorem dmaWalk_cases (s : State) :
    (s.walkEnabled = false ∧ s.dmaWalk = s) ∨
    (s.walkEnabled = true ∧ cmdWrite s.cfg.pos (s.cell .cmdr) = true ∧ s.dmaWalk = s.walk true) ∨
    (s.walkEnabled = true ∧ cmdWrite s.cfg.pos (s.cell .cmdr) = false ∧ s.card.dataReady = true ∧
      s.dmaWalk = s.cardDataReady.2.walk false) ∨
    (s.walkEnabled = true ∧ cmdWrite s.cfg.pos (s.cell .cmdr) = false ∧ s.card.dataReady = false ∧
      s.dmaWalk = s.cardDataReady.2) := by
  unfold State.dmaWalk
  cases hE : s.walkEnabled <;> cases hW : cmdWrite s.cfg.pos (s.cell .cmdr) <;> cases hR : s.card.dataReady <;> simp [hR]

theorem frame_dmaWalk (s : State) : Frame s s.dmaWalk [.bycr, .risr, .idst] := by
  obtain ⟨_, h⟩ | ⟨_, _, h⟩ | ⟨_, _, _, h⟩ | ⟨_, _, _, h⟩ := dmaWalk_cases s <;> rw [h]
  · exact Frame.refl _ _
  · exact frame_walk _ _
  · exact ((frame_emit s _).mono (by simp)).trans (frame_walk _ _)
  · exact (frame_emit s _).mono (by simp)

theorem memWf_dmaWalk {s : State} (hm : s.mem.wf s.cfg.addrBits = true) : s.dmaWalk.mem.wf s.cfg.addrBits = true := by
  obtain ⟨_, h⟩ | ⟨_, _, h⟩ | ⟨_, _, _, h⟩ | ⟨_, _, _, h⟩ := dmaWalk_cases s <;> rw [h]
  · exact hm
  · exact memWf_walk hm _
  · exact memWf_walk (s := s.cardDataReady.2) hm _
  · exact hm

/-! ### The Command Engine -/

/-- The cells a dispatch may write. -/
def dispatchCells : List Cell := [.resp0, .resp1, .resp2, .resp3, .risr]

theorem frame_settle (s : State) (r : CmdResult) : Frame s (s.settle r) dispatchCells := by
  cases r with
  | failed => exact (frame_setRisr s _).mono (by simp [dispatchCells])
  | done => exact (frame_setRisr s _).mono (by simp [dispatchCells])
  | captured w0 w1 w2 w3 =>
    exact (((((frame_setCell s .resp0 w0).mono (by simp [dispatchCells])).trans
      ((frame_setCell _ .resp1 w1).mono (by simp [dispatchCells]))).trans
      ((frame_setCell _ .resp2 w2).mono (by simp [dispatchCells]))).trans
      ((frame_setCell _ .resp3 w3).mono (by simp [dispatchCells]))).trans
      ((frame_setRisr _ _).mono (by simp [dispatchCells]))

@[simp] theorem xfer_settle (s : State) (r : CmdResult) : (s.settle r).xfer = s.xfer := by cases r <;> rfl
@[simp] theorem mem_settle (s : State) (r : CmdResult) : (s.settle r).mem = s.mem := by cases r <;> rfl
@[simp] theorem card_settle (s : State) (r : CmdResult) : (s.settle r).card = s.card := by cases r <;> rfl
@[simp] theorem trace_settle (s : State) (r : CmdResult) : (s.settle r).trace = s.trace := by cases r <;> rfl

theorem frame_dispatch (s : State) (w arg : Word) : Frame s (s.dispatch w arg) dispatchCells := by
  unfold State.dispatch
  split
  · exact (frame_setRisr s _).mono (by simp [dispatchCells])
  · exact ((frame_cardIssue s _ _).mono (by simp)).trans (frame_settle _ _)

@[simp] theorem xfer_dispatch (s : State) (w arg : Word) : (s.dispatch w arg).xfer = s.xfer := by
  unfold State.dispatch; split <;> simp
@[simp] theorem mem_dispatch (s : State) (w arg : Word) : (s.dispatch w arg).mem = s.mem := by
  unfold State.dispatch; split <;> simp

/-- A dispatch only sets bits of `RISR`, one of `CMD_COMPLETE` and `NO_RESPONSE` (41_command_engine.md R222, R229). -/
theorem risr_dispatch (s : State) (w arg : Word) :
    (s.dispatch w arg).cell .risr = setBit (s.cell .risr) s.cfg.pos.cmdComplete ∨
    (s.dispatch w arg).cell .risr = setBit (s.cell .risr) s.cfg.pos.noResponse := by
  unfold State.dispatch
  split
  · simp
  · dsimp only
    cases cmdResult s.cfg.pos w (s.cardIssue (cmdIdx s.cfg.pos w) arg).1 <;> simp [State.settle]

theorem autoStopCheck_cases (s : State) :
    (¬(autostop s.cfg.pos (s.cell .cmdr) = true ∧ s.xfer = 0) ∧ s.autoStopCheck = s) ∨
    (autostop s.cfg.pos (s.cell .cmdr) = true ∧ s.xfer = 0 ∧
      s.autoStopCheck = (s.dispatch (stopWord s.cfg (s.cell .cmdr)) 0).setRisr s.cfg.pos.autocmdDone) := by
  unfold State.autoStopCheck
  by_cases h : autostop s.cfg.pos (s.cell .cmdr) = true ∧ s.xfer = 0
  · exact .inr ⟨h.1, h.2, if_pos h⟩
  · exact .inl ⟨h, if_neg h⟩

theorem frame_autoStopCheck (s : State) : Frame s s.autoStopCheck dispatchCells := by
  obtain ⟨_, h⟩ | ⟨_, _, h⟩ := autoStopCheck_cases s <;> rw [h]
  · exact Frame.refl _ _
  · exact (frame_dispatch _ _ _).trans ((frame_setRisr _ _).mono (by simp [dispatchCells]))

@[simp] theorem xfer_autoStopCheck (s : State) : s.autoStopCheck.xfer = s.xfer := by
  obtain ⟨_, h⟩ | ⟨_, _, h⟩ := autoStopCheck_cases s <;> simp [h]
@[simp] theorem mem_autoStopCheck (s : State) : s.autoStopCheck.mem = s.mem := by
  obtain ⟨_, h⟩ | ⟨_, _, h⟩ := autoStopCheck_cases s <;> simp [h]

/-- The cells a loaded command word may write after its latch. -/
def commandCells : List Cell := [.resp0, .resp1, .resp2, .resp3, .risr, .bycr, .idst]

theorem frame_afterDispatch (s : State) : Frame s s.afterDispatch commandCells :=
  (((frame_dmaWalk s).mono (by simp [commandCells])).trans
    ((frame_autoStopCheck _).mono (by simp [commandCells, dispatchCells]))).trans
    ((frame_irqUpdate _).mono (by simp))

theorem memWf_afterDispatch {s : State} (h : s.mem.wf s.cfg.addrBits = true) : s.afterDispatch.mem.wf s.cfg.addrBits = true := by
  simpa [State.afterDispatch] using memWf_dmaWalk h

/-! ### The FIFO port -/

theorem frame_xferUpdate (s : State) (n : Nat) : Frame s (s.xferUpdate n) [.risr] := by
  unfold State.xferUpdate
  dsimp only
  split
  · exact ((frame_setXfer s _).mono (by simp)).trans (frame_setRisr _ _)
  · exact (frame_setXfer s _).mono (by simp)

@[simp] theorem xfer_xferUpdate (s : State) (n : Nat) : (s.xferUpdate n).xfer = satSub s.xfer n := by
  unfold State.xferUpdate; dsimp only; split <;> rfl
@[simp] theorem mem_xferUpdate (s : State) (n : Nat) : (s.xferUpdate n).mem = s.mem := by
  unfold State.xferUpdate; dsimp only; split <;> rfl
@[simp] theorem card_xferUpdate (s : State) (n : Nat) : (s.xferUpdate n).card = s.card := by
  unfold State.xferUpdate; dsimp only; split <;> rfl
@[simp] theorem trace_xferUpdate (s : State) (n : Nat) : (s.xferUpdate n).trace = s.trace := by
  unfold State.xferUpdate; dsimp only; split <;> rfl

/-- `DATA_COMPLETE` of a FIFO access (45_fifo_port.md R313). -/
theorem risr_xferUpdate (s : State) (n : Nat) :
    (s.xferUpdate n).cell .risr =
      if satSub s.xfer n = 0 then setBit (s.cell .risr) s.cfg.pos.dataComplete else s.cell .risr := by
  unfold State.xferUpdate
  dsimp only
  split <;> rename_i h <;> simp at h <;> simp [h]

theorem frame_afterFifo (s : State) : Frame s s.afterFifo dispatchCells :=
  (((frame_xferUpdate s _).mono (by simp [dispatchCells])).trans (frame_autoStopCheck _)).trans
    ((frame_irqUpdate _).mono (by simp))

@[simp] theorem mem_afterFifo (s : State) : s.afterFifo.mem = s.mem := by simp [State.afterFifo]
@[simp] theorem xfer_afterFifo (s : State) : s.afterFifo.xfer = satSub s.xfer s.cfg.fifoBytes := by
  simp [State.afterFifo]

end Sys2Proof.Machine
end

