-- ==== Sys2Proof/Laws/Command.lean ====
section
/-! SUPPORT. Laws of command words: their class in bits (30_encoding.md R111), what the latch and the synthetic stop word
keep of them (41_command_engine.md R220, R231), and the one dispatch path of a loaded word. -/

namespace Sys2Proof

theorem cmdClass_store (p : Positions) (w : Word) : cmdClass p w = .store ↔ loadBit p w = false := by
  unfold cmdClass
  cases loadBit p w <;> cases clkChange p w <;> cases respExp p w <;> cases respLong p w <;> simp

theorem cmdClass_clkchg (p : Positions) (w : Word) : cmdClass p w = .clkchg ↔ loadBit p w = true ∧ clkChange p w = true := by
  unfold cmdClass
  cases loadBit p w <;> cases clkChange p w <;> cases respExp p w <;> cases respLong p w <;> simp

theorem cmdClass_noresp (p : Positions) (w : Word) :
    cmdClass p w = .noresp ↔ loadBit p w = true ∧ clkChange p w = false ∧ respExp p w = false := by
  unfold cmdClass
  cases loadBit p w <;> cases clkChange p w <;> cases respExp p w <;> cases respLong p w <;> simp

theorem cmdClass_short (p : Positions) (w : Word) :
    cmdClass p w = .short ↔ loadBit p w = true ∧ clkChange p w = false ∧ respExp p w = true ∧ respLong p w = false := by
  unfold cmdClass
  cases loadBit p w <;> cases clkChange p w <;> cases respExp p w <;> cases respLong p w <;> simp

theorem cmdClass_long (p : Positions) (w : Word) :
    cmdClass p w = .long ↔ loadBit p w = true ∧ clkChange p w = false ∧ respExp p w = true ∧ respLong p w = true := by
  unfold cmdClass
  cases loadBit p w <;> cases clkChange p w <;> cases respExp p w <;> cases respLong p w <;> simp

/-! ### The latched word keeps every field but `LOAD` -/

variable {p : Positions}

theorem getLsbD_latched (w : Word) {n : Nat} (h : n ≠ p.load) : (clearBit w p.load).getLsbD n = w.getLsbD n :=
  getLsbD_clearBit_ne _ _ _ h.symm

theorem cmdIdx_latched (h : p.wf = true) (w : Word) : cmdIdx p (clearBit w p.load) = cmdIdx p w := by
  have := Positions.wf_cmdr h
  apply BitVec.eq_of_getLsbD_eq
  intro i hi
  simp only [cmdIdx, BitVec.getLsbD_extractLsb']
  rw [getLsbD_latched _ (by omega)]

theorem respExp_latched (h : p.wf = true) (w : Word) : respExp p (clearBit w p.load) = respExp p w :=
  getLsbD_latched _ ((Positions.wf_cmdr h).2.2.2 _ (by simp)).2.1
theorem respLong_latched (h : p.wf = true) (w : Word) : respLong p (clearBit w p.load) = respLong p w :=
  getLsbD_latched _ ((Positions.wf_cmdr h).2.2.2 _ (by simp)).2.1
theorem clkChange_latched (h : p.wf = true) (w : Word) : clkChange p (clearBit w p.load) = clkChange p w :=
  getLsbD_latched _ ((Positions.wf_cmdr h).2.2.2 _ (by simp)).2.1
theorem autostop_latched (h : p.wf = true) (w : Word) : autostop p (clearBit w p.load) = autostop p w :=
  getLsbD_latched _ ((Positions.wf_cmdr h).2.2.2 _ (by simp)).2.1
theorem cmdWrite_latched (h : p.wf = true) (w : Word) : cmdWrite p (clearBit w p.load) = cmdWrite p w :=
  getLsbD_latched _ ((Positions.wf_cmdr h).2.2.2 _ (by simp)).2.1
theorem loadBit_latched (h : p.wf = true) (w : Word) : loadBit p (clearBit w p.load) = false := by
  have := Positions.wf_cmdr h
  unfold loadBit
  rw [getLsbD_clearBit _ _ _ this.2.1]
  simp
theorem cmdResult_latched (h : p.wf = true) (w : Word) (r : Option (List Byte)) :
    cmdResult p (clearBit w p.load) r = cmdResult p w r := by
  unfold cmdResult
  simp [respExp_latched h, respLong_latched h]

/-! ### The synthetic stop word keeps every field but the id (R231) -/

theorem getLsbD_idMask (p : Positions) (k : Nat) :
    (~~~((0x3F : Word) <<< p.cmdIdx)).getLsbD k = (decide (k < 32) && !decide (p.cmdIdx ≤ k ∧ k < p.cmdIdx + 6)) := by
  have e (i : Nat) : (0x3F : Word).getLsbD i = decide (i < 6) := by
    by_cases hi : i < 6
    · interval_cases i <;> rfl
    · by_cases h32 : i < 32
      · interval_cases i <;> first | omega | rfl
      · rw [BitVec.getLsbD_of_ge _ _ (by omega)]
        simp [hi]
  simp only [BitVec.getLsbD_not, BitVec.getLsbD_shiftLeft, e]
  by_cases h1 : k < 32 <;> by_cases h2 : k < p.cmdIdx <;> by_cases h3 : k - p.cmdIdx < 6 <;>
    simp [h1, h2, h3] <;> omega

theorem getLsbD_withCmdIdx (w : Word) (id : BitVec 6) {k : Nat} (hk : k < p.cmdIdx ∨ p.cmdIdx + 6 ≤ k) :
    (withCmdIdx p w id).getLsbD k = w.getLsbD k := by
  by_cases h : k < 32
  · rw [withCmdIdx, BitVec.getLsbD_or, BitVec.getLsbD_and, getLsbD_idMask, BitVec.getLsbD_shiftLeft,
      BitVec.getLsbD_setWidth]
    have h1 : ¬(p.cmdIdx ≤ k ∧ k < p.cmdIdx + 6) := by omega
    rcases hk with hk | hk
    · simp [h, hk, h1]
    · rw [BitVec.getLsbD_of_ge id _ (by omega)]
      simp [h, h1]
  · rw [BitVec.getLsbD_of_ge _ _ (by omega), BitVec.getLsbD_of_ge _ _ (by omega)]

theorem cmdIdx_withCmdIdx (h : p.wf = true) (w : Word) (id : BitVec 6) : cmdIdx p (withCmdIdx p w id) = id := by
  have := Positions.wf_cmdr h
  apply BitVec.eq_of_getLsbD_eq
  intro i hi
  have h1 : p.cmdIdx + i < 32 := by omega
  have h2 : p.cmdIdx + i - p.cmdIdx = i := by omega
  simp only [cmdIdx, BitVec.getLsbD_extractLsb', withCmdIdx, BitVec.getLsbD_or, BitVec.getLsbD_and, getLsbD_idMask,
    BitVec.getLsbD_shiftLeft, BitVec.getLsbD_setWidth, h2, hi, h1]
  simp [hi, h1]
  intro
  omega

theorem cmdIdx_stopWord {c : Cfg} (h : c.pos.wf = true) (w : Word) : cmdIdx c.pos (stopWord c w) = c.stopCmdId :=
  cmdIdx_withCmdIdx h _ _
theorem respExp_stopWord {c : Cfg} (h : c.pos.wf = true) (w : Word) :
    respExp c.pos (stopWord c w) = respExp c.pos w :=
  getLsbD_withCmdIdx _ _ ((Positions.wf_cmdr h).2.2.2 _ (by simp)).2.2
theorem respLong_stopWord {c : Cfg} (h : c.pos.wf = true) (w : Word) :
    respLong c.pos (stopWord c w) = respLong c.pos w :=
  getLsbD_withCmdIdx _ _ ((Positions.wf_cmdr h).2.2.2 _ (by simp)).2.2
theorem clkChange_stopWord {c : Cfg} (h : c.pos.wf = true) (w : Word) :
    clkChange c.pos (stopWord c w) = clkChange c.pos w :=
  getLsbD_withCmdIdx _ _ ((Positions.wf_cmdr h).2.2.2 _ (by simp)).2.2
theorem cmdResult_stopWord {c : Cfg} (h : c.pos.wf = true) (w : Word) (r : Option (List Byte)) :
    cmdResult c.pos (stopWord c w) r = cmdResult c.pos w r := by
  unfold cmdResult
  simp [respExp_stopWord h, respLong_stopWord h]

theorem Regs.set_set (x : Regs) (c : Cell) (v w : Word) : (x.set v c).set w c = x.set w c := by
  cases c <;> rfl

end Sys2Proof

namespace Sys2Proof.Machine

/-- What the latch leaves (40_register_access.md R144, 41_command_engine.md R220). -/
theorem cell_latch (s : State) (w : Word) (c : Cell) :
    (s.latch w).cell c = if c = .cmdr then clearBit w s.cfg.pos.load else s.cell c := by
  simp [State.latch]

@[simp] theorem cfg_latch (s : State) (w : Word) : (s.latch w).cfg = s.cfg := by simp [State.latch]
@[simp] theorem xfer_latch (s : State) (w : Word) : (s.latch w).xfer = s.xfer := by simp [State.latch]
@[simp] theorem log_latch (s : State) (w : Word) : (s.latch w).log = s.logAfterWrite .cmdr w := by simp [State.latch]
@[simp] theorem card_latch (s : State) (w : Word) : (s.latch w).card = s.card := by simp [State.latch]
@[simp] theorem mem_latch (s : State) (w : Word) : (s.latch w).mem = s.mem := by simp [State.latch]
@[simp] theorem trace_latch (s : State) (w : Word) : (s.latch w).trace = s.trace := by simp [State.latch]
@[simp] theorem inbox_latch (s : State) (w : Word) : (s.latch w).inbox = s.inbox := by simp [State.latch]

/-- A loaded word is latched, dispatched and followed up (40_register_access.md R144). -/
theorem execWrCmdr_loaded (w : Word) (s : State) (h : loadBit s.cfg.pos w = true) :
    execWrCmdr w s = .next ((s.latch w).dispatch (clearBit w s.cfg.pos.load) (s.cell .cagr)).afterDispatch := by
  have hl : ((s.noteWrite .cmdr w).setCell .cmdr w).setCell .cmdr
      (clearBit (((s.noteWrite .cmdr w).setCell .cmdr w).cell .cmdr) s.cfg.pos.load) = s.latch w := by
    simp only [State.latch, State.cell_setCell, if_true]
    simp only [State.setCell, Regs.set_set]
  unfold execWrCmdr
  simp only [h, if_true, hl]
  simp [cell_latch]

/-- The card's part of a loaded word that is no clock change (41_command_engine.md R222, R224). -/
theorem dispatch_latch (s : State) (w : Word) (hp : s.cfg.pos.wf = true) (h : clkChange s.cfg.pos w = false) :
    (s.latch w).dispatch (clearBit w s.cfg.pos.load) (s.cell .cagr) =
      ((s.latch w).cardIssue (cmdIdx s.cfg.pos w) (s.cell .cagr)).2.settle
        (cmdResult s.cfg.pos w (s.card.issue (cmdIdx s.cfg.pos w) (s.cell .cagr)).1) := by
  simp [State.dispatch, clkChange_latched hp, cmdIdx_latched hp, cmdResult_latched hp, h, State.cardIssue]

/-- With no walk to make and no auto-stop due, only the line follows a dispatch. -/
theorem afterDispatch_idle (s : State) (h1 : s.walkEnabled = false)
    (h2 : autostop s.cfg.pos (s.cell .cmdr) = false ∨ s.xfer ≠ 0) : s.afterDispatch = s.irqUpdate := by
  have h3 : ¬(autostop s.cfg.pos (s.cell .cmdr) = true ∧ s.xfer = 0) := by
    rintro ⟨a, b⟩
    rcases h2 with h2 | h2
    · simp [a] at h2
    · exact h2 b
  have h4 : s.dmaWalk = s := by simp [State.dmaWalk, h1]
  rw [State.afterDispatch, h4, State.autoStopCheck, if_neg h3]

end Sys2Proof.Machine
end

