-- ==== Sys2Proof/Laws/PerInstr.lean ====
section
/-! SUPPORT. The per-instruction family `RowMatch`: the encoding of every well-formed operation matches its own row of the
opcode table (mask and match, 30_encoding.md R110 to R112), in the default configuration, whose map the table is. -/

namespace Sys2Proof

/-- The table word of an encoding: the bus header, the event code, the command word, or a descriptor's first word. -/
def Encoded.tableWord : Encoded → Word
  | .input (.mmio header _ _ _) => header.setWidth 32
  | .input (.event code _) => code.setWidth 32
  | .input (.command w) => w
  | .descriptor _ bytes => le32List bytes

/-- `MASK` and `MATCH` of an operation's row in the opcode table. -/
def Instr.tableRow : Instr → Word × Word
  | .wrGctl _ => (0x1FFF, 0x1000)
  | .rdGctl => (0x1FFF, 0x0000)
  | .wrCkcr _ => (0x1FFF, 0x1004)
  | .rdCkcr => (0x1FFF, 0x0004)
  | .wrTmor _ => (0x1FFF, 0x1008)
  | .rdTmor => (0x1FFF, 0x0008)
  | .wrBwdr _ => (0x1FFF, 0x100C)
  | .rdBwdr => (0x1FFF, 0x000C)
  | .wrBksr _ => (0x1FFF, 0x1010)
  | .rdBksr => (0x1FFF, 0x0010)
  | .wrBycr _ => (0x1FFF, 0x1014)
  | .rdBycr => (0x1FFF, 0x0014)
  | .wrCmdr _ => (0x1FFF, 0x1018)
  | .rdCmdr => (0x1FFF, 0x0018)
  | .wrCagr _ => (0x1FFF, 0x101C)
  | .rdCagr => (0x1FFF, 0x001C)
  | .wrResp0 _ => (0x1FFF, 0x1020)
  | .rdResp0 => (0x1FFF, 0x0020)
  | .wrResp1 _ => (0x1FFF, 0x1024)
  | .rdResp1 => (0x1FFF, 0x0024)
  | .wrResp2 _ => (0x1FFF, 0x1028)
  | .rdResp2 => (0x1FFF, 0x0028)
  | .wrResp3 _ => (0x1FFF, 0x102C)
  | .rdResp3 => (0x1FFF, 0x002C)
  | .wrImkr _ => (0x1FFF, 0x1030)
  | .rdImkr => (0x1FFF, 0x0030)
  | .wrMisr _ => (0x1FFF, 0x1034)
  | .rdMisr => (0x1FFF, 0x0034)
  | .wrRisr _ => (0x1FFF, 0x1038)
  | .rdRisr => (0x1FFF, 0x0038)
  | .wrStar _ => (0x1FFF, 0x103C)
  | .rdStar => (0x1FFF, 0x003C)
  | .wrFwlr _ => (0x1FFF, 0x1040)
  | .rdFwlr => (0x1FFF, 0x0040)
  | .wrFuns _ => (0x1FFF, 0x1044)
  | .rdFuns => (0x1FFF, 0x0044)
  | .wrDbgc _ => (0x1FFF, 0x1050)
  | .rdDbgc => (0x1FFF, 0x0050)
  | .wrA12a _ => (0x1FFF, 0x1058)
  | .rdA12a => (0x1FFF, 0x0058)
  | .wrNtsr _ => (0x1FFF, 0x105C)
  | .rdNtsr => (0x1FFF, 0x005C)
  | .wrSdbg _ => (0x1FFF, 0x1060)
  | .rdSdbg => (0x1FFF, 0x0060)
  | .wrHwrst _ => (0x1FFF, 0x1078)
  | .rdHwrst => (0x1FFF, 0x0078)
  | .wrDmac _ => (0x1FFF, 0x1080)
  | .rdDmac => (0x1FFF, 0x0080)
  | .wrDlba _ => (0x1FFF, 0x1084)
  | .rdDlba => (0x1FFF, 0x0084)
  | .wrIdst _ => (0x1FFF, 0x1088)
  | .rdIdst => (0x1FFF, 0x0088)
  | .wrIdie _ => (0x1FFF, 0x108C)
  | .rdIdie => (0x1FFF, 0x008C)
  | .wrThldc _ => (0x1FFF, 0x1100)
  | .rdThldc => (0x1FFF, 0x0100)
  | .wrDsbd _ => (0x1FFF, 0x110C)
  | .rdDsbd => (0x1FFF, 0x010C)
  | .wrResCrc _ => (0x1FFF, 0x1110)
  | .rdResCrc => (0x1FFF, 0x0110)
  | .wrData7Crc _ => (0x1FFF, 0x1114)
  | .rdData7Crc => (0x1FFF, 0x0114)
  | .wrData6Crc _ => (0x1FFF, 0x1118)
  | .rdData6Crc => (0x1FFF, 0x0118)
  | .wrData5Crc _ => (0x1FFF, 0x111C)
  | .rdData5Crc => (0x1FFF, 0x011C)
  | .wrData4Crc _ => (0x1FFF, 0x1120)
  | .rdData4Crc => (0x1FFF, 0x0120)
  | .wrData3Crc _ => (0x1FFF, 0x1124)
  | .rdData3Crc => (0x1FFF, 0x0124)
  | .wrData2Crc _ => (0x1FFF, 0x1128)
  | .rdData2Crc => (0x1FFF, 0x0128)
  | .wrData1Crc _ => (0x1FFF, 0x112C)
  | .rdData1Crc => (0x1FFF, 0x012C)
  | .wrData0Crc _ => (0x1FFF, 0x1130)
  | .rdData0Crc => (0x1FFF, 0x0130)
  | .wrCrcSta _ => (0x1FFF, 0x1134)
  | .rdCrcSta => (0x1FFF, 0x0134)
  | .wrFifo _ => (0x1FFF, 0x1200)
  | .rdFifo => (0x1FFF, 0x0200)
  | .wrxUnknownOffset _ _ => (0x1003, 0x1000)
  | .rdxUnknownOffset _ => (0x1003, 0x0000)
  | .wrxIllegalAccess _ _ _ => (0x1000, 0x1000)
  | .rdxIllegalAccess _ _ => (0x1000, 0x0000)
  | .evInsert => (0x7, 0x0)
  | .evRemove => (0x7, 0x1)
  | .evReset => (0x7, 0x2)
  | .evSave => (0x7, 0x3)
  | .evRestore _ => (0x7, 0x4)
  | .cmdStore _ => (0x80000000, 0x00000000)
  | .cmdClkchg _ => (0x80200000, 0x80200000)
  | .cmdNoresp _ => (0x80200040, 0x80000000)
  | .cmdShort _ => (0x802000C0, 0x80000040)
  | .cmdLong _ => (0x802000C0, 0x800000C0)
  | .descLast _ _ => (0x00000004, 0x00000004)
  | .descLink _ _ => (0x00000004, 0x00000000)

end Sys2Proof

namespace Sys2Proof.Laws.RowMatch

/-- A well-formed operation's encoding, in the default configuration, lies in its row. -/
def Statement (i : Instr) : Prop :=
  i.wellFormed Cfg.default = true → (encode Cfg.default i).tableWord &&& i.tableRow.1 = i.tableRow.2

/-- Bit by bit: enough to look at the bits of the mask. -/
theorem of_bits (w m k : Word) (h : ∀ i, i < 32 → (w.getLsbD i && m.getLsbD i) = k.getLsbD i) : w &&& m = k :=
  (and_eq_iff w m k).2 h

theorem header_word (b : Bool) (off : Word) (size : Nat) (v : Word) (i : Nat) :
    (Encoded.input (mmioInput b off size v)).tableWord.getLsbD i =
      (decide (i < 12) && off.getLsbD i || decide (i = 12) && b) := by
  simp only [mmioInput, Encoded.tableWord, BitVec.getLsbD_setWidth, BitVec.getLsbD_append, BitVec.getLsbD_extractLsb',
    Nat.zero_add]
  by_cases h1 : i < 12
  · have h2 : i < 32 := by omega
    have h3 : ¬ i = 12 := by omega
    simp [h1, h2, h3]
  · by_cases h3 : i = 12
    · subst h3; simp
    · have h4 : 1 ≤ i - 12 := by omega
      simp [h1, h3, BitVec.getLsbD_of_ge (BitVec.ofBool b) (i - 12) h4]

theorem aligned_bits (off : Word) (h : off.toNat % 4 = 0) : off.getLsbD 0 = false ∧ off.getLsbD 1 = false := by
  simp only [BitVec.getLsbD, Nat.testBit, Nat.shiftRight_zero, Nat.one_and_eq_mod_two]
  constructor
  · have : off.toNat % 2 = 0 := by omega
    simp [this]
  · have : off.toNat / 2 % 2 = 0 := by omega
    simp [Nat.shiftRight_eq_div_pow, this]

theorem wrGctl (v : Word) : Statement (.wrGctl v) := fun _ =>
  show (encode Cfg.default (.wrGctl 0)).tableWord &&& 0x1FFF = 0x1000 by decide
theorem rdGctl : Statement (.rdGctl) := fun _ => rfl
theorem wrCkcr (v : Word) : Statement (.wrCkcr v) := fun _ =>
  show (encode Cfg.default (.wrCkcr 0)).tableWord &&& 0x1FFF = 0x1004 by decide
theorem rdCkcr : Statement (.rdCkcr) := fun _ => rfl
theorem wrTmor (v : Word) : Statement (.wrTmor v) := fun _ =>
  show (encode Cfg.default (.wrTmor 0)).tableWord &&& 0x1FFF = 0x1008 by decide
theorem rdTmor : Statement (.rdTmor) := fun _ => rfl
theorem wrBwdr (v : Word) : Statement (.wrBwdr v) := fun _ =>
  show (encode Cfg.default (.wrBwdr 0)).tableWord &&& 0x1FFF = 0x100C by decide
theorem rdBwdr : Statement (.rdBwdr) := fun _ => rfl
theorem wrBksr (v : Word) : Statement (.wrBksr v) := fun _ =>
  show (encode Cfg.default (.wrBksr 0)).tableWord &&& 0x1FFF = 0x1010 by decide
theorem rdBksr : Statement (.rdBksr) := fun _ => rfl
theorem wrBycr (v : Word) : Statement (.wrBycr v) := fun _ =>
  show (encode Cfg.default (.wrBycr 0)).tableWord &&& 0x1FFF = 0x1014 by decide
theorem rdBycr : Statement (.rdBycr) := fun _ => rfl
theorem wrCmdr (v : Word) : Statement (.wrCmdr v) := fun _ =>
  show (encode Cfg.default (.wrCmdr 0)).tableWord &&& 0x1FFF = 0x1018 by decide
theorem rdCmdr : Statement (.rdCmdr) := fun _ => rfl
theorem wrCagr (v : Word) : Statement (.wrCagr v) := fun _ =>
  show (encode Cfg.default (.wrCagr 0)).tableWord &&& 0x1FFF = 0x101C by decide
theorem rdCagr : Statement (.rdCagr) := fun _ => rfl
theorem wrResp0 (v : Word) : Statement (.wrResp0 v) := fun _ =>
  show (encode Cfg.default (.wrResp0 0)).tableWord &&& 0x1FFF = 0x1020 by decide
theorem rdResp0 : Statement (.rdResp0) := fun _ => rfl
theorem wrResp1 (v : Word) : Statement (.wrResp1 v) := fun _ =>
  show (encode Cfg.default (.wrResp1 0)).tableWord &&& 0x1FFF = 0x1024 by decide
theorem rdResp1 : Statement (.rdResp1) := fun _ => rfl
theorem wrResp2 (v : Word) : Statement (.wrResp2 v) := fun _ =>
  show (encode Cfg.default (.wrResp2 0)).tableWord &&& 0x1FFF = 0x1028 by decide
theorem rdResp2 : Statement (.rdResp2) := fun _ => rfl
theorem wrResp3 (v : Word) : Statement (.wrResp3 v) := fun _ =>
  show (encode Cfg.default (.wrResp3 0)).tableWord &&& 0x1FFF = 0x102C by decide
theorem rdResp3 : Statement (.rdResp3) := fun _ => rfl
theorem wrImkr (v : Word) : Statement (.wrImkr v) := fun _ =>
  show (encode Cfg.default (.wrImkr 0)).tableWord &&& 0x1FFF = 0x1030 by decide
theorem rdImkr : Statement (.rdImkr) := fun _ => rfl
theorem wrMisr (v : Word) : Statement (.wrMisr v) := fun _ =>
  show (encode Cfg.default (.wrMisr 0)).tableWord &&& 0x1FFF = 0x1034 by decide
theorem rdMisr : Statement (.rdMisr) := fun _ => rfl
theorem wrRisr (v : Word) : Statement (.wrRisr v) := fun _ =>
  show (encode Cfg.default (.wrRisr 0)).tableWord &&& 0x1FFF = 0x1038 by decide
theorem rdRisr : Statement (.rdRisr) := fun _ => rfl
theorem wrStar (v : Word) : Statement (.wrStar v) := fun _ =>
  show (encode Cfg.default (.wrStar 0)).tableWord &&& 0x1FFF = 0x103C by decide
theorem rdStar : Statement (.rdStar) := fun _ => rfl
theorem wrFwlr (v : Word) : Statement (.wrFwlr v) := fun _ =>
  show (encode Cfg.default (.wrFwlr 0)).tableWord &&& 0x1FFF = 0x1040 by decide
theorem rdFwlr : Statement (.rdFwlr) := fun _ => rfl
theorem wrFuns (v : Word) : Statement (.wrFuns v) := fun _ =>
  show (encode Cfg.default (.wrFuns 0)).tableWord &&& 0x1FFF = 0x1044 by decide
theorem rdFuns : Statement (.rdFuns) := fun _ => rfl
theorem wrDbgc (v : Word) : Statement (.wrDbgc v) := fun _ =>
  show (encode Cfg.default (.wrDbgc 0)).tableWord &&& 0x1FFF = 0x1050 by decide
theorem rdDbgc : Statement (.rdDbgc) := fun _ => rfl
theorem wrA12a (v : Word) : Statement (.wrA12a v) := fun _ =>
  show (encode Cfg.default (.wrA12a 0)).tableWord &&& 0x1FFF = 0x1058 by decide
theorem rdA12a : Statement (.rdA12a) := fun _ => rfl
theorem wrNtsr (v : Word) : Statement (.wrNtsr v) := fun _ =>
  show (encode Cfg.default (.wrNtsr 0)).tableWord &&& 0x1FFF = 0x105C by decide
theorem rdNtsr : Statement (.rdNtsr) := fun _ => rfl
theorem wrSdbg (v : Word) : Statement (.wrSdbg v) := fun _ =>
  show (encode Cfg.default (.wrSdbg 0)).tableWord &&& 0x1FFF = 0x1060 by decide
theorem rdSdbg : Statement (.rdSdbg) := fun _ => rfl
theorem wrHwrst (v : Word) : Statement (.wrHwrst v) := fun _ =>
  show (encode Cfg.default (.wrHwrst 0)).tableWord &&& 0x1FFF = 0x1078 by decide
theorem rdHwrst : Statement (.rdHwrst) := fun _ => rfl
theorem wrDmac (v : Word) : Statement (.wrDmac v) := fun _ =>
  show (encode Cfg.default (.wrDmac 0)).tableWord &&& 0x1FFF = 0x1080 by decide
theorem rdDmac : Statement (.rdDmac) := fun _ => rfl
theorem wrDlba (v : Word) : Statement (.wrDlba v) := fun _ =>
  show (encode Cfg.default (.wrDlba 0)).tableWord &&& 0x1FFF = 0x1084 by decide
theorem rdDlba : Statement (.rdDlba) := fun _ => rfl
theorem wrIdst (v : Word) : Statement (.wrIdst v) := fun _ =>
  show (encode Cfg.default (.wrIdst 0)).tableWord &&& 0x1FFF = 0x1088 by decide
theorem rdIdst : Statement (.rdIdst) := fun _ => rfl
theorem wrIdie (v : Word) : Statement (.wrIdie v) := fun _ =>
  show (encode Cfg.default (.wrIdie 0)).tableWord &&& 0x1FFF = 0x108C by decide
theorem rdIdie : Statement (.rdIdie) := fun _ => rfl
theorem wrThldc (v : Word) : Statement (.wrThldc v) := fun _ =>
  show (encode Cfg.default (.wrThldc 0)).tableWord &&& 0x1FFF = 0x1100 by decide
theorem rdThldc : Statement (.rdThldc) := fun _ => rfl
theorem wrDsbd (v : Word) : Statement (.wrDsbd v) := fun _ =>
  show (encode Cfg.default (.wrDsbd 0)).tableWord &&& 0x1FFF = 0x110C by decide
theorem rdDsbd : Statement (.rdDsbd) := fun _ => rfl
theorem wrResCrc (v : Word) : Statement (.wrResCrc v) := fun _ =>
  show (encode Cfg.default (.wrResCrc 0)).tableWord &&& 0x1FFF = 0x1110 by decide
theorem rdResCrc : Statement (.rdResCrc) := fun _ => rfl
theorem wrData7Crc (v : Word) : Statement (.wrData7Crc v) := fun _ =>
  show (encode Cfg.default (.wrData7Crc 0)).tableWord &&& 0x1FFF = 0x1114 by decide
theorem rdData7Crc : Statement (.rdData7Crc) := fun _ => rfl
theorem wrData6Crc (v : Word) : Statement (.wrData6Crc v) := fun _ =>
  show (encode Cfg.default (.wrData6Crc 0)).tableWord &&& 0x1FFF = 0x1118 by decide
theorem rdData6Crc : Statement (.rdData6Crc) := fun _ => rfl
theorem wrData5Crc (v : Word) : Statement (.wrData5Crc v) := fun _ =>
  show (encode Cfg.default (.wrData5Crc 0)).tableWord &&& 0x1FFF = 0x111C by decide
theorem rdData5Crc : Statement (.rdData5Crc) := fun _ => rfl
theorem wrData4Crc (v : Word) : Statement (.wrData4Crc v) := fun _ =>
  show (encode Cfg.default (.wrData4Crc 0)).tableWord &&& 0x1FFF = 0x1120 by decide
theorem rdData4Crc : Statement (.rdData4Crc) := fun _ => rfl
theorem wrData3Crc (v : Word) : Statement (.wrData3Crc v) := fun _ =>
  show (encode Cfg.default (.wrData3Crc 0)).tableWord &&& 0x1FFF = 0x1124 by decide
theorem rdData3Crc : Statement (.rdData3Crc) := fun _ => rfl
theorem wrData2Crc (v : Word) : Statement (.wrData2Crc v) := fun _ =>
  show (encode Cfg.default (.wrData2Crc 0)).tableWord &&& 0x1FFF = 0x1128 by decide
theorem rdData2Crc : Statement (.rdData2Crc) := fun _ => rfl
theorem wrData1Crc (v : Word) : Statement (.wrData1Crc v) := fun _ =>
  show (encode Cfg.default (.wrData1Crc 0)).tableWord &&& 0x1FFF = 0x112C by decide
theorem rdData1Crc : Statement (.rdData1Crc) := fun _ => rfl
theorem wrData0Crc (v : Word) : Statement (.wrData0Crc v) := fun _ =>
  show (encode Cfg.default (.wrData0Crc 0)).tableWord &&& 0x1FFF = 0x1130 by decide
theorem rdData0Crc : Statement (.rdData0Crc) := fun _ => rfl
theorem wrCrcSta (v : Word) : Statement (.wrCrcSta v) := fun _ =>
  show (encode Cfg.default (.wrCrcSta 0)).tableWord &&& 0x1FFF = 0x1134 by decide
theorem rdCrcSta : Statement (.rdCrcSta) := fun _ => rfl
theorem wrFifo (v : Word) : Statement (.wrFifo v) := fun _ =>
  show (encode Cfg.default (.wrFifo 0)).tableWord &&& 0x1FFF = 0x1200 by decide
theorem rdFifo : Statement (.rdFifo) := fun _ => rfl
theorem wrxUnknownOffset (off : Word) (v : Word) : Statement (.wrxUnknownOffset off v) := by
  intro h
  simp only [Instr.wellFormed, Bool.and_eq_true, legalShape_iff] at h
  obtain ⟨h0, h1⟩ := aligned_bits off h.1.2
  refine of_bits _ _ _ (fun i hi => ?_)
  simp only [encode, header_word]
  interval_cases i <;> simp_all [Instr.tableRow]

theorem rdxUnknownOffset (off : Word) : Statement (.rdxUnknownOffset off) := by
  intro h
  simp only [Instr.wellFormed, Bool.and_eq_true, legalShape_iff] at h
  obtain ⟨h0, h1⟩ := aligned_bits off h.1.2
  refine of_bits _ _ _ (fun i hi => ?_)
  simp only [encode, header_word]
  interval_cases i <;> simp_all [Instr.tableRow]

theorem wrxIllegalAccess (off : Word) (size : Nat) (v : Word) : Statement (.wrxIllegalAccess off size v) := by
  intro _
  refine of_bits _ _ _ (fun i hi => ?_)
  simp only [encode, header_word]
  interval_cases i <;> simp [Instr.tableRow]

theorem rdxIllegalAccess (off : Word) (size : Nat) : Statement (.rdxIllegalAccess off size) := by
  intro _
  refine of_bits _ _ _ (fun i hi => ?_)
  simp only [encode, header_word]
  interval_cases i <;> simp [Instr.tableRow]

theorem evInsert : Statement (.evInsert) := fun _ => rfl
theorem evRemove : Statement (.evRemove) := fun _ => rfl
theorem evReset : Statement (.evReset) := fun _ => rfl
theorem evSave : Statement (.evSave) := fun _ => rfl
theorem evRestore (snap : Snapshot) : Statement (.evRestore snap) := fun _ =>
  show (4 : BitVec 3).setWidth 32 &&& (0x7 : Word) = 0x4 by decide
theorem cmdStore (w : Word) : Statement (.cmdStore w) := by
  intro h
  have h := (cmdClass_store Cfg.default.pos w).1 (by simpa [Instr.wellFormed] using h)
  have h : w.getLsbD 31 = false := h
  refine of_bits _ _ _ (fun i hi => ?_)
  simp only [encode, Encoded.tableWord, Instr.tableRow]
  by_cases h31 : i = 31
  · subst h31; simp only [h]; decide
  interval_cases i <;> first | omega | simp

theorem cmdClkchg (w : Word) : Statement (.cmdClkchg w) := by
  intro h
  have h := (cmdClass_clkchg Cfg.default.pos w).1 (by simpa [Instr.wellFormed] using h)
  have h : w.getLsbD 31 = true ∧ w.getLsbD 21 = true := h
  refine of_bits _ _ _ (fun i hi => ?_)
  simp only [encode, Encoded.tableWord, Instr.tableRow]
  by_cases h31 : i = 31
  · subst h31; simp only [h]; decide
  by_cases h21 : i = 21
  · subst h21; simp only [h]; decide
  interval_cases i <;> first | omega | simp

theorem cmdNoresp (w : Word) : Statement (.cmdNoresp w) := by
  intro h
  have h := (cmdClass_noresp Cfg.default.pos w).1 (by simpa [Instr.wellFormed] using h)
  have h : w.getLsbD 31 = true ∧ w.getLsbD 21 = false ∧ w.getLsbD 6 = false := h
  refine of_bits _ _ _ (fun i hi => ?_)
  simp only [encode, Encoded.tableWord, Instr.tableRow]
  by_cases h31 : i = 31
  · subst h31; simp only [h]; decide
  by_cases h21 : i = 21
  · subst h21; simp only [h]; decide
  by_cases h6 : i = 6
  · subst h6; simp only [h]; decide
  interval_cases i <;> first | omega | simp

theorem cmdShort (w : Word) : Statement (.cmdShort w) := by
  intro h
  have h := (cmdClass_short Cfg.default.pos w).1 (by simpa [Instr.wellFormed] using h)
  have h : w.getLsbD 31 = true ∧ w.getLsbD 21 = false ∧ w.getLsbD 6 = true ∧ w.getLsbD 7 = false := h
  refine of_bits _ _ _ (fun i hi => ?_)
  simp only [encode, Encoded.tableWord, Instr.tableRow]
  by_cases h31 : i = 31
  · subst h31; simp only [h]; decide
  by_cases h21 : i = 21
  · subst h21; simp only [h]; decide
  by_cases h6 : i = 6
  · subst h6; simp only [h]; decide
  by_cases h7 : i = 7
  · subst h7; simp only [h]; decide
  interval_cases i <;> first | omega | simp

theorem cmdLong (w : Word) : Statement (.cmdLong w) := by
  intro h
  have h := (cmdClass_long Cfg.default.pos w).1 (by simpa [Instr.wellFormed] using h)
  have h : w.getLsbD 31 = true ∧ w.getLsbD 21 = false ∧ w.getLsbD 6 = true ∧ w.getLsbD 7 = true := h
  refine of_bits _ _ _ (fun i hi => ?_)
  simp only [encode, Encoded.tableWord, Instr.tableRow]
  by_cases h31 : i = 31
  · subst h31; simp only [h]; decide
  by_cases h21 : i = 21
  · subst h21; simp only [h]; decide
  by_cases h6 : i = 6
  · subst h6; simp only [h]; decide
  by_cases h7 : i = 7
  · subst h7; simp only [h]; decide
  interval_cases i <;> first | omega | simp

theorem descLast (dptr : Word) (d : Desc) : Statement (.descLast dptr d) := by
  intro h
  have h : d.status.getLsbD 2 = true := h
  refine of_bits _ _ _ (fun i hi => ?_)
  have hw : (encode Cfg.default (.descLast dptr d)).tableWord = d.status := le32_bytesLe32 d.status
  simp only [hw, Instr.tableRow]
  by_cases h2 : i = 2
  · subst h2; simp only [h]; decide
  interval_cases i <;> first | omega | simp

theorem descLink (dptr : Word) (d : Desc) : Statement (.descLink dptr d) := by
  intro h
  have h : d.status.getLsbD 2 = false := Bool.eq_false_of_not_eq_true' h
  refine of_bits _ _ _ (fun i hi => ?_)
  have hw : (encode Cfg.default (.descLink dptr d)).tableWord = d.status := le32_bytesLe32 d.status
  simp only [hw, Instr.tableRow]
  by_cases h2 : i = 2
  · subst h2; simp only [h]; decide
  interval_cases i <;> first | omega | simp


end Sys2Proof.Laws.RowMatch
end

