-- ==== Sys2Proof/Laws/Relabel.lean ====
section
/-! SUPPORT. No operation's procedure reads the log or `UNIMP_SET`: each commutes with replacing both
(60_exceptions.md R340, R344). -/

namespace Sys2Proof.Machine

/-- `s` with another log and another `UNIMP_SET`. -/
def State.relabel (s : State) (l : List Diag) (u : List Reg) : State :=
  { s with log := l, cfg := { s.cfg with unimpSet := u } }

variable (s : State) (l : List Diag) (u : List Reg)

@[simp] theorem cell_relabel (c : Cell) : (s.relabel l u).cell c = s.cell c := rfl
@[simp] theorem xfer_relabel : (s.relabel l u).xfer = s.xfer := rfl
@[simp] theorem mem_relabel : (s.relabel l u).mem = s.mem := rfl
@[simp] theorem card_relabel : (s.relabel l u).card = s.card := rfl
@[simp] theorem trace_relabel : (s.relabel l u).trace = s.trace := rfl
@[simp] theorem inbox_relabel : (s.relabel l u).inbox = s.inbox := rfl
@[simp] theorem log_relabel : (s.relabel l u).log = l := rfl
@[simp] theorem stageBytes_relabel : (s.relabel l u).cfg.stageBytes = s.cfg.stageBytes := rfl
@[simp] theorem pos_relabel : (s.relabel l u).cfg.pos = s.cfg.pos := rfl
@[simp] theorem fifoBytes_relabel : (s.relabel l u).cfg.fifoBytes = s.cfg.fifoBytes := rfl
@[simp] theorem descByteOrder_relabel : (s.relabel l u).cfg.descByteOrder = s.cfg.descByteOrder := rfl
@[simp] theorem irqLevel_relabel : (s.relabel l u).irqLevel = s.irqLevel := rfl
@[simp] theorem walkEnabled_relabel : (s.relabel l u).walkEnabled = s.walkEnabled := rfl
@[simp] theorem chunk_relabel (d : Desc) (b : Word) : d.chunk (s.relabel l u).cfg b = d.chunk s.cfg b := rfl
@[simp] theorem base_relabel (d : Desc) : d.base (s.relabel l u).cfg = d.base s.cfg := rfl
@[simp] theorem handedBack_relabel (d : Desc) : d.handedBack (s.relabel l u).cfg = d.handedBack s.cfg := rfl
@[simp] theorem stopWord_relabel (w : Word) : stopWord (s.relabel l u).cfg w = stopWord s.cfg w := rfl

@[simp] theorem setCell_relabel (c : Cell) (v : Word) :
    (s.relabel l u).setCell c v = (s.setCell c v).relabel l u := rfl
@[simp] theorem setXfer_relabel (v : Word) : (s.relabel l u).setXfer v = (s.setXfer v).relabel l u := rfl
@[simp] theorem setRisr_relabel (n : Nat) : (s.relabel l u).setRisr n = (s.setRisr n).relabel l u := rfl
@[simp] theorem emit_relabel (e : ExtEvent) : (s.relabel l u).emit e = (s.emit e).relabel l u := rfl
@[simp] theorem irqUpdate_relabel : (s.relabel l u).irqUpdate = s.irqUpdate.relabel l u := rfl
@[simp] theorem dmaControlLine_relabel : (s.relabel l u).dmaControlLine = s.dmaControlLine.relabel l u := by
  unfold State.dmaControlLine
  rw [show (s.relabel l u).cfg.dmaControlDrivesLine = s.cfg.dmaControlDrivesLine from rfl]
  split <;> rfl
@[simp] theorem busReturn_relabel (n : Nat) (v : Word) :
    (s.relabel l u).busReturn n v = (s.busReturn n v).relabel l u := rfl
@[simp] theorem acknowledge_relabel (v : Word) : (s.relabel l u).acknowledge v = (s.acknowledge v).relabel l u := rfl
@[simp] theorem memRead_relabel (a n : Nat) :
    (s.relabel l u).memRead a n = ((s.memRead a n).1, (s.memRead a n).2.relabel l u) := rfl
@[simp] theorem memWrite_relabel (a : Nat) (b : List Byte) :
    (s.relabel l u).memWrite a b = (s.memWrite a b).relabel l u := rfl
@[simp] theorem cardIssue_relabel (id : BitVec 6) (arg : Word) :
    (s.relabel l u).cardIssue id arg = ((s.cardIssue id arg).1, (s.cardIssue id arg).2.relabel l u) := rfl
@[simp] theorem cardDataReady_relabel :
    (s.relabel l u).cardDataReady = (s.cardDataReady.1, s.cardDataReady.2.relabel l u) := rfl

@[simp] theorem sendBytes_relabel (b : List Byte) :
    (s.relabel l u).sendBytes b = (s.sendBytes b).relabel l u := by
  induction b generalizing s with
  | nil => rfl
  | cons x rest ih => exact ih (s.cardWriteByte x)

@[simp] theorem takeBytes_relabel (n : Nat) :
    (s.relabel l u).takeBytes n = ((s.takeBytes n).1, (s.takeBytes n).2.relabel l u) := by
  induction n generalizing s with
  | zero => rfl
  | succ n ih =>
    have h : (s.relabel l u).cardReadByte = (s.cardReadByte.1, s.cardReadByte.2.relabel l u) := rfl
    simp only [State.takeBytes, h, ih]

@[simp] theorem movePiece_relabel (wr : Bool) (a m : Nat) :
    (s.relabel l u).movePiece wr a m = (s.movePiece wr a m).relabel l u := by
  cases wr <;> simp [State.movePiece]

@[simp] theorem movePieces_relabel (wr : Bool) (base n done fuel : Nat) :
    (s.relabel l u).movePieces wr base n done fuel = (s.movePieces wr base n done fuel).relabel l u := by
  induction fuel generalizing s done with
  | zero => rfl
  | succ fuel ih =>
    unfold State.movePieces
    split <;> simp [ih]

@[simp] theorem processDesc_relabel (wr : Bool) (dptr : Word) (d : Desc) :
    (s.relabel l u).processDesc wr dptr d = (s.processDesc wr dptr d).relabel l u := by
  simp [State.processDesc, State.moveChunk, State.countDown]

@[simp] theorem walkLoop_relabel (wr : Bool) (dptr : Word) (fuel : Nat) :
    (s.relabel l u).walkLoop wr dptr fuel = (s.walkLoop wr dptr fuel).relabel l u := by
  induction fuel generalizing s dptr with
  | zero => rfl
  | succ fuel ih =>
    have h : (s.relabel l u).fetchDesc dptr = ((s.fetchDesc dptr).1, (s.fetchDesc dptr).2.relabel l u) := rfl
    simp only [State.walkLoop, h, processDesc_relabel, cell_relabel, pos_relabel, ih]
    split <;> rfl

@[simp] theorem walkComplete_relabel (wr : Bool) :
    (s.relabel l u).walkComplete wr = (s.walkComplete wr).relabel l u := by
  cases wr <;> rfl

@[simp] theorem walk_relabel (wr : Bool) : (s.relabel l u).walk wr = (s.walk wr).relabel l u := by
  simp [State.walk]

@[simp] theorem dmaWalk_relabel : (s.relabel l u).dmaWalk = s.dmaWalk.relabel l u := by
  simp only [State.dmaWalk, walkEnabled_relabel, cell_relabel, pos_relabel, cardDataReady_relabel, walk_relabel]
  repeat' split
  all_goals rfl

@[simp] theorem settle_relabel (r : CmdResult) : (s.relabel l u).settle r = (s.settle r).relabel l u := by
  cases r <;> rfl

@[simp] theorem dispatch_relabel (w arg : Word) : (s.relabel l u).dispatch w arg = (s.dispatch w arg).relabel l u := by
  simp only [State.dispatch, pos_relabel, cardIssue_relabel, settle_relabel, setRisr_relabel]
  split <;> rfl

@[simp] theorem autoStopCheck_relabel : (s.relabel l u).autoStopCheck = s.autoStopCheck.relabel l u := by
  simp only [State.autoStopCheck, pos_relabel, cell_relabel, xfer_relabel, stopWord_relabel, dispatch_relabel, setRisr_relabel]
  split <;> rfl

@[simp] theorem afterDispatch_relabel : (s.relabel l u).afterDispatch = s.afterDispatch.relabel l u := by
  simp [State.afterDispatch]

@[simp] theorem afterFifo_relabel : (s.relabel l u).afterFifo = s.afterFifo.relabel l u := by
  have h : (s.relabel l u).xferUpdate s.cfg.fifoBytes = (s.xferUpdate s.cfg.fifoBytes).relabel l u := by
    let t := s.setXfer (satSub s.xfer s.cfg.fifoBytes)
    exact (apply_ite (fun z => State.relabel z l u) (t.xfer = 0) (t.setRisr t.cfg.pos.dataComplete) t).symm
  simp [State.afterFifo, h]

end Sys2Proof.Machine
end

