-- ==== Sys2Proof/Laws/Transfer.lean ====
section
/-! SUPPORT. What bytes a chunk moves, and where (42_dma_engine.md R257 to R259): the card is sent the buffer in ascending
address order, the buffer takes the card's bytes in order. -/

namespace Sys2Proof.Machine

theorem Card.gives_add (c : Card) (n k : Nat) : c.gives (n + k) = c.gives n ++ (c.after n).gives k := by
  induction n generalizing c with
  | zero => simp [Card.gives, Card.after]
  | succ n ih => rw [Nat.succ_add]; simp [Card.gives, Card.after, ih]

theorem Card.after_add (c : Card) (n k : Nat) : c.after (n + k) = (c.after n).after k := by
  induction n generalizing c with
  | zero => simp [Card.after]
  | succ n ih => rw [Nat.succ_add]; simp [Card.after, ih]

@[simp] theorem Card.length_gives (c : Card) (n : Nat) : (c.gives n).length = n := by
  induction n generalizing c with
  | zero => rfl
  | succ n ih => simp [Card.gives, ih]

/-! ### The card's side -/

theorem cardWrites_sendBytes (s : State) (b : List Byte) :
    cardWrites (s.sendBytes b).trace = b.reverse ++ cardWrites s.trace := by
  induction b generalizing s with
  | nil => rfl
  | cons x rest ih => simp [State.sendBytes, ih, cardWrites]

theorem cardReads_sendBytes (s : State) (b : List Byte) : cardReads (s.sendBytes b).trace = cardReads s.trace := by
  induction b generalizing s with
  | nil => rfl
  | cons x rest ih => simp [State.sendBytes, ih, cardReads]

theorem takeBytes_fst (s : State) (n : Nat) : (s.takeBytes n).1 = s.card.gives n := by
  induction n generalizing s with
  | zero => rfl
  | succ n ih => simp [State.takeBytes, Card.gives, ih, State.cardReadByte]

theorem card_takeBytes (s : State) (n : Nat) : (s.takeBytes n).2.card = s.card.after n := by
  induction n generalizing s with
  | zero => rfl
  | succ n ih => simp [State.takeBytes, Card.after, ih]

theorem cardReads_takeBytes (s : State) (n : Nat) :
    cardReads (s.takeBytes n).2.trace = (s.card.gives n).reverse ++ cardReads s.trace := by
  induction n generalizing s with
  | zero => rfl
  | succ n ih => simp [State.takeBytes, Card.gives, ih, cardReads]

theorem cardWrites_takeBytes (s : State) (n : Nat) : cardWrites (s.takeBytes n).2.trace = cardWrites s.trace := by
  induction n generalizing s with
  | zero => rfl
  | succ n ih => simp [State.takeBytes, ih, cardWrites]

theorem cardCommands_sendBytes (s : State) (b : List Byte) :
    cardCommands (s.sendBytes b).trace = cardCommands s.trace := by
  induction b generalizing s with
  | nil => rfl
  | cons x rest ih => simp [State.sendBytes, ih, cardCommands]

theorem cardCommands_takeBytes (s : State) (n : Nat) :
    cardCommands (s.takeBytes n).2.trace = cardCommands s.trace := by
  induction n generalizing s with
  | zero => rfl
  | succ n ih => simp [State.takeBytes, ih, cardCommands]

theorem cardCalls_sendBytes (s : State) (b : List Byte) :
    cardCalls (s.sendBytes b).trace = (b.map ExtEvent.cardWrite).reverse ++ cardCalls s.trace := by
  induction b generalizing s with
  | nil => rfl
  | cons x rest ih => simp [State.sendBytes, ih]

theorem cardCalls_takeBytes (s : State) (n : Nat) :
    cardCalls (s.takeBytes n).2.trace = ((s.card.gives n).map ExtEvent.cardRead).reverse ++ cardCalls s.trace := by
  induction n generalizing s with
  | zero => rfl
  | succ n ih => simp [State.takeBytes, Card.gives, ih]

/-! ### Pieces -/

/-- No command reaches the card while bytes move (42_dma_engine.md R254). -/
theorem cardCommands_movePieces (s : State) (wr : Bool) (base n done fuel : Nat) :
    cardCommands (s.movePieces wr base n done fuel).trace = cardCommands s.trace := by
  induction fuel generalizing s done with
  | zero => rfl
  | succ fuel ih =>
    unfold State.movePieces
    split
    · rw [ih]
      cases wr <;> simp [State.movePiece, cardCommands_sendBytes, cardCommands_takeBytes, cardCommands]
    · rfl

/-- The write direction sends the rest of the chunk in ascending address order (R258). -/
theorem cardWrites_movePieces_true (s : State) (base n done fuel : Nat) (hc : 1 ≤ s.cfg.stageBytes)
    (hf : n - done ≤ fuel) :
    cardWrites (s.movePieces true base n done fuel).trace =
        (s.mem.readBytes s.cfg.addrBits (base + done) (n - done)).reverse ++ cardWrites s.trace ∧
      cardReads (s.movePieces true base n done fuel).trace = cardReads s.trace := by
  induction fuel generalizing s done with
  | zero =>
    have h0 : n - done = 0 := by omega
    simp [State.movePieces, h0, Memory.readBytes]
  | succ fuel ih =>
    unfold State.movePieces
    split
    · generalize hm : min s.cfg.stageBytes (n - done) = m
      have hcfg := (frame_movePiece s true (base + done) m).cfg
      obtain ⟨h1, h2⟩ := ih (s.movePiece true (base + done) m) (done + m) (by rw [hcfg]; exact hc) (by omega)
      have e : n - done = m + (n - (done + m)) := by omega
      constructor
      · rw [h1, hcfg, mem_movePiece_true]
        conv_rhs => rw [e, Memory.readBytes_add, Nat.add_assoc]
        simp [State.movePiece, cardWrites_sendBytes, cardWrites]
      · rw [h2]
        simp [State.movePiece, cardReads_sendBytes, cardReads]
    · have h0 : n - done = 0 := by omega
      simp [h0, Memory.readBytes]

/-- The read direction stores the card's bytes in order at the rest of the chunk (R259). -/
theorem readBytes_movePieces_false {s : State} (hw : s.mem.wf s.cfg.addrBits = true) (base n done fuel : Nat)
    (hc : 1 ≤ s.cfg.stageBytes) (hf : n - done ≤ fuel) :
    (n ≤ 2 ^ s.cfg.addrBits →
      (s.movePieces false base n done fuel).mem.readBytes s.cfg.addrBits (base + done) (n - done) =
        s.card.gives (n - done)) ∧
      (s.movePieces false base n done fuel).card = s.card.after (n - done) ∧
      cardReads (s.movePieces false base n done fuel).trace =
        (s.card.gives (n - done)).reverse ++ cardReads s.trace ∧
      cardWrites (s.movePieces false base n done fuel).trace = cardWrites s.trace := by
  induction fuel generalizing s done with
  | zero =>
    have h0 : n - done = 0 := by omega
    simp [State.movePieces, h0, Memory.readBytes, Card.gives, Card.after]
  | succ fuel ih =>
    unfold State.movePieces
    split
    · generalize hm : min s.cfg.stageBytes (n - done) = m
      generalize ha : base + done = a
      have hcfg := (frame_movePiece s false a m).cfg
      have hcard : (s.movePiece false a m).card = s.card.after m := by
        simp [State.movePiece, card_takeBytes]
      have hmem : (s.movePiece false a m).mem = s.mem.writeBytes s.cfg.addrBits a (s.card.gives m) := by
        simp [State.movePiece, takeBytes_fst, (frame_takeBytes s m).cfg]
      have ea : a + m = base + (done + m) := by omega
      obtain ⟨h1, h2, h3, h4⟩ := ih (s := s.movePiece false a m) (by rw [hcfg]; exact memWf_movePiece hw false a m)
        (done + m) (by rw [hcfg]; exact hc) (by omega)
      rw [hcfg, hcard] at h1
      rw [hcard] at h2 h3
      have e : n - done = m + (n - (done + m)) := by omega
      refine ⟨fun hn => ?_, ?_, ?_, ?_⟩
      · rw [e, Memory.readBytes_add, Card.gives_add, ea, h1 hn]
        congr 1
        have hb : ∀ k, k < m →
            Memory.read ((s.movePiece false a m).movePieces false base n (done + m) fuel).mem
              ((a + k) % 2 ^ s.cfg.addrBits) =
            Memory.read (s.movePiece false a m).mem ((a + k) % 2 ^ s.cfg.addrBits) := by
          intro k hk
          apply read_movePieces_outside
          right
          intro j hj hjn
          rw [hcfg, ← ha, Nat.add_assoc]
          exact Memory.addr_ne (by omega) (by omega) (by omega)
        rw [Memory.readBytes_congr _ _ _ _ _ hb, hmem]
        simpa using Memory.readBytes_writeBytes hw a (s.card.gives m) (by simp; omega)
      · conv_rhs => rw [e]
        rw [h2, Card.after_add]
      · rw [h3]
        conv_rhs => rw [e, Card.gives_add]
        simp [State.movePiece, cardReads_takeBytes, cardReads]
      · rw [h4]
        simp [State.movePiece, cardWrites_takeBytes, cardWrites]
    · have h0 : n - done = 0 := by omega
      simp [h0, Memory.readBytes, Card.gives, Card.after]

/-! ### One descriptor -/

/-- What a descriptor's step leaves after the movement: the write-back's event and bytes (R260, R261). -/
theorem processDesc_trace (s : State) (wr : Bool) (dptr : Word) (d : Desc) :
    (s.processDesc wr dptr d).trace =
      .memWrite (s.cfg.byteAddr dptr 0) ((d.handedBack s.cfg).toBytes s.cfg.descByteOrder) ::
        (s.moveChunk wr (d.base s.cfg).toNat (d.chunk s.cfg (s.cell .bycr))).trace := by
  simp [State.processDesc, State.countDown, Cfg.byteAddr, (frame_moveChunk s wr _ _).cfg]

theorem cardCommands_processDesc (s : State) (wr : Bool) (dptr : Word) (d : Desc) :
    cardCommands (s.processDesc wr dptr d).trace = cardCommands s.trace := by
  rw [processDesc_trace]
  exact cardCommands_movePieces s wr _ _ _ _

/-- A movement calls the card for its bytes alone, all sent or all taken: no command, no readiness check. -/
theorem cardCalls_movePieces (s : State) (wr : Bool) (base n done fuel : Nat) :
    ∃ b, cardCalls (s.movePieces wr base n done fuel).trace =
        (if wr then b.map ExtEvent.cardWrite else b.map ExtEvent.cardRead) ++ cardCalls s.trace ∧
      (if wr then cardWrites (s.movePieces wr base n done fuel).trace = b ++ cardWrites s.trace
        else cardReads (s.movePieces wr base n done fuel).trace = b ++ cardReads s.trace) := by
  induction fuel generalizing s done with
  | zero => exact ⟨[], by simp [State.movePieces]⟩
  | succ fuel ih =>
    unfold State.movePieces
    split
    · obtain ⟨b, h1, h2⟩ := ih (s.movePiece wr (base + done) (min s.cfg.stageBytes (n - done)))
        (done + min s.cfg.stageBytes (n - done))
      rw [h1]
      cases wr
      · simp only [Bool.false_eq_true, if_false] at h2 ⊢
        refine ⟨b ++ (s.card.gives (min s.cfg.stageBytes (n - done))).reverse, ?_, ?_⟩
        · simp [State.movePiece, cardCalls_takeBytes]
        · rw [h2]; simp [State.movePiece, cardReads, cardReads_takeBytes]
      · simp only [if_true] at h2 ⊢
        refine ⟨b ++ (s.mem.readBytes s.cfg.addrBits (base + done) (min s.cfg.stageBytes (n - done))).reverse, ?_, ?_⟩
        · simp [State.movePiece, cardCalls_sendBytes]
        · rw [h2]; simp [State.movePiece, cardWrites, cardWrites_sendBytes]
    · exact ⟨[], by simp⟩

/-- A descriptor's step calls the card for the bytes of its chunk, in order, and for nothing else (R258, R259). -/
theorem cardCalls_processDesc (s : State) (wr : Bool) (dptr : Word) (d : Desc) :
    ∃ b, cardCalls (s.processDesc wr dptr d).trace =
        (if wr then b.map ExtEvent.cardWrite else b.map ExtEvent.cardRead) ++ cardCalls s.trace ∧
      (if wr then cardWrites (s.processDesc wr dptr d).trace = b ++ cardWrites s.trace
        else cardReads (s.processDesc wr dptr d).trace = b ++ cardReads s.trace) := by
  rw [processDesc_trace]
  exact cardCalls_movePieces s wr _ _ _ _

/-- The write direction: the card is sent the buffer in order, memory changes only by the write-back (R258). -/
theorem processDesc_write (s : State) (dptr : Word) (d : Desc) (hc : 1 ≤ s.cfg.stageBytes) :
    cardWrites (s.processDesc true dptr d).trace =
        (s.mem.readBytes s.cfg.addrBits (d.base s.cfg).toNat (d.chunk s.cfg (s.cell .bycr))).reverse ++
          cardWrites s.trace ∧
      cardReads (s.processDesc true dptr d).trace = cardReads s.trace ∧
      (s.processDesc true dptr d).mem =
        s.mem.writeBytes s.cfg.addrBits dptr.toNat ((d.handedBack s.cfg).toBytes s.cfg.descByteOrder) := by
  have h := cardWrites_movePieces_true s (d.base s.cfg).toNat (d.chunk s.cfg (s.cell .bycr)) 0
    (d.chunk s.cfg (s.cell .bycr)) hc (by omega)
  refine ⟨?_, ?_, ?_⟩
  · simpa [processDesc_trace, cardWrites, State.moveChunk] using h.1
  · simpa [processDesc_trace, cardReads, State.moveChunk] using h.2
  · simp [State.processDesc, State.countDown, State.moveChunk, mem_movePieces_true, (frame_movePieces s true _ _ _ _).cfg]

/-- The read direction: the card gives its next bytes, and the buffer holds them in order where the descriptor does not
overlap it (R259). -/
theorem processDesc_read {s : State} (hw : s.mem.wf s.cfg.addrBits = true) (dptr : Word) (d : Desc)
    (hc : 1 ≤ s.cfg.stageBytes) :
    cardReads (s.processDesc false dptr d).trace =
        (s.card.gives (d.chunk s.cfg (s.cell .bycr))).reverse ++ cardReads s.trace ∧
      cardWrites (s.processDesc false dptr d).trace = cardWrites s.trace ∧
      (s.processDesc false dptr d).card = s.card.after (d.chunk s.cfg (s.cell .bycr)) ∧
      (d.chunk s.cfg (s.cell .bycr) ≤ 2 ^ s.cfg.addrBits →
        (∀ j k, j < descBytes → k < d.chunk s.cfg (s.cell .bycr) →
          s.cfg.byteAddr dptr j ≠ s.cfg.byteAddr (d.base s.cfg) k) →
        (s.processDesc false dptr d).mem.readBytes s.cfg.addrBits (d.base s.cfg).toNat
          (d.chunk s.cfg (s.cell .bycr)) = s.card.gives (d.chunk s.cfg (s.cell .bycr))) := by
  obtain ⟨h1, h2, h3, h4⟩ := readBytes_movePieces_false hw (d.base s.cfg).toNat (d.chunk s.cfg (s.cell .bycr)) 0
    (d.chunk s.cfg (s.cell .bycr)) hc (by omega)
  refine ⟨?_, ?_, ?_, fun hn hd => ?_⟩
  · simpa [processDesc_trace, cardReads, State.moveChunk] using h3
  · simpa [processDesc_trace, cardWrites, State.moveChunk] using h4
  · simpa [State.processDesc, State.countDown, State.moveChunk] using h2
  · have h1 := h1 hn
    rw [Nat.add_zero, Nat.sub_zero] at h1
    rw [← h1]
    apply Memory.readBytes_congr
    intro k hk
    simp only [State.processDesc, State.countDown, State.mem_setCell, State.mem_setXfer, State.mem_memWrite,
      State.moveChunk, (frame_movePieces s false _ _ _ _).cfg]
    apply Memory.read_writeBytes_outside
    intro j hj
    rw [length_toBytes] at hj
    exact (hd j k hj hk).symm

end Sys2Proof.Machine
end

