-- ==== Sys2Proof/Tests/Slice0.lean ====
section
/-! SUPPORT. Tests: ill-formed terms are refused; words written out from the encodings of 30_encoding.md and from
spec/opcode_table.json decode to their rows; single steps of the vectors and programs of 95_test_vectors.md (named after
them); witnesses that meet the hypotheses of each obligation. Every expected value is the spec's. -/

namespace Sys2Proof.Tests

open Sys2Proof.Machine Sys2Proof.Claims

/-- Power-on with a scripted card (`.card` and `.cardrx`) and a memory. -/
def withCard (answers : List (BitVec 6 × List Byte)) (rx : List Byte) (mem : Memory) : State :=
  State.powerOn Cfg.default (.scripted answers rx 0) mem

/-- A state with some cells set. -/
def cells (s : State) : List (Cell × Word) → State
  | [] => s
  | (c, v) :: rest => cells (s.setCell c v) rest

/-- A row of the opcode table on `s`. -/
def runRow (s : State) (i : Instr) : State :=
  match exec i s with
  | .next t => t
  | _ => s

/-- One step of `s` on one input. -/
def run (s : State) (inp : Input) : State :=
  match step { s with inbox := [inp] } with
  | .next t => t
  | _ => s

/-- A legal write to a header's register. -/
def wr (header : BitVec 13) (v : Word) : Input := .mmio header 0 4 v

/-- A legal read of a header's register. -/
def rd (header : BitVec 13) : Input := .mmio header 0 4 0

/-- The value the last event handed to the bus master. -/
def lastRead (s : State) : Option Word :=
  match s.trace with
  | .busRead _ v :: _ => some v
  | _ => none

/-- Memory holding descriptors (`.desc`). -/
def descs : List (Word × Desc) → Memory
  | [] => []
  | (a, d) :: rest => (descs rest).writeBytes 32 a.toNat (d.toBytes .little)

/-! ### WellFormed refuses an ill-formed term of each kind -/

theorem test_wellFormed_refuses_unknown_at_a_register :
    (Instr.wrxUnknownOffset 0x018 5).wellFormed Cfg.default = false ∧ (Instr.rdxUnknownOffset 0x200).wellFormed Cfg.default = false := by decide
theorem test_wellFormed_refuses_unknown_misaligned :
    (Instr.wrxUnknownOffset 0x049 5).wellFormed Cfg.default = false ∧ (Instr.rdxUnknownOffset 0x206).wellFormed Cfg.default = false := by decide
theorem test_wellFormed_refuses_illegal_with_legal_shape :
    (Instr.wrxIllegalAccess 0x018 4 5).wellFormed Cfg.default = false ∧ (Instr.rdxIllegalAccess 0x204 4).wellFormed Cfg.default = false := by
  decide
theorem test_wellFormed_refuses_wrong_command_class :
    (Instr.cmdStore 0x80000000).wellFormed Cfg.default = false ∧ (Instr.cmdClkchg 0x80000048).wellFormed Cfg.default = false ∧
    (Instr.cmdNoresp 0x80000040).wellFormed Cfg.default = false ∧ (Instr.cmdShort 0x800000C2).wellFormed Cfg.default = false ∧
    (Instr.cmdLong 0x80000048).wellFormed Cfg.default = false := by decide
theorem test_wellFormed_refuses_wrong_descriptor_class :
    (Instr.descLast 0 ⟨0x80000018, 8, 0, 0⟩).wellFormed Cfg.default = false ∧
    (Instr.descLink 0 ⟨0x80000014, 8, 0, 0⟩).wellFormed Cfg.default = false := by decide
theorem test_cfg_wf_refuses_no_staging_buffer :
    (Cfg.wf { Cfg.default with stageBytes := 0 }) = false ∧ Cfg.default.wf = true := by decide

/-! ### Every row's word decodes to its row (header `W ++ OFFSET`, codes, class bits) -/

theorem test_decode_writes_1 :
    [((0x1000 : BitVec 13), Instr.wrGctl 7), ((0x1004 : BitVec 13), Instr.wrCkcr 7), ((0x1008 : BitVec 13), Instr.wrTmor 7),
    ((0x100C : BitVec 13), Instr.wrBwdr 7), ((0x1010 : BitVec 13), Instr.wrBksr 7), ((0x1014 : BitVec 13), Instr.wrBycr 7),
    ((0x1018 : BitVec 13), Instr.wrCmdr 7), ((0x101C : BitVec 13), Instr.wrCagr 7), ((0x1020 : BitVec 13), Instr.wrResp0 7),
    ((0x1024 : BitVec 13), Instr.wrResp1 7), ((0x1028 : BitVec 13), Instr.wrResp2 7), ((0x102C : BitVec 13), Instr.wrResp3 7),
    ((0x1030 : BitVec 13), Instr.wrImkr 7), ((0x1034 : BitVec 13), Instr.wrMisr 7), ((0x1038 : BitVec 13), Instr.wrRisr 7),
    ((0x103C : BitVec 13), Instr.wrStar 7), ((0x1040 : BitVec 13), Instr.wrFwlr 7), ((0x1044 : BitVec 13), Instr.wrFuns 7),
    ((0x1050 : BitVec 13), Instr.wrDbgc 7), ((0x1058 : BitVec 13), Instr.wrA12a 7)].all (fun e =>
      decide (decodeMmio Cfg.default e.1 0 4 7 = e.2)) = true := by decide
theorem test_decode_writes_2 :
    [((0x105C : BitVec 13), Instr.wrNtsr 7), ((0x1060 : BitVec 13), Instr.wrSdbg 7), ((0x1078 : BitVec 13), Instr.wrHwrst 7),
    ((0x1080 : BitVec 13), Instr.wrDmac 7), ((0x1084 : BitVec 13), Instr.wrDlba 7), ((0x1088 : BitVec 13), Instr.wrIdst 7),
    ((0x108C : BitVec 13), Instr.wrIdie 7), ((0x1100 : BitVec 13), Instr.wrThldc 7), ((0x110C : BitVec 13), Instr.wrDsbd 7),
    ((0x1110 : BitVec 13), Instr.wrResCrc 7), ((0x1114 : BitVec 13), Instr.wrData7Crc 7), ((0x1118 : BitVec 13), Instr.wrData6Crc 7),
    ((0x111C : BitVec 13), Instr.wrData5Crc 7), ((0x1120 : BitVec 13), Instr.wrData4Crc 7), ((0x1124 : BitVec 13), Instr.wrData3Crc 7),
    ((0x1128 : BitVec 13), Instr.wrData2Crc 7), ((0x112C : BitVec 13), Instr.wrData1Crc 7), ((0x1130 : BitVec 13), Instr.wrData0Crc 7),
    ((0x1134 : BitVec 13), Instr.wrCrcSta 7), ((0x1200 : BitVec 13), Instr.wrFifo 7)].all (fun e =>
      decide (decodeMmio Cfg.default e.1 0 4 7 = e.2)) = true := by decide
theorem test_decode_reads_1 :
    [((0x0000 : BitVec 13), Instr.rdGctl), ((0x0004 : BitVec 13), Instr.rdCkcr), ((0x0008 : BitVec 13), Instr.rdTmor),
    ((0x000C : BitVec 13), Instr.rdBwdr), ((0x0010 : BitVec 13), Instr.rdBksr), ((0x0014 : BitVec 13), Instr.rdBycr),
    ((0x0018 : BitVec 13), Instr.rdCmdr), ((0x001C : BitVec 13), Instr.rdCagr), ((0x0020 : BitVec 13), Instr.rdResp0),
    ((0x0024 : BitVec 13), Instr.rdResp1), ((0x0028 : BitVec 13), Instr.rdResp2), ((0x002C : BitVec 13), Instr.rdResp3),
    ((0x0030 : BitVec 13), Instr.rdImkr), ((0x0034 : BitVec 13), Instr.rdMisr), ((0x0038 : BitVec 13), Instr.rdRisr),
    ((0x003C : BitVec 13), Instr.rdStar), ((0x0040 : BitVec 13), Instr.rdFwlr), ((0x0044 : BitVec 13), Instr.rdFuns),
    ((0x0050 : BitVec 13), Instr.rdDbgc), ((0x0058 : BitVec 13), Instr.rdA12a)].all (fun e =>
      decide (decodeMmio Cfg.default e.1 0 4 0 = e.2)) = true := by decide
theorem test_decode_reads_2 :
    [((0x005C : BitVec 13), Instr.rdNtsr), ((0x0060 : BitVec 13), Instr.rdSdbg), ((0x0078 : BitVec 13), Instr.rdHwrst),
    ((0x0080 : BitVec 13), Instr.rdDmac), ((0x0084 : BitVec 13), Instr.rdDlba), ((0x0088 : BitVec 13), Instr.rdIdst),
    ((0x008C : BitVec 13), Instr.rdIdie), ((0x0100 : BitVec 13), Instr.rdThldc), ((0x010C : BitVec 13), Instr.rdDsbd),
    ((0x0110 : BitVec 13), Instr.rdResCrc), ((0x0114 : BitVec 13), Instr.rdData7Crc), ((0x0118 : BitVec 13), Instr.rdData6Crc),
    ((0x011C : BitVec 13), Instr.rdData5Crc), ((0x0120 : BitVec 13), Instr.rdData4Crc), ((0x0124 : BitVec 13), Instr.rdData3Crc),
    ((0x0128 : BitVec 13), Instr.rdData2Crc), ((0x012C : BitVec 13), Instr.rdData1Crc), ((0x0130 : BitVec 13), Instr.rdData0Crc),
    ((0x0134 : BitVec 13), Instr.rdCrcSta), ((0x0200 : BitVec 13), Instr.rdFifo)].all (fun e =>
      decide (decodeMmio Cfg.default e.1 0 4 0 = e.2)) = true := by decide
theorem test_decode_catch_all :
    decodeMmio Cfg.default 0x1048 0 4 5 = .wrxUnknownOffset 0x048 5 ∧ decodeMmio Cfg.default 0x0204 0 4 0 = .rdxUnknownOffset 0x204 ∧
    decodeMmio Cfg.default 0x0000 1 4 0 = .rdxUnknownOffset 0x1000 ∧ decodeMmio Cfg.default 0x1019 0 1 1 = .wrxIllegalAccess 0x019 1 1 ∧
    decodeMmio Cfg.default 0x101A 0 4 9 = .wrxIllegalAccess 0x01A 4 9 ∧ decodeMmio Cfg.default 0x0002 0 2 0 = .rdxIllegalAccess 0x002 2 := by decide
theorem test_decode_events :
    (match decodeInput Cfg.default (.event 0b000 Snapshot.zero) with | .ok i => i == .evInsert | _ => false) = true ∧
    (match decodeInput Cfg.default (.event 0b001 Snapshot.zero) with | .ok i => i == .evRemove | _ => false) = true ∧
    (match decodeInput Cfg.default (.event 0b010 Snapshot.zero) with | .ok i => i == .evReset | _ => false) = true ∧
    (match decodeInput Cfg.default (.event 0b011 Snapshot.zero) with | .ok i => i == .evSave | _ => false) = true ∧
    (match decodeInput Cfg.default (.event 0b100 Snapshot.zero) with | .ok i => i == .evRestore Snapshot.zero | _ => false) = true := by
  decide
theorem test_decode_refuses_unused_codes_by_name :
    (match decodeInput Cfg.default (.event 0b111 Snapshot.zero) with | .error e => e == .unusedEventCode | _ => false) = true ∧
    (match decode Cfg.default (.descriptor 0 [1, 2, 3]) with | .error e => e == .descriptorLength | _ => false) = true := by decide
theorem test_decode_commands :
    decodeCommand Positions.default 0x7FFFFFFF = .cmdStore 0x7FFFFFFF ∧ decodeCommand Positions.default 0x80202000 = .cmdClkchg 0x80202000 ∧
    decodeCommand Positions.default 0x8000008D = .cmdNoresp 0x8000008D ∧ decodeCommand Positions.default 0x80000048 = .cmdShort 0x80000048 ∧
    decodeCommand Positions.default 0x800000C2 = .cmdLong 0x800000C2 := by decide
/-- `.desc 0x1010: 0x80000014, 8, 0x3000, 0` and `.desc 0x1000: 0x80000018, 8, 0x2000, 0x1010`, as bytes. -/
theorem test_decode_descriptors :
    decodeDesc Positions.default 0x1010 (Desc.ofBytes .little [0x14, 0, 0, 0x80, 8, 0, 0, 0, 0, 0x30, 0, 0, 0, 0, 0, 0]) =
      .descLast 0x1010 ⟨0x80000014, 8, 0x3000, 0⟩ ∧
    decodeDesc Positions.default 0x1000 (Desc.ofBytes .little [0x18, 0, 0, 0x80, 8, 0, 0, 0, 0, 0x20, 0, 0, 0x10, 0x10, 0, 0]) =
      .descLink 0x1000 ⟨0x80000018, 8, 0x2000, 0x1010⟩ := by decide
theorem test_decodeTableWord :
    decodeTableWord 16 0x1018 = some (.wrCmdr 0) ∧ decodeTableWord 16 0x0200 = some .rdFifo ∧
    decodeTableWord 8 3 = some .evSave ∧ decodeTableWord 32 0x80000040 = some (.cmdShort 0x80000040) ∧
    decodeTableWord 32 4 = some (.descLast 0 ⟨4, 0, 0, 0⟩) := by decide
theorem test_withFetchWord_runs_next :
    (match step (State.reset.withFetchWord 16 0x1024) with | .next t => t.inbox == [] | _ => false) = true := by decide
/-- A descriptor's word runs inside a `WR CMDR`, whose walk hands the descriptor at 0 back with only `HOLD` changed. -/
theorem test_withFetchWord_walks_a_descriptor :
    (match step ((cells State.reset [(.bycr, 2)]).withFetchWord 32 0x00000004) with
      | .next t => t.cell .bycr == 0 && t.cell .idst == 1 && t.mem.readBytes 32 0 4 == [4, 0, 0, 0]
      | _ => false) = true := by decide
theorem test_pseudo_send : Pseudo.expand Positions.default (.send 8 0x1AA 0x40) = [.wrCagr 0x1AA, .wrCmdr 0x80000048] := by decide
/-- The window is the bus address less `MMIO_BASE`; outside it nothing reaches the device (20_memory.md R71). -/
theorem test_busInput :
    let c := { Cfg.default with mmioBase := 0x01C0F000 }
    busInput c 0x01C0F018 true 4 0x80000048 = some (.mmio 0x1018 0 4 0x80000048) ∧
    busInput c 0x01C10000 true 4 0 = none := by decide
/-- R6 refuses a map with two registers at one offset, an offset outside the window and two fields on one bit. -/
theorem test_cfg_wf_refuses_a_bad_map :
    Cfg.wf { Cfg.default with offsets := { Offsets.default with ckcr := 0 } } = false ∧
    Cfg.wf { Cfg.default with mmioSize := 0x200 } = false ∧
    Cfg.wf { Cfg.default with pos := { Positions.default with respExp := 5 } } = false := by decide
/-- The configured map and positions are the ones used: `CKCR` at 0x048, `LOAD` at bit 30. -/
theorem test_cfg_map_is_used :
    let c := { Cfg.default with
      offsets := { Offsets.default with ckcr := 0x048 }, pos := { Positions.default with load := 30 } }
    c.wf = true ∧ decodeMmio c 0x1048 0 4 5 = .wrCkcr 5 ∧ decodeMmio c 0x1004 0 4 5 = .wrxUnknownOffset 0x004 5 ∧
    decodeCommand c.pos 0x40000048 = .cmdShort 0x40000048 := by decide

/-! ### Register access (95_test_vectors.md section 2.1) -/

/-- V40.1. -/
theorem test_V40_1_tmor : lastRead (run (withCard [] [] []) (rd 0x0008)) = some 0xFFFFFF40 := by decide
/-- S1. -/
theorem test_S1_ckcr : (run (withCard [] [] []) (wr 0x1004 0xA5A5F00F)).cell .ckcr = 0xA5A5F00F := by decide
/-- V40.3. -/
theorem test_V40_3_gctl : (run (withCard [] [] []) (wr 0x1000 0xFFFFFFFF)).cell .gctl = 0xFFFFFFF8 := by decide
/-- V40.4: no strobe resets anything. -/
theorem test_V40_4_strobes :
    let t := run { withCard [] [] [] with xfer := 5 } (wr 0x1000 7)
    t.cell .gctl = 0 ∧ t.xfer = 5 ∧ t.cell .bycr = 0x200 := by decide
/-- V40.6. -/
theorem test_V40_6_bycr :
    let t := run (withCard [] [] []) (wr 0x1014 0x400)
    t.cell .bycr = 0x400 ∧ t.xfer = 1024 := by decide
/-- V40.7: the card sees command 0 and then the stop command. -/
theorem test_V40_7_autostop :
    let t := run (cells (withCard [(0, [0, 0, 9, 0]), (12, [0, 0, 0xB, 0])] [] []) [(.bycr, 0)]) (wr 0x1018 0x80001040)
    cardCommands t.trace = [(12, 0), (0, 0)] ∧ t.cell .resp0 = 0xB00 ∧ t.cell .risr = 0x4004 := by decide
/-- V40.8, with a card present. -/
theorem test_V40_8_star :
    let t := run (cells (withCard [] [] []) [(.star, 0x100)]) (wr 0x103C 0xFFFFFFFF)
    t.cell .star = 0x100 ∧ t.log = [] := by decide
/-- V40.9: the fixed-zero block. -/
theorem test_V40_9_crc :
    lastRead (run (withCard [] [] []) (rd 0x0110)) = some 0 ∧ (run (withCard [] [] []) (wr 0x1110 5)).log = [] := by decide
/-- V40.10. -/
theorem test_V40_10_resp2 :
    lastRead (run (cells (withCard [] [] []) [(.resp2, 0x12345678)]) (rd 0x0028)) = some 0x12345678 := by decide
/-- V40.11. -/
theorem test_V40_11_idst : (run (cells (withCard [] [] []) [(.idst, 0x102)]) (wr 0x1088 0xFFFFFFFF)).cell .idst = 0 := by
  decide
/-- V40.12. -/
theorem test_V40_12_dlba : (run (withCard [] [] []) (wr 0x1084 0x1003)).cell .dlba = 0x1003 := by decide
/-- V40.13. -/
theorem test_V40_13_unknown : (run (withCard [] [] []) (wr 0x1048 5)).log = [.badOffset true 0x48] := by decide
/-- V40.15: beyond the window. -/
theorem test_V40_15_unknown :
    let t := run (withCard [] [] []) (.mmio 0 1 4 0)
    t.log = [.badOffset false 0x1000] ∧ lastRead t = some 0 := by decide
/-- V40.18: a wide access dispatches nothing. -/
theorem test_V40_18_illegal :
    let t := run (withCard [] [] []) (.mmio 0x1018 0 8 0x80000000)
    t.log = [.badAccess true 0x18 8] ∧ t.cell .cmdr = 0 ∧ t.trace = [] := by decide
/-- V40.17. -/
theorem test_V40_17_illegal :
    let t := run (withCard [] [] []) (.mmio 0x0002 0 2 0)
    t.log = [.badAccess false 2 2] ∧ lastRead t = some 0 := by decide

/-! ### Command engine (section 2.2), with its card -/

/-- The card of section 2.2. -/
def card22 : State :=
  withCard [(0, []), (2, [0x10, 0x11, 0x12, 0x13, 0x14, 0x15, 0x16, 0x17, 0x18, 0x19, 0x1A, 0x1B, 0x1C, 0x1D, 0x1E, 0x1F]),
    (8, [0, 0, 1, 0xAA]), (13, [0, 0, 9, 0]), (12, [0, 0, 0xB, 0])] [] []

/-- V40.5. -/
theorem test_V40_5_store :
    let t := run card22 (.command 0x7FFFFFFF)
    t.cell .cmdr = 0x7FFFFFFF ∧ t.cell .risr = 0 ∧ cardCommands t.trace = [] := by decide
/-- V41.1. -/
theorem test_V41_1_clkchg :
    let t := run card22 (.command 0x80202000)
    t.cell .cmdr = 0x00202000 ∧ t.cell .risr = 4 ∧ cardCommands t.trace = [] := by decide
/-- V41.13: clock change with autostop. -/
theorem test_V41_13_clkchg_autostop :
    let t := run card22 (.command 0x80201000)
    t.cell .risr = 0x4004 ∧ t.cell .resp0 = 0 ∧ cardCommands t.trace = [] := by decide
/-- V41.2. -/
theorem test_V41_2_noresp :
    let t := run card22 (.command 0x80000000)
    t.cell .cmdr = 0 ∧ t.cell .risr = 4 ∧ cardCommands t.trace = [(0, 0)] := by decide
/-- V41.10: a response nobody expects is discarded. -/
theorem test_V41_10_noresp :
    let t := run card22 (.command 0x8000000D)
    t.cell .risr = 4 ∧ t.cell .resp0 = 0 := by decide
/-- V41.3. -/
theorem test_V41_3_short :
    let t := run (cells card22 [(.cagr, 0x1AA), (.resp3, 9)]) (.command 0x80000048)
    t.cell .cmdr = 0x48 ∧ t.cell .resp0 = 0x1AA ∧ t.cell .resp3 = 0 ∧ t.cell .risr = 4 ∧
    cardCommands t.trace = [(8, 0x1AA)] := by decide
/-- V41.7, the source's S4. -/
theorem test_V41_7_short_mismatch :
    let t := run (cells card22 [(.resp0, 9)]) (.command 0x80000042)
    t.cell .risr = 2 ∧ t.cell .resp0 = 9 := by decide
/-- V41.4, the source's S5. -/
theorem test_V41_4_long :
    let t := run card22 (.command 0x800000C2)
    t.cell .resp0 = 0x1C1D1E1F ∧ t.cell .resp1 = 0x18191A1B ∧ t.cell .resp2 = 0x14151617 ∧
    t.cell .resp3 = 0x10111213 ∧ t.cell .risr = 4 := by decide
/-- V41.6. -/
theorem test_V41_6_long_mismatch : (run card22 (.command 0x800000CD)).cell .risr = 2 := by decide

/-! ### DMA engine (section 2.3 and program P3) -/

/-- The state before step 7 of program P3. -/
def p3 : State :=
  { cells (withCard [(18, [0, 0, 9, 0]), (12, [0, 0, 0xB, 0])]
      [0xA0, 0xA1, 0xA2, 0xA3, 0xA4, 0xA5, 0xA6, 0xA7, 0xA8, 0xA9, 0xAA, 0xAB]
      (descs [(0x1000, ⟨0x80000018, 8, 0x2000, 0x1010⟩), (0x1010, ⟨0x80000014, 8, 0x3000, 0⟩)]))
      [(.gctl, 0x330), (.imkr, 0x400E), (.bksr, 4), (.bycr, 12), (.dlba, 0x1000), (.cagr, 0x40)] with xfer := 12 }

/-- P3 step 7: registers, line, the card's commands. -/
theorem test_P3_registers :
    let t := run p3 (wr 0x1018 0x80003252)
    t.cell .cmdr = 0x3252 ∧ t.cell .bycr = 0 ∧ t.xfer = 0 ∧ t.cell .risr = 0x400C ∧ t.cell .idst = 0x102 ∧
    t.cell .resp0 = 0xB00 ∧ t.irqLevel = true ∧ cardCommands t.trace = [(12, 0), (18, 0x40)] ∧ cardBytes t.trace = 12 := by
  decide
/-- V42.1's second descriptor, on the state its walk has then: `DESC.LAST`, write direction. -/
theorem test_V42_1_last :
    let s := { cells (withCard [(12, [0, 0, 0xB, 0])] []
        ((descs [(0x1010, ⟨0x80000014, 8, 0x3000, 0⟩)]).writeBytes 32 0x3000 [0x40, 0x41, 0x42, 0x43, 0x44]))
        [(.gctl, 0x20), (.bycr, 4), (.cmdr, 0x1659), (.risr, 4)] with xfer := 4 }
    let t := runRow s (.descLast 0x1010 ⟨0x80000014, 8, 0x3000, 0⟩)
    cardWrites t.trace = [0x43, 0x42, 0x41, 0x40] ∧ cardCommands t.trace = [(12, 0)] ∧ t.cell .bycr = 0 ∧
    t.cell .risr = 0x400C ∧ t.cell .idst = 1 ∧ t.cell .resp0 = 0xB00 ∧
    t.mem.readBytes 32 0x1010 16 = [0x14, 0, 0, 0, 8, 0, 0, 0, 0, 0x30, 0, 0, 0, 0, 0, 0] := by decide
/-- P3's second descriptor, on the state its walk has then: `DESC.LAST`, read direction. -/
theorem test_P3_last :
    let s := { cells (withCard [(12, [0, 0, 0xB, 0])] [0xA8, 0xA9, 0xAA, 0xAB] [])
        [(.gctl, 0x330), (.bycr, 4), (.cmdr, 0x3252), (.risr, 4)] with xfer := 4 }
    let t := runRow s (.descLast 0x1010 ⟨0x80000014, 8, 0x3000, 0⟩)
    t.mem.readBytes 32 0x3000 5 = [0xA8, 0xA9, 0xAA, 0xAB, 0] ∧ t.cell .idst = 0x102 ∧ t.cell .risr = 0x400C := by decide
/-- V42.3: a descriptor that points at itself is walked until the request is exhausted. -/
theorem test_V42_3_link_to_itself :
    let s := { cells (withCard [] []
        ((descs [(0x1000, ⟨0x80000010, 4, 0x2000, 0x1000⟩)]).writeBytes 32 0x2000 [9, 8, 7, 6]))
        [(.gctl, 0x20), (.bycr, 10), (.cmdr, 0x659), (.risr, 4)] with xfer := 10 }
    let t := runRow s (.descLink 0x1000 ⟨0x80000010, 4, 0x2000, 0x1000⟩)
    (cardWrites t.trace).reverse = [9, 8, 7, 6, 9, 8, 7, 6, 9, 8] ∧ t.cell .bycr = 0 ∧ t.cell .risr = 0x400C ∧
    t.mem.readBytes 32 0x1000 16 = [0x10, 0, 0, 0, 4, 0, 0, 0, 0, 0x20, 0, 0, 0, 0x10, 0, 0] := by decide
/-- V42.5: the request is smaller than the descriptor; `next` is not used. -/
theorem test_V42_5_link_request_exhausted :
    let s := { cells (withCard [] []
        ((descs [(0x1000, ⟨0x80000010, 0x100, 0x2000, 0x7777⟩)]).writeBytes 32 0x2000 [5, 6, 7, 8, 9]))
        [(.gctl, 0x20), (.bycr, 3), (.cmdr, 0x659), (.risr, 4)] with xfer := 3 }
    let t := runRow s (.descLink 0x1000 ⟨0x80000010, 0x100, 0x2000, 0x7777⟩)
    (cardWrites t.trace).reverse = [5, 6, 7] ∧ t.cell .bycr = 0 ∧ t.cell .risr = 0x400C ∧
    t.mem.readBytes 32 0x1000 16 = [0x10, 0, 0, 0, 0, 1, 0, 0, 0, 0x20, 0, 0, 0x77, 0x77, 0, 0] := by decide

/-! ### Interrupt coalescer and card presence (sections 2.4 and 2.5) -/

/-- V43.1 (c). -/
theorem test_V43_1_enable :
    (run (cells (withCard [] [] []) [(.risr, 4), (.imkr, 4)]) (wr 0x1000 0x310)).irqLevel = true := by decide
/-- V43.1 (d). -/
theorem test_V43_1_mask :
    (run (cells (withCard [] [] []) [(.risr, 4), (.imkr, 4), (.gctl, 0x310)]) (wr 0x1030 8)).trace = [.irqSet false] := by
  decide
/-- V43.1 (h). -/
theorem test_V43_1_acknowledge :
    let t := run (cells (withCard [] [] []) [(.risr, 4), (.imkr, 12), (.gctl, 0x310)]) (wr 0x1038 4)
    t.cell .risr = 0 ∧ t.trace = [.irqSet false] := by decide
/-- V43.1 (f): the masked status ignores `INT_ENB`. -/
theorem test_V43_1_misr :
    lastRead (run (cells (withCard [] [] []) [(.risr, 4), (.imkr, 12), (.gctl, 0x300)]) (rd 0x0034)) = some 4 := by decide
/-- V43.2. -/
theorem test_V43_2_misr :
    let t := run (cells (withCard [] [] []) [(.risr, 0x400C), (.imkr, 0x4000), (.gctl, 0x310)]) (wr 0x1034 4)
    t.cell .risr = 0x4008 ∧ t.trace = [.irqSet true] := by decide
/-- V43.3: DMA status and its enable do not reach the line. -/
theorem test_V43_3_idie :
    (run (cells (withCard [] [] []) [(.idst, 0x102), (.imkr, 0xFFFFFFFF), (.gctl, 0x310)]) (wr 0x108C 0xFFFFFFFF)).irqLevel =
      false := by decide
/-- P6 step 4. -/
theorem test_P6_insert :
    let t := run (cells (withCard [] [] []) [(.gctl, 0x310), (.imkr, 0xC0000000)]) (.event 0 Snapshot.zero)
    t.cell .star = 0x100 ∧ t.cell .risr = 0x40000000 ∧ t.irqLevel = true := by decide
/-- V44.3. -/
theorem test_V44_3_remove :
    let t := run (cells (withCard [] [] []) [(.star, 0x100), (.risr, 0x40000000)]) (.event 1 Snapshot.zero)
    t.cell .star = 0 ∧ t.cell .risr = 0x80000000 := by decide

/-! ### FIFO port, reset, snapshot (sections 2.6 and 2.7, programs P5 and P6) -/

/-- V45.1, the second word. -/
theorem test_V45_1_push :
    let t := run { cells (withCard [] [] []) [(.gctl, 0x10), (.imkr, 8), (.bycr, 8), (.cmdr, 0x658), (.risr, 4)] with xfer := 4 }
      (wr 0x1200 0x08070605)
    t.xfer = 0 ∧ t.cell .risr = 0xC ∧ t.irqLevel = true ∧ t.cell .bycr = 8 ∧ cardWrites t.trace = [8, 7, 6, 5] := by decide
/-- V45.4: from power-on the counter is already 0. -/
theorem test_V45_4_push :
    let t := run (withCard [] [] []) (wr 0x1200 0)
    t.cell .risr = 8 ∧ cardWrites t.trace = [0, 0, 0, 0] := by decide
/-- P5 step 6. -/
theorem test_P5_pop :
    let s := { cells (withCard [(12, [0, 0, 0xB, 0])] [0x55, 0x66, 0x77, 0x88] [])
      [(.gctl, 0x310), (.imkr, 0x4008), (.bycr, 8), (.cmdr, 0x3251), (.risr, 4), (.resp0, 0x900)] with xfer := 4 }
    let t := run s (rd 0x0200)
    lastRead t = some 0x88776655 ∧ t.xfer = 0 ∧ t.cell .risr = 0x400C ∧ t.cell .resp0 = 0xB00 ∧ t.irqLevel = true ∧
    cardCommands t.trace = [(12, 0)] := by decide
/-- V45.3. -/
theorem test_V45_3_pop_without_data :
    let t := run { withCard [] [] [] with xfer := 7 } (rd 0x0200)
    lastRead t = some 0 ∧ t.log = [.noData 0x200] ∧ t.xfer = 7 ∧ t.cell .risr = 0 := by decide
/-- P6 step 10. -/
theorem test_P6_reset :
    let t := run { cells (withCard [] [] []) [(.star, 0x100), (.risr, 0x40000000), (.imkr, 0xC0000000), (.bycr, 0x1234),
      (.gctl, 0x310), (.resp0, 0xAAAA)] with xfer := 0x1234 } (.event 2 Snapshot.zero)
    t.cell .star = 0x100 ∧ t.cell .risr = 0 ∧ t.cell .imkr = 0 ∧ t.cell .gctl = 0x300 ∧ t.cell .bycr = 0x200 ∧
    t.cell .resp0 = 0 ∧ t.xfer = 0 ∧ t.irqLevel = false := by decide
/-- V70.3: what a save returned is installed by a restore, line included. -/
theorem test_V70_3_save_restore :
    let s := { cells (withCard [] [] []) [(.gctl, 0x330), (.imkr, 0x400E), (.risr, 0x400C), (.cmdr, 0x3252)] with xfer := 3 }
    (run s (.event 3 Snapshot.zero)).trace = [.saved ⟨s.x, 3⟩ (Config.snapshotCodec.encode ⟨s.x, 3⟩)] ∧
    (let t := run (withCard [] [] []) (.event 4 ⟨s.x, 3⟩)
     t.x = s.x ∧ t.xfer = 3 ∧ t.irqLevel = true) := ⟨rfl, by decide⟩

/-! ### Witnesses: states and operands that meet the hypotheses of each obligation, all of them together, and each of its
clauses at a boundary of its range -/

/-- A descriptor that ends a chain, and one that does not. -/
def dLast : Desc := ⟨0x80000014, 8, 0x3000, 0⟩
def dLink : Desc := ⟨0x80000018, 8, 0x2000, 0x1010⟩

/-- Enabled for a walk of `n` bytes, `CMDR` as after the latch of `w`. -/
def ready (n w : Word) : State :=
  { cells (withCard [(12, [0, 0, 0xB, 0])] [1, 2, 3, 4] (descs [(0x1000, dLink), (0x1010, dLast)]))
      [(.gctl, 0x320), (.bycr, n), (.cmdr, w), (.dlba, 0x1000)] with xfer := n }

theorem test_witness_StepRunsTheDecodedOperation :
    ({ State.reset with inbox := [.event 2 Snapshot.zero] } : State).inbox = .event 2 Snapshot.zero :: [] ∧
    decodeInput Cfg.default (.event 2 Snapshot.zero) = .ok .evReset ∧
    decodeInput Cfg.default (.event 5 Snapshot.zero) = .error .unusedEventCode ∧ State.reset.inbox = [] :=
  ⟨rfl, rfl, rfl, rfl⟩
theorem test_witness_DecodeInvertsEncode :
    Cfg.default.wf = true ∧ (Instr.wrGctl 0xFFFFFFFF).wellFormed Cfg.default = true ∧
    Instr.evSave.wellFormed Cfg.default = true ∧ (Instr.wrxUnknownOffset 0xFFFFFFFC 5).wellFormed Cfg.default = true ∧
    (Instr.rdxUnknownOffset 0x204).wellFormed Cfg.default = true ∧
    (Instr.wrxIllegalAccess 0x018 8 5).wellFormed Cfg.default = true ∧
    (Instr.rdxIllegalAccess 0x001 4).wellFormed Cfg.default = true ∧
    (Instr.cmdStore 0x7FFFFFFF).wellFormed Cfg.default = true ∧
    (Instr.cmdClkchg 0x80202000).wellFormed Cfg.default = true ∧
    (Instr.cmdNoresp 0x80000000).wellFormed Cfg.default = true ∧
    (Instr.cmdShort 0x80000048).wellFormed Cfg.default = true ∧
    (Instr.cmdLong 0x800000C2).wellFormed Cfg.default = true ∧
    (Instr.descLast 0x1010 dLast).wellFormed Cfg.default = true ∧
    (Instr.descLink 0x1000 dLink).wellFormed Cfg.default = true := by decide
theorem test_witness_DecodedOperationsAreWellFormed :
    decode Cfg.default (.input (.mmio 0x1FFF 0xFFFFF 4 0)) = .ok (.wrxIllegalAccess 0xFFFFFFFF 4 0) ∧
    decode Cfg.default (.input (.command 0x800000C2)) = .ok (.cmdLong 0x800000C2) := ⟨rfl, rfl⟩
theorem test_witness_EncodedOperationRunsAsItself :
    State.reset.cfg.wf = true ∧ (Instr.descLast 0x1010 dLast).wellFormed State.reset.cfg = true ∧
    Instr.rdFifo.wellFormed State.reset.cfg = true := by decide
theorem test_witness_DescriptorClassFollowsLast :
    [(0x04 : Byte), 0, 0, 0x80, 8, 0, 0, 0, 0, 0x20, 0, 0, 0, 0, 0, 0].length = 16 ∧
    Cfg.default.descByteOrder = .little ∧ (0x80000004 : Word).getLsbD Cfg.default.pos.last = true ∧
    (0x80000018 : Word).getLsbD Cfg.default.pos.last = false ∧
    ({ Cfg.default with descByteOrder := .big } : Cfg).descByteOrder = .big := by decide
theorem test_witness_IllegalAccessIsLoggedAndIgnored :
    (3 ≠ 4 ∨ (busOffset 0x1018 0).toNat % 4 ≠ 0) ∧ (4 ≠ 4 ∨ (busOffset 0x0FFF 0xFFFFF).toNat % 4 ≠ 0) := by decide
theorem test_witness_UnknownOffsetIsLoggedAndIgnored :
    (busOffset 0x0204 0).toNat % 4 = 0 ∧
    (Reg.all.all (fun r => Cfg.default.offsets.get r != busOffset 0x0204 0)) = true ∧
    (busOffset 0x1FFC 0xFFFFF).toNat % 4 = 0 ∧
    (Reg.all.all (fun r => Cfg.default.offsets.get r != busOffset 0x1FFC 0xFFFFF)) = true ∧
    (Reg.all.all (fun r => Cfg.default.offsets.get r != busOffset 0x1000 1)) = true := by decide
theorem test_witness_LegalAccessRunsItsRegistersOperation :
    Cfg.default.wf = true ∧ busOffset 0x1000 0 = Cfg.default.offsets.get .gctl ∧
    busOffset 0x0200 0 = Cfg.default.offsets.get .fifo := by decide
theorem test_witness_PlainStorageRegistersRoundTrip :
    plainStorage.length = 19 ∧ State.reset.cell .tmor = 0xFFFFFF40 := by decide
theorem test_witness_MaskAndDmaControlWritesDriveTheLine :
    let s := cells (withCard [] [] []) [(.gctl, 0x310), (.risr, 4)]
    (run s (wr 0x1030 4)).irqLevel = true ∧ (run s (wr 0x1080 4)).irqLevel = s.irqLevel ∧
    (run s (wr 0x1080 4)).trace = [] ∧
    (run { s with cfg := { s.cfg with dmaControlDrivesLine := true } } (wr 0x1080 4)).trace = [.irqSet false] := by decide
theorem test_witness_GlobalControlWriteDropsTheStrobes : State.reset.cfg.wf = true := by decide
theorem test_witness_CardNotificationsSetPresenceAndStatus : State.reset.cfg.wf = true := by decide
theorem test_witness_ResetRestoresTheTableAndKeepsCardPresent :
    State.reset.cfg.rst = Regs.resetTable ∧ (cells State.reset [(.star, 0x100)]).cell .star = 0x100 := by decide
theorem test_witness_PowerOnIsTheResetState :
    Cfg.default.wf = true ∧ Cfg.default.rst.get .star &&& ~~~(bit Cfg.default.pos.cardPresent) = 0 ∧
    Cfg.default.rst = Regs.resetTable ∧ State.reset.cfg = Cfg.default ∧
    (State.reset.cell .star).getLsbD Cfg.default.pos.cardPresent = Cfg.default.cardPresentAtPowerOn := by decide
theorem test_witness_ResetStateHoldsTheDocumentedLiterals :
    Cell.cmdr ∉ [Cell.gctl, .tmor, .bksr, .bycr, .fwlr, .a12a, .ntsr, .hwrst] := by decide
theorem test_witness_SnapshotSavesAndRestoresRegistersAndCounter :
    (⟨State.reset.x, State.reset.xfer⟩ : Snapshot) = ⟨State.reset.x, State.reset.xfer⟩ := rfl

/-- `LOAD`, `CLKCHANGE`, `RESP_EXP`, `RESP_LONG`, `WRITE`, `AUTOSTOP` of a word in the default map. -/
def flags (w : Word) : List Bool :=
  let p := Cfg.default.pos
  [loadBit p w, clkChange p w, respExp p w, respLong p w, cmdWrite p w, autostop p w]

theorem test_witness_CommandWriteIsItsClassRow :
    State.reset.cfg.wf = true ∧ decodeInput Cfg.default (.command 0x00000000) = .ok (.cmdStore 0) ∧
    decodeInput Cfg.default (.command 0x80201000) = .ok (.cmdClkchg 0x80201000) ∧
    decodeInput Cfg.default (.command 0x80000080) = .ok (.cmdNoresp 0x80000080) ∧
    decodeInput Cfg.default (.command 0x80000048) = .ok (.cmdShort 0x80000048) ∧
    decodeInput Cfg.default (.command 0xFFDFFFFF) = .ok (.cmdLong 0xFFDFFFFF) := ⟨by decide, rfl, rfl, rfl, rfl, rfl⟩
theorem test_witness_CommandWordWithoutLoadIsOnlyStored : loadBit Cfg.default.pos 0x7FFFFFFF = false := by decide
theorem test_witness_ClockChangeCompletesWithoutTheCard :
    State.reset.cfg.wf = true ∧ flags 0x80201000 = [true, true, false, false, false, true] ∧
    State.reset.walkEnabled = false ∧ State.reset.xfer = 0 := by decide
theorem test_witness_CommandWithoutResponseDiscardsTheAnswer :
    card22.cfg.wf = true ∧ flags 0x80000037 = [true, false, false, false, false, false] ∧
    answer card22 0x80000037 = none ∧ answer card22 0x8000000D = some [0, 0, 9, 0] ∧
    flags 0x8000000D = [true, false, false, false, false, false] := by decide
theorem test_witness_ShortResponseIsCapturedMostSignificantFirst :
    card22.cfg.wf = true ∧ flags 0x80000048 = [true, false, true, false, false, false] ∧
    answer card22 0x80000048 = some [0, 0, 1, 0xAA] ∧ answer card22 0x80000077 = none ∧
    answer card22 0x80000040 = some [] := by decide
theorem test_witness_LongResponseIsStoredWordReversed :
    card22.cfg.wf = true ∧ flags 0x800000C2 = [true, false, true, true, false, false] ∧
    (answer card22 0x800000C2).map List.length = some 16 ∧ answer card22 0x800000CD = some [0, 0, 9, 0] ∧
    answer card22 0x800000F7 = none := by decide
theorem test_witness_DispatchFollowsTheOutcomeTable :
    card22.cfg.wf = true ∧ flags 0x80000000 = [true, false, false, false, false, false] ∧
    answer card22 0x80000077 = none ∧ answer card22 0x80000000 = some [] ∧
    answer card22 0x80000048 = some [0, 0, 1, 0xAA] ∧ (answer card22 0x80000042).map List.length = some 16 ∧
    (answer card22 0x800000C2).map List.length = some 16 ∧ answer card22 0x800000CD = some [0, 0, 9, 0] ∧
    answer card22 0x800000C0 = some [] := by decide
/-- No walk, with both answers to the stop command; a walk that leaves `XFER` 0; a walk that does not. -/
theorem test_witness_AutoStopSendsTheStopCommandUnseen :
    card22.cfg.wf = true ∧ flags 0x8000104D = [true, false, true, false, false, true] ∧
    card22.walkEnabled = false ∧ card22.xfer = 0 ∧ stopAnswer card22 0x8000104D = some [0, 0, 0xB, 0] ∧
    stopAnswer (withCard [] [] []) 0x8000104D = none ∧
    cardCommands (run (ready 12 0) (wr 0x1018 0x80001659)).trace = [(12, 0), (0x19, 0)] ∧
    cardCommands (run { ready 12 0 with xfer := 13 } (wr 0x1018 0x80001659)).trace = [(0x19, 0)] := by decide
theorem test_witness_EveryOperationWritesOnlyItsOwnCells : ∃ t, exec .evSave State.reset = .next t := ⟨_, rfl⟩
theorem test_witness_OnlyTheWalkWritesMemoryAndOnlyDataPathsReachTheCard :
    mayWalk Cfg.default.pos (.cmdStore 0) = false ∧ mayCallCard Cfg.default.pos (.wrCmdr 0x7FFFFFFF) = false ∧
    mayWalk Cfg.default.pos (.wrFifo 0) = false ∧
    ∃ t, exec (.wrCmdr 0x7FFFFFFF) State.reset = .next t := ⟨rfl, by decide, rfl, _, rfl⟩
theorem test_witness_OnlyByteCountWriteAndRestoreRaiseTheCounter :
    ∃ t, exec (.wrBycr 1) State.reset = .next t ∧ State.reset.xfer.toNat < t.xfer.toNat := ⟨_, rfl, by decide⟩
theorem test_witness_RawStatusIsSticky :
    let s := cells (withCard [] [] []) [(.risr, 0x80000001)]
    ∃ t, exec (.wrRisr 1) s = .next t ∧ (s.cell .risr).getLsbD 0 = true ∧ (t.cell .risr).getLsbD 0 = false :=
  ⟨_, rfl, by decide, by decide⟩
theorem test_witness_CardPresentFollowsNotificationsOnly :
    ∃ t, exec .evInsert State.reset = .next t ∧
      (t.cell .star).getLsbD State.reset.cfg.pos.cardPresent ≠
        (State.reset.cell .star).getLsbD State.reset.cfg.pos.cardPresent := ⟨_, rfl, by decide⟩
/-- What the walk statements ask of a state. -/
def walkable (s : State) : Bool :=
  s.walkEnabled && s.cfg.wf && s.mem.wf s.cfg.addrBits && decide (descBytes ≤ 2 ^ s.cfg.addrBits)

/-- No address of the first range is one of the second, in the default configuration. -/
def apartB (a : Word) (n : Nat) (b : Word) (m : Nat) : Bool :=
  (List.range n).all (fun j => (List.range m).all (fun k => Cfg.default.byteAddr a j != Cfg.default.byteAddr b k))

theorem test_witness_EveryDescriptorIsMovedHandedBackAndCounted :
    walkable (ready 12 0x252) = true ∧ min (dLink.effSize Cfg.default) ((ready 12 0x252).cell .bycr).toNat = 8 ∧
    8 ≤ 2 ^ (ready 12 0x252).cfg.addrBits ∧ apartB 0x1000 16 (dLink.addr &&& 0xFFFFFFFC) 8 = true := by decide
theorem test_witness_DescriptorIsMovedHandedBackAndCounted :
    walkable (ready 12 0x659) = true ∧ walkable (ready 8 0x252) = true ∧
    dLast.isLast Cfg.default.pos = true ∧ dLink.isLast Cfg.default.pos = false ∧
    ((ready 8 0x252).cell .bycr).toNat ≤ dLink.effSize (ready 8 0x252).cfg ∧
    flags 0x252 = [false, false, true, false, false, false] ∧ flags 0x1659 = [false, false, true, false, true, true] ∧
    flags 0x659 = [false, false, true, false, true, false] := by decide
theorem test_witness_TransferDataIsTheBufferInOrder :
    walkable (ready 3 0x252) = true ∧ walkable (ready 3 0x659) = true ∧
    min (dLast.effSize (ready 3 0x252).cfg) ((ready 3 0x252).cell .bycr).toNat = 3 ∧
    apartB 0x1010 16 (dLast.addr &&& 0xFFFFFFFC) 3 = true := by decide
theorem test_witness_HandedBackDescriptorDiffersOnlyInHoldAndZeroSize :
    (⟨0x80000004, 0, 0x2003, 0⟩ : Desc).effSize Cfg.default = 65536 ∧
    (⟨0x80000004, 0xFFFFFFFF, 0, 0⟩ : Desc).effSize { Cfg.default with oversizeClamp := true } = 65536 ∧
    (⟨0x80000004, 1, 0, 0⟩ : Desc).effSize Cfg.default = 1 := by decide
theorem test_witness_LinkContinuesWithTheDescriptorAtNext :
    walkable (ready 12 0x659) = true ∧ dLink.isLast Cfg.default.pos = false ∧
    ((ready 12 0x659).processDesc true 0x1000 dLink).cell .bycr = 4 ∧
    ((ready 8 0x659).processDesc true 0x1000 dLink).cell .bycr = 0 ∧
    (bytesAt ((ready 12 0x659).processDesc true 0x1000 dLink) dLink.next 16).length = 16 := by decide
theorem test_witness_WalkStartsWithTheDescriptorAtDlba :
    walkable (ready 12 0x659) = true ∧ cmdWrite Cfg.default.pos ((ready 12 0x659).cell .cmdr) = true ∧
    cmdWrite Cfg.default.pos ((ready 12 0x252).cell .cmdr) = false ∧ (ready 12 0x252).card.dataReady = true ∧
    Desc.ofBytes .little (bytesAt (ready 12 0x659) ((ready 12 0x659).cell .dlba) 16) = dLink := by decide
theorem test_witness_NoWalkWithoutItsConditions :
    State.reset.cfg.wf = true ∧ flags 0x80000252 = [true, false, true, false, false, false] ∧
    (State.reset.cell .gctl).getLsbD Cfg.default.pos.dmaEnb = false ∧ (ready 0 0).cell .bycr = 0 ∧
    (cells (ready 8 0) [(.bksr, 0)]).cell .bksr = 0 ∧
    (cardAfterDispatch (withCard [] [] []) 0x80000252).dataReady = false := by decide
theorem test_witness_WalkCountsEveryByteOnce :
    walkable (ready 12 0) = true ∧ flags 0x80000659 = [true, false, true, false, true, false] ∧
    flags 0x80000252 = [true, false, true, false, false, false] ∧
    (cardAfterDispatch (ready 12 0) 0x80000252).dataReady = true := by decide
/-- `N` = 12 and, at the boundary, `N` = 16. -/
theorem test_witness_TwoDescriptorChainMovesTheRequest :
    walkable (ready 12 0) = true ∧ flags 0x80000659 = [true, false, true, false, true, false] ∧
    bytesAt (ready 12 0) ((ready 12 0).cell .dlba) 16 = dLink.toBytes .little ∧
    bytesAt (ready 12 0) dLink.next 16 = dLast.toBytes .little ∧ apartB 0x1000 16 dLink.next 16 = true ∧
    dLink.isLast Cfg.default.pos = false ∧ dLink.effSize Cfg.default < ((ready 12 0).cell .bycr).toNat ∧
    ((ready 12 0).cell .bycr).toNat ≤ dLink.effSize Cfg.default + dLast.effSize Cfg.default ∧
    ((ready 16 0).cell .bycr).toNat = dLink.effSize Cfg.default + dLast.effSize Cfg.default := by decide
theorem test_witness_TwoDescriptorChainReadsTheRequest :
    walkable (ready 12 0) = true ∧ flags 0x80000252 = [true, false, true, false, false, false] ∧
    (cardAfterDispatch (ready 12 0) 0x80000252).dataReady = true ∧
    bytesAt (ready 12 0) ((ready 12 0).cell .dlba) 16 = dLink.toBytes .little ∧
    bytesAt (ready 12 0) dLink.next 16 = dLast.toBytes .little ∧ apartB 0x1000 16 dLink.next 16 = true ∧
    dLink.effSize Cfg.default = 8 ∧ ((ready 12 0).cell .bycr).toNat - 8 = 4 ∧ dLast.effSize Cfg.default = 8 ∧
    apartB (dLink.base Cfg.default) 8 0x1000 16 = true ∧ apartB (dLink.base Cfg.default) 8 dLink.next 16 = true ∧
    apartB (dLast.base Cfg.default) 4 0x1000 16 = true ∧ apartB (dLast.base Cfg.default) 4 dLink.next 16 = true ∧
    apartB (dLink.base Cfg.default) 8 (dLast.base Cfg.default) 4 = true := by decide
theorem test_witness_FifoWriteSendsFourBytesInOrder :
    State.reset.cfg.fifoBytes = 4 ∧ autostop Cfg.default.pos (State.reset.cell .cmdr) = false ∧
    autostop Cfg.default.pos ((ready 12 0x1658).cell .cmdr) = true ∧
    (∃ t, exec (.wrFifo 1) (ready 12 0x1658) = .next t ∧ t.xfer ≠ 0) := ⟨rfl, by decide, by decide, _, rfl, by decide⟩
theorem test_witness_FifoReadReturnsFourBytesLittleEndian :
    (ready 12 0x3251).card.dataReady = true ∧ (ready 12 0x3251).card.gives 4 = [1, 2, 3, 4] ∧
    (ready 12 0x3251).cfg.fifoBytes = 4 ∧ autostop Cfg.default.pos ((ready 12 0x251).cell .cmdr) = false := by decide
theorem test_witness_FifoReadWithoutDataReadsZero : (withCard [] [] []).card.dataReady = false := by decide
theorem test_witness_FifoAccessThatEndsTheTransferAutoStops :
    (ready 4 0x3251).cfg.wf = true ∧ (ready 4 0x3251).xfer.toNat ≤ 4 ∧ (ready 0 0x3251).xfer.toNat ≤ 4 ∧
    flags 0x3251 = [false, false, true, false, false, true] ∧ flags 0x203251 = [false, true, true, false, false, true] ∧
    (ready 4 0x3251).card.dataReady = true := by decide
/-- A clock-change word with `AUTOSTOP` in `CMDR`: nothing reaches the card, `CMD_COMPLETE` and `AUTOCMD_DONE` are set. -/
theorem test_fifo_autostop_after_clkchg :
    let t := run (ready 4 0x203251) (wr 0x1200 0)
    t.cell .risr = 0x400C ∧ cardCommands t.trace = [] := by decide
theorem test_witness_UnimplementedIsLoggedAndTheWriteStillRuns :
    Reg.cmdr ∈ [Reg.cmdr, .star] ∧ Reg.cmdr ∉ [Reg.star] := by decide
theorem test_witness_LineSeenBySinkFollowsTheState :
    sinkLevel State.reset.trace = State.reset.irqLevel ∧
    ∃ t, step { State.reset with inbox := [.event 0 Snapshot.zero] } = .next t := ⟨by decide, _, rfl⟩
/-- A state that meets the register invariants, with a restore next that keeps them; and one with another input next. -/
theorem test_witness_RegisterInvariantsAreKept :
    State.reset.Inv ∧
    restoresOnlyInv { State.reset with inbox := [.event 4 ⟨Regs.resetTable, 0x200⟩] } ∧
    restoresOnlyInv { State.reset with inbox := [.event 2 Snapshot.zero] } ∧
    (∃ t, step { State.reset with inbox := [.event 4 ⟨Regs.resetTable, 0x200⟩] } = .next t) := by
  refine ⟨⟨?_, ⟨?_, ?_, ?_, ?_, ?_, ?_⟩, ⟨?_, ?_, ?_, ?_, ?_, ?_⟩, ?_⟩, ?_, ?_, ⟨_, rfl⟩⟩
  all_goals first
    | decide
    | skip
  · intro code snap rest h _
    cases h
    exact ⟨⟨by decide, by decide, by decide, by decide, by decide, by decide⟩, by decide⟩
  · intro code snap rest h hc
    cases h
    exact absurd hc (by decide)
theorem test_witness_MemoryStaysCanonical :
    (ready 12 0x659).mem.wf (ready 12 0x659).cfg.addrBits = true ∧
    ∃ t, step { ready 12 0 with inbox := [wr 0x1018 0x80000659] } = .next t := ⟨by decide, _, rfl⟩
theorem test_witness_LogAndEventsOnlyGrow :
    ∃ t, step { State.reset with inbox := [.mmio 0x1019 0 1 1] } = .next t := ⟨_, rfl⟩

end Sys2Proof.Tests
end

section
/-! SUPPORT. What a step and the operations do at their outermost: the three cases of a step, decoding of an encoding, and
which operations leave the configuration and external memory alone (00_scope.md R4, R12, R13). -/

namespace Sys2Proof

/-- The decoder inverts the encoder on every operation (30_encoding.md R101 to R112). -/
theorem decode_encode {c : Cfg} (hc : c.wf = true) {i : Instr} (hi : i.wellFormed c = true) :
    decode c (encode c i) = .ok i := by
  cases i with
  | wrxUnknownOffset off v | rdxUnknownOffset off =>
    simp only [Instr.wellFormed, Bool.and_eq_true, Option.isNone_iff_eq_none] at hi
    obtain ⟨hshape, hnone⟩ := hi
    simp [encode, decode, decodeInput_mmioInput, hshape, hnone]
  | wrxIllegalAccess off size v | rdxIllegalAccess off size =>
    have hshape : legalShape off size = false := by simpa [Instr.wellFormed] using hi
    simp [encode, decode, decodeInput_mmioInput, hshape]
  | evInsert | evRemove | evReset | evSave | evRestore snap => rfl
  | cmdStore w | cmdClkchg w | cmdNoresp w | cmdShort w | cmdLong w =>
    have hclass := beq_iff_eq.1 hi
    simp [encode, decode, decodeInput, decodeCommand, hclass]
  | descLast dptr d | descLink dptr d =>
    simp only [Instr.wellFormed, Bool.not_eq_eq_eq_not, Bool.not_true] at hi
    simp [encode, decode, length_toBytes, ofBytes_toBytes, decodeDesc, hi]
  | _ => simp [encode, decode, decodeInput_writeInput hc, decodeInput_readInput hc, wrInstr, rdInstr]

/-- Every operation but a descriptor row is encoded as an input of the device (00_scope.md R4). -/
theorem encode_cases (c : Cfg) (i : Instr) :
    (∃ dptr d, (i = .descLast dptr d ∨ i = .descLink dptr d) ∧
      encode c i = .descriptor dptr (d.toBytes c.descByteOrder)) ∨
    ∃ inp, encode c i = .input inp := by
  cases i with
  | descLast dptr d => exact .inl ⟨dptr, d, .inl rfl, rfl⟩
  | descLink dptr d => exact .inl ⟨dptr, d, .inr rfl, rfl⟩
  | _ => exact .inr ⟨_, rfl⟩

end Sys2Proof

namespace Sys2Proof.Machine

/-! ### The cases of a step -/

theorem step_of_empty {s : State} (h : s.inbox = []) : step s = .next s := by simp [step, h]

theorem step_of_ok {s : State} {inp : Input} {rest : List Input} {i : Instr} (h : s.inbox = inp :: rest)
    (hd : decodeInput s.cfg inp = .ok i) : step s = exec i { s with inbox := rest } := by
  simp [step, h, hd]

theorem step_of_error {s : State} {inp : Input} {rest : List Input} {e : DecodeError} (h : s.inbox = inp :: rest)
    (hd : decodeInput s.cfg inp = .error e) : step s = .fault (.noOperation e) := by
  simp [step, h, hd]

/-- All that a step can be: no input, the operation of the next input, or the fault of an input that is none. -/
theorem step_cases (s : State) :
    (s.inbox = [] ∧ step s = .next s) ∨
    (∃ inp rest i, s.inbox = inp :: rest ∧ decodeInput s.cfg inp = .ok i ∧
      step s = exec i { s with inbox := rest }) ∨
    (∃ inp rest e, s.inbox = inp :: rest ∧ decodeInput s.cfg inp = .error e ∧ step s = .fault (.noOperation e)) := by
  cases hs : s.inbox with
  | nil => exact .inl ⟨rfl, step_of_empty hs⟩
  | cons inp rest =>
    cases hd : decodeInput s.cfg inp with
    | ok i => exact .inr (.inl ⟨inp, rest, i, rfl, hd, step_of_ok hs hd⟩)
    | error e => exact .inr (.inr ⟨inp, rest, e, rfl, hd, step_of_error hs hd⟩)

/-- A step that answers a next state had no input, or ran the operation of its next input. -/
theorem step_eq_next {s t : State} (h : step s = .next t) :
    t = s ∨ ∃ i rest, exec i { s with inbox := rest } = .next t := by
  obtain ⟨_, hs⟩ | ⟨_, rest, i, _, _, hs⟩ | ⟨_, _, _, _, _, hs⟩ := step_cases s <;> rw [hs] at h
  · cases h; exact .inl rfl
  · exact .inr ⟨i, rest, h⟩
  · cases h

/-- Every operation answers a next state (00_scope.md R13): no row's meaning has another outcome. -/
theorem exec_total (i : Instr) (s : State) : ∃ t, exec i s = .next t := by
  cases i <;> exact ⟨_, rfl⟩

/-! ### The rows that walk -/

/-- The command word of an operation that latches and dispatches one: the loaded rows of 30_encoding.md R111. -/
def loadedWord (p : Positions) : Instr → Option Word
  | .wrCmdr v => if loadBit p v then some v else none
  | .cmdClkchg w | .cmdNoresp w | .cmdShort w | .cmdLong w => some w
  | _ => none

/-- Only a loaded command word and a descriptor row can walk. -/
theorem mayWalk_cases {p : Positions} {i : Instr} (h : Claims.mayWalk p i = true) :
    (∃ w, loadedWord p i = some w) ∨ ∃ dptr d, i = .descLast dptr d ∨ i = .descLink dptr d := by
  cases i with
  | wrCmdr v => exact .inl ⟨v, if_pos h⟩
  | cmdClkchg w | cmdNoresp w | cmdShort w | cmdLong w => exact .inl ⟨w, rfl⟩
  | descLast dptr d => exact .inr ⟨dptr, d, .inl rfl⟩
  | descLink dptr d => exact .inr ⟨dptr, d, .inr rfl⟩
  | _ => cases h

/-- What every dispatch keeps, whatever the card answers (41_command_engine.md R222): all cells but the responses and
`RISR`, configuration, log and pending inputs (`Frame`), and external memory. -/
structure Dispatched (s t : State) : Prop where
  frame : Frame s t dispatchCells
  mem : t.mem = s.mem

theorem dispatched_setRisr (s : State) (n : Nat) : Dispatched s (s.setRisr n) :=
  ⟨(frame_setRisr s n).mono (by simp [dispatchCells]), rfl⟩

theorem dispatched_capture (s : State) (w0 w1 w2 w3 : Word) : Dispatched s (s.capture w0 w1 w2 w3) :=
  ⟨frame_settle s (.captured w0 w1 w2 w3), rfl⟩

theorem Dispatched.of_cardIssue {s t : State} (id : BitVec 6) (arg : Word)
    (h : Dispatched (s.cardIssue id arg).2 t) : Dispatched s t :=
  ⟨((frame_cardIssue s id arg).mono (List.nil_subset _)).trans h.frame, h.mem⟩

theorem dispatched_dispatch (s : State) (w arg : Word) : Dispatched s (s.dispatch w arg) :=
  ⟨frame_dispatch s w arg, mem_dispatch s w arg⟩

/-- An operation of a loaded word latches the word, dispatches it and follows it up (40_register_access.md R144). -/
theorem exec_of_loadedWord {i : Instr} {w : Word} {s : State} (h : loadedWord s.cfg.pos i = some w) :
    ∃ u, Dispatched (s.latch w) u ∧ exec i s = .next u.afterDispatch := by
  cases i with
  | wrCmdr v =>
    obtain ⟨hl, rfl⟩ : loadBit s.cfg.pos v = true ∧ v = w := by simpa [loadedWord] using h
    exact ⟨_, dispatched_dispatch _ _ _, execWrCmdr_loaded v s hl⟩
  | cmdClkchg v =>
    cases h
    exact ⟨_, dispatched_setRisr _ _, rfl⟩
  | cmdNoresp v =>
    cases h
    refine ⟨_, Dispatched.of_cardIssue (cmdIdx s.cfg.pos w) (s.cell .cagr) ?_, rfl⟩
    split <;> exact dispatched_setRisr _ _
  | cmdShort v =>
    cases h
    refine ⟨_, Dispatched.of_cardIssue (cmdIdx s.cfg.pos w) (s.cell .cagr) ?_, rfl⟩
    split
    · exact dispatched_capture _ _ _ _ _
    · exact dispatched_setRisr _ _
  | cmdLong v =>
    cases h
    refine ⟨_, Dispatched.of_cardIssue (cmdIdx s.cfg.pos w) (s.cell .cagr) ?_, rfl⟩
    split
    · split
      · exact dispatched_capture _ _ _ _ _
      · exact dispatched_setRisr _ _
    · exact dispatched_setRisr _ _
  | _ => cases h

/-! ### Configuration and memory under every operation -/

/-- From `s` to `t` the configuration is kept, and external memory's canonical form with it. -/
structure KeepsCanonical (s t : State) : Prop where
  cfg : t.cfg = s.cfg
  memWf : s.mem.wf s.cfg.addrBits = true → t.mem.wf s.cfg.addrBits = true

theorem KeepsCanonical.trans {s t u : State} (h : KeepsCanonical s t) (h' : KeepsCanonical t u) :
    KeepsCanonical s u :=
  ⟨h'.cfg.trans h.cfg, fun hm => by rw [← h.cfg]; exact h'.memWf (by rw [h.cfg]; exact h.memWf hm)⟩

theorem keepsCanonical_of_eq {s t : State} (hc : t.cfg = s.cfg) (hm : t.mem = s.mem) : KeepsCanonical s t :=
  ⟨hc, fun h => by rw [hm]; exact h⟩

theorem keepsCanonical_afterDispatch (s : State) : KeepsCanonical s s.afterDispatch :=
  ⟨(frame_afterDispatch s).cfg, memWf_afterDispatch⟩

theorem keepsCanonical_processDesc (s : State) (wr : Bool) (dptr : Word) (d : Desc) :
    KeepsCanonical s (s.processDesc wr dptr d) :=
  ⟨(frame_processDesc s wr dptr d).cfg, fun h => memWf_processDesc h wr dptr d⟩

theorem keepsCanonical_walkLoop (s : State) (wr : Bool) (dptr : Word) (fuel : Nat) :
    KeepsCanonical s (s.walkLoop wr dptr fuel) :=
  ⟨(frame_walkLoop s wr dptr fuel).cfg, fun h => memWf_walkLoop h wr dptr fuel⟩

/-- A walk's end: completion, auto-stop check and line leave memory alone. -/
theorem keepsCanonical_walkEnd (s : State) (wr : Bool) :
    KeepsCanonical s (s.walkComplete wr).autoStopCheck.irqUpdate :=
  keepsCanonical_of_eq ((frame_autoStopCheck _).cfg.trans (frame_walkComplete s wr).cfg) (by simp)

theorem keepsCanonical_descLast {dptr : Word} {d : Desc} {s t : State} (h : exec (.descLast dptr d) s = .next t) :
    KeepsCanonical s t := by
  cases h
  generalize cmdWrite s.cfg.pos (s.cell .cmdr) = wr
  split
  · exact (keepsCanonical_processDesc s wr dptr d).trans (keepsCanonical_walkEnd _ wr)
  · exact keepsCanonical_of_eq rfl rfl

theorem keepsCanonical_descLink {dptr : Word} {d : Desc} {s t : State} (h : exec (.descLink dptr d) s = .next t) :
    KeepsCanonical s t := by
  cases h
  generalize cmdWrite s.cfg.pos (s.cell .cmdr) = wr
  split
  · refine (keepsCanonical_processDesc s wr dptr d).trans (.trans ?_ (keepsCanonical_walkEnd _ wr))
    split
    · exact keepsCanonical_of_eq rfl rfl
    · exact keepsCanonical_walkLoop _ wr d.next _
  · exact keepsCanonical_of_eq rfl rfl

/-- An operation that cannot walk leaves the configuration and external memory alone (42_dma_engine.md R254). -/
theorem exec_of_not_mayWalk {i : Instr} {s t : State} (hw : Claims.mayWalk s.cfg.pos i = false)
    (h : exec i s = .next t) : t.cfg = s.cfg ∧ t.mem = s.mem := by
  cases i with
  | wrCmdr v =>
    have hl : loadBit s.cfg.pos v = false := hw
    cases h
    simp [hl]
  | cmdClkchg w | cmdNoresp w | cmdShort w | cmdLong w | descLast dptr d | descLink dptr d => cases hw
  | wrFifo v =>
    cases h
    simp [(frame_afterFifo _).cfg, (frame_sendBytes _ _).cfg]
  | rdFifo =>
    cases h
    split
    · simp [(frame_afterFifo _).cfg, (frame_takeBytes _ _).cfg]
    · simp
  | evInsert | evRemove =>
    cases h
    exact ⟨rfl, rfl⟩
  | _ =>
    cases h
    simp

/-- Every operation keeps the configuration and the canonical form of external memory. -/
theorem keepsCanonical_exec {i : Instr} {s t : State} (h : exec i s = .next t) : KeepsCanonical s t := by
  cases hw : Claims.mayWalk s.cfg.pos i with
  | false =>
    obtain ⟨hc, hm⟩ := exec_of_not_mayWalk hw h
    exact keepsCanonical_of_eq hc hm
  | true =>
    obtain ⟨w, hl⟩ | ⟨dptr, d, rfl | rfl⟩ := mayWalk_cases hw
    · obtain ⟨u, hu, he⟩ := exec_of_loadedWord hl
      cases h.symm.trans he
      have hcfg : u.cfg = s.cfg := hu.frame.cfg.trans (cfg_latch s w)
      have hmem : u.mem = s.mem := hu.mem.trans (mem_latch s w)
      exact (keepsCanonical_of_eq hcfg hmem).trans (keepsCanonical_afterDispatch u)
    · exact keepsCanonical_descLast h
    · exact keepsCanonical_descLink h

end Sys2Proof.Machine
end

section
/-! SUPPORT. The obligations of 00_scope.md that are settled here. -/

namespace Sys2Proof.Claims

open Sys2Proof.Machine

/-- Settles O56: the operation a step runs keeps the canonical form, walk or no walk. -/
theorem memoryStaysCanonical : Obligations.MemoryStaysCanonical := by
  intro s t hm h
  obtain rfl | ⟨i, rest, he⟩ := step_eq_next h
  · exact hm
  · have hk := keepsCanonical_exec he
    rw [hk.cfg]
    exact hk.memWf hm

/-- Settles O6: an encoding that is an input decodes to its operation, and a step runs what its input decodes to. -/
theorem encodedOperationRunsAsItself : Obligations.EncodedOperationRunsAsItself := by
  intro i s rest hc hi
  have hd := decode_encode hc hi
  obtain ⟨dptr, d, hrow, he⟩ | ⟨inp, he⟩ := encode_cases s.cfg i
  · exact .inl ⟨⟨dptr, d, hrow⟩, dptr, _, he⟩
  · rw [he] at hd
    exact .inr ⟨inp, he, step_of_ok (s := { s with inbox := inp :: rest }) rfl hd⟩

/-- Settles O1, from the equation of a step for each of its three cases. -/
theorem stepRunsTheDecodedOperation : Obligations.StepRunsTheDecodedOperation :=
  ⟨fun _ _ _ hs => ⟨fun _ hd => step_of_ok hs hd, fun _ hd => step_of_error hs hd⟩, fun _ hs => step_of_empty hs⟩

/-- Settles O3: the tables are literals, and the well-formedness of R6 is a finite check of them. -/
theorem defaultConfigurationHoldsTheSpecTables : Obligations.DefaultConfigurationHoldsTheSpecTables := by
  have hwf : Cfg.default.wf = true := by decide
  exact ⟨rfl, rfl, rfl, rfl, rfl, rfl, rfl, rfl, rfl, rfl, rfl, rfl, rfl, rfl, hwf⟩

/-- Settles O60: every row answers a next state, so only an input that is no operation stops a step. -/
theorem everyOperationEndsInANextState : Obligations.EveryOperationEndsInANextState := by
  refine ⟨exec_total, fun s => ?_⟩
  obtain ⟨_, hs⟩ | ⟨_, rest, i, _, _, hs⟩ | herr := step_cases s
  · exact .inl ⟨s, hs⟩
  · rw [hs]
    exact .inl (exec_total i _)
  · exact .inr herr

end Sys2Proof.Claims
end

section
/-! SUPPORT. The invariants (i) to (v) of 10_state.md R56, cell by cell, and that the shared operations keep them. -/

namespace Sys2Proof

/-! ### What R56 says of one register -/

/-- Clauses (iv) and (v) of 10_state.md R56 on a value of `RISR`. -/
structure RisrInv (p : Positions) (v : Word) : Prop where
  used : v &&& ~~~p.risrUsed = 0
  exclusive : ¬(v.getLsbD p.cardInsert = true ∧ v.getLsbD p.cardRemove = true)

/-- What 10_state.md R56 says of the value of one storage cell: nothing of the cells it does not name. -/
def CellInv (p : Positions) : Cell → Word → Prop
  | .cmdr, v => loadBit p v = false
  | .gctl, v => v &&& p.strobes = 0
  | .risr, v => RisrInv p v
  | .idst, v => v &&& ~~~p.idstUsed = 0
  | .star, v => v &&& ~~~(bit p.cardPresent) = 0
  | _, _ => True

/-- R56 on a register file is a condition on each cell by itself. -/
theorem Regs.inv_iff {p : Positions} {x : Regs} : x.Inv p ↔ ∀ c, CellInv p c (x.get c) where
  mp := fun ⟨hload, hstrobes, hrisr, hidst, hstar, hexcl⟩ c => by
    cases c with
    | cmdr => exact hload
    | gctl => exact hstrobes
    | risr => exact ⟨hrisr, hexcl⟩
    | idst => exact hidst
    | star => exact hstar
    | _ => trivial
  mpr := fun h => ⟨h .cmdr, h .gctl, (h .risr).used, h .idst, h .star, (h .risr).exclusive⟩

/-- The cells whose values R56 restrains, `BYCR` by its clause (iii). -/
def watchedCells : List Cell := [.gctl, .bycr, .cmdr, .risr, .star, .idst]

theorem cellInv_of_not_watched {p : Positions} {c : Cell} (hc : c ∉ watchedCells) (v : Word) : CellInv p c v := by
  cases c with
  | gctl | bycr | cmdr | risr | star | idst => simp [watchedCells] at hc
  | _ => trivial

/-- A `STAR` of Card-Present alone may stand in any register file that meets R56. -/
theorem Regs.Inv.withStar {p : Positions} {x : Regs} (h : x.Inv p) {v : Word} (hv : v &&& ~~~(bit p.cardPresent) = 0) :
    Regs.Inv p { x with star := v } :=
  { h with star := hv }

/-! ### A word inside a mask -/

/-- Clearing bits keeps a word inside a mask. -/
theorem and_within {v m : Word} (h : v &&& ~~~m = 0) (c : Word) : (v &&& c) &&& ~~~m = 0 := by
  rw [BitVec.and_assoc, BitVec.and_comm c, ← BitVec.and_assoc, h]
  exact BitVec.zero_and

theorem or_within {v w m : Word} (hv : v &&& ~~~m = 0) (hw : w &&& ~~~m = 0) : (v ||| w) &&& ~~~m = 0 := by
  rw [BitVec.and_comm, BitVec.and_or_distrib_left, BitVec.and_comm _ v, BitVec.and_comm _ w, hv, hw]
  exact BitVec.or_zero

/-- Setting a bit of the mask keeps a word inside it. -/
theorem setBit_within {v m : Word} {n : Nat} (h : v &&& ~~~m = 0) (hn : m.getLsbD n = true) :
    setBit v n &&& ~~~m = 0 := by
  apply BitVec.eq_of_getLsbD_eq
  intro k hk
  have hv := congrArg (BitVec.getLsbD · k) h
  by_cases e : n = k
  · subst e
    simp [hn]
  · simpa [hk, e] using hv

theorem getLsbD_risrUsed {p : Positions} (hp : p.wf = true) {n : Nat}
    (hn : n ∈ [p.noResponse, p.cmdComplete, p.dataComplete, p.autocmdDone, p.cardInsert, p.cardRemove]) :
    p.risrUsed.getLsbD n = true := by
  have hlt : n < 32 := (Positions.wf_risr hp).2 n (List.Sublist.subset (by simp) hn)
  simpa [Positions.risrUsed, hlt, or_assoc, @eq_comm _ n] using hn

theorem getLsbD_idstUsed {p : Positions} (hp : p.wf = true) {n : Nat} (hn : n ∈ [p.txDone, p.rxDone, p.rxSummary]) :
    p.idstUsed.getLsbD n = true := by
  have hlt : n < 32 := (Positions.wf_idst hp).2 n hn
  simpa [Positions.idstUsed, hlt, or_assoc, @eq_comm _ n] using hn

/-! ### How a rule may change a status register -/

variable {p : Positions}

/-- Write-1-to-clear keeps R56 of `RISR` (43_interrupt_coalescer.md R282). -/
theorem RisrInv.and {v : Word} (h : RisrInv p v) (c : Word) : RisrInv p (v &&& c) where
  used := and_within h.used c
  exclusive := by
    have hx := h.exclusive
    simp only [BitVec.getLsbD_and, Bool.and_eq_true]
    tauto

/-- The flags of the Command Engine, the DMA Engine and the FIFO port are none of the card's two. -/
theorem RisrInv.setBit (hp : p.wf = true) {v : Word} (h : RisrInv p v) {n : Nat}
    (hn : n ∈ [p.noResponse, p.cmdComplete, p.dataComplete, p.autocmdDone]) : RisrInv p (setBit v n) where
  used := setBit_within h.used (getLsbD_risrUsed hp (List.Sublist.subset (by simp) hn))
  exclusive := by
    obtain ⟨hnodup, hlt⟩ := Positions.wf_risr hp
    have hdisj := List.disjoint_of_nodup_append
      (l₁ := [p.noResponse, p.cmdComplete, p.dataComplete, p.autocmdDone]) hnodup
    have hi : n ≠ p.cardInsert := fun e => hdisj hn (by simp [e])
    have hr : n ≠ p.cardRemove := fun e => hdisj hn (by simp [e])
    rw [getLsbD_setBit _ _ _ (hlt _ (by simp)), getLsbD_setBit _ _ _ (hlt _ (by simp))]
    simpa [hi, hr] using h.exclusive

/-- Setting one of two flags and clearing the other leaves not both set (44_card_presence.md R300, R301). -/
theorem RisrInv.toggle (hp : p.wf = true) {v : Word} (h : RisrInv p v) {a b : Nat}
    (hab : (a = p.cardInsert ∧ b = p.cardRemove) ∨ (a = p.cardRemove ∧ b = p.cardInsert)) :
    RisrInv p (clearBit (Sys2Proof.setBit v a) b) where
  used := by
    refine and_within (setBit_within h.used (getLsbD_risrUsed hp ?_)) _
    obtain ⟨rfl, -⟩ | ⟨rfl, -⟩ := hab <;> simp
  exclusive := by
    have hlt := (Positions.wf_risr hp).2
    rw [getLsbD_clearBit _ _ _ (hlt _ (by simp)), getLsbD_clearBit _ _ _ (hlt _ (by simp))]
    obtain ⟨-, rfl⟩ | ⟨-, rfl⟩ := hab <;> simp

end Sys2Proof

namespace Sys2Proof.Machine

/-! ### Keeping the invariants -/

variable {s t : State}

/-- A register file that meets R56 cell by cell, with the counters in order, under the same configuration. -/
theorem State.Inv.of_cells (h : s.Inv) (hcfg : t.cfg = s.cfg) (hcell : ∀ c, CellInv s.cfg.pos c (t.cell c))
    (hxfer : t.xfer ≤ t.cell .bycr) : t.Inv where
  wf := hcfg ▸ h.wf
  table := hcfg ▸ h.table
  regs := hcfg ▸ Regs.inv_iff.2 hcell
  counters := hxfer

theorem State.Inv.cell (h : s.Inv) (c : Cell) : CellInv s.cfg.pos c (s.cell c) := Regs.inv_iff.1 h.regs c

theorem State.Inv.posWf (h : s.Inv) : s.cfg.pos.wf = true := by
  have hw := h.wf
  simp only [Cfg.wf, Bool.and_eq_true] at hw
  exact hw.2

/-- Only the cells an operation writes, and the counters, are to be looked at. -/
theorem State.Inv.of_frame {but : List Cell} (h : s.Inv) (hf : Frame s t but)
    (hbut : ∀ c ∈ but, CellInv s.cfg.pos c (t.cell c)) (hxfer : t.xfer ≤ t.cell .bycr) : t.Inv :=
  h.of_cells hf.cfg (fun c => if hc : c ∈ but then hbut c hc else hf.cells c hc ▸ h.cell c) hxfer

/-- An operation that writes neither `XFER` nor a cell R56 speaks of keeps it. -/
theorem State.Inv.of_unwatched (h : s.Inv) (hcfg : t.cfg = s.cfg) (hcell : ∀ c ∈ watchedCells, t.cell c = s.cell c)
    (hxfer : t.xfer = s.xfer) : t.Inv :=
  h.of_cells hcfg
    (fun c => if hc : c ∈ watchedCells then hcell c hc ▸ h.cell c else cellInv_of_not_watched hc _)
    (by rw [hxfer, hcell .bycr (by simp [watchedCells])]; exact h.counters)

theorem State.Inv.setCell (h : s.Inv) {c : Cell} {v : Word} (hc : c ≠ .bycr) (hv : CellInv s.cfg.pos c v) :
    (s.setCell c v).Inv :=
  h.of_frame (frame_setCell s c v) (by simpa using hv) (by simpa [hc.symm] using h.counters)

theorem State.Inv.emit (h : s.Inv) (e : ExtEvent) : (s.emit e).Inv :=
  h.of_unwatched rfl (fun _ _ => rfl) rfl

theorem State.Inv.noteWrite (h : s.Inv) (r : Reg) (v : Word) : (s.noteWrite r v).Inv :=
  h.of_unwatched (by simp) (by simp) (by simp)

theorem State.Inv.setRisr (h : s.Inv) {n : Nat}
    (hn : n ∈ [s.cfg.pos.noResponse, s.cfg.pos.cmdComplete, s.cfg.pos.dataComplete, s.cfg.pos.autocmdDone]) :
    (s.setRisr n).Inv :=
  h.setCell (by simp) ((h.cell .risr).setBit h.posWf hn)

theorem State.Inv.acknowledge (h : s.Inv) (v : Word) : (s.acknowledge v).Inv :=
  h.setCell (by simp) ((h.cell .risr).and _)

/-- A word stored in `CMDR` with its load bit clear. -/
theorem State.Inv.setCmdr (h : s.Inv) {v : Word} (hv : loadBit s.cfg.pos v = false) : (s.setCell .cmdr v).Inv :=
  h.setCell (by simp) hv

theorem State.Inv.latch (h : s.Inv) (w : Word) : (s.latch w).Inv :=
  (h.noteWrite .cmdr w).setCmdr (by simpa using loadBit_latched h.posWf w)

/-! ### The engines -/

theorem satSub_le (a : Word) (n : Nat) : satSub a n ≤ a := by
  rw [BitVec.le_def, toNat_satSub]
  omega

/-- A count taken from both counters keeps `XFER` at most `BYCR` (42_dma_engine.md R261, R265). -/
theorem satSub_le_of_le {a b b' : Word} {n : Nat} (h : a ≤ b) (hb : b'.toNat = b.toNat - n) : satSub a n ≤ b' := by
  rw [BitVec.le_def] at h ⊢
  rw [toNat_satSub, hb]
  omega

theorem State.Inv.processDesc (h : s.Inv) (wr : Bool) (dptr : Word) (d : Desc) : (s.processDesc wr dptr d).Inv := by
  refine h.of_frame (frame_processDesc s wr dptr d) (by simp [CellInv]) ?_
  rw [xfer_processDesc]
  exact satSub_le_of_le h.counters (bycr_processDesc s wr dptr d)

theorem State.Inv.walkLoop (h : s.Inv) (wr : Bool) (dptr : Word) (fuel : Nat) : (s.walkLoop wr dptr fuel).Inv := by
  induction fuel generalizing s dptr with
  | zero => exact h
  | succ fuel ih =>
    have hd : ((s.fetchDesc dptr).2.processDesc wr dptr (s.fetchDesc dptr).1).Inv := (h.emit _).processDesc wr dptr _
    unfold State.walkLoop
    dsimp only
    split
    · exact hd
    · exact ih hd _

theorem State.Inv.walkComplete (h : s.Inv) (wr : Bool) : (s.walkComplete wr).Inv := by
  have hr : CellInv s.cfg.pos .risr ((s.walkComplete wr).cell .risr) := by
    rw [risr_walkComplete]
    exact ((h.cell .risr).setBit h.posWf (by simp)).setBit h.posWf (by simp)
  have hset (v : Word) (hv : CellInv s.cfg.pos .idst v) (n : Nat)
      (hn : n ∈ [s.cfg.pos.txDone, s.cfg.pos.rxDone, s.cfg.pos.rxSummary]) : CellInv s.cfg.pos .idst (setBit v n) :=
    setBit_within hv (getLsbD_idstUsed h.posWf hn)
  have hi : CellInv s.cfg.pos .idst ((s.walkComplete wr).cell .idst) := by
    rw [idst_walkComplete]
    split
    · exact hset _ (h.cell .idst) _ (by simp)
    · exact hset _ (hset _ (h.cell .idst) _ (by simp)) _ (by simp)
  refine h.of_frame (frame_walkComplete s wr) ?_ ?_
  · simpa using ⟨hr, hi⟩
  · rw [xfer_walkComplete, (frame_walkComplete s wr).cells .bycr (by simp)]
    exact h.counters

theorem State.Inv.dmaWalk (h : s.Inv) : s.dmaWalk.Inv := by
  obtain ⟨_, e⟩ | ⟨_, _, e⟩ | ⟨_, _, _, e⟩ | ⟨_, _, _, e⟩ := dmaWalk_cases s <;> rw [e]
  · exact h
  · exact (h.walkLoop true _ _).walkComplete true
  · exact ((h.emit _).walkLoop false _ _).walkComplete false
  · exact h.emit _

theorem State.Inv.settle (h : s.Inv) (r : CmdResult) : (s.settle r).Inv := by
  cases r with
  | failed | done => exact h.setRisr (by simp)
  | captured w0 w1 w2 w3 =>
    have hr : ((((s.setCell .resp0 w0).setCell .resp1 w1).setCell .resp2 w2).setCell .resp3 w3).Inv :=
      h.of_unwatched rfl (by simp [watchedCells]) rfl
    exact hr.setRisr (by simp)

theorem State.Inv.cardIssue (h : s.Inv) (id : BitVec 6) (arg : Word) : (s.cardIssue id arg).2.Inv :=
  h.of_unwatched rfl (fun _ _ => rfl) rfl

/-- `t` is `s` after a dispatch: the card called or not, and one of the outcomes of 41_command_engine.md R228. -/
inductive Settled : State → State → Prop
  | settle (s : State) (r : CmdResult) : Settled s (s.settle r)
  | issue {s t : State} (id : BitVec 6) (arg : Word) (h : Settled (s.cardIssue id arg).2 t) : Settled s t

theorem settled_setRisr {n : Nat} (hn : n = s.cfg.pos.noResponse ∨ n = s.cfg.pos.cmdComplete) :
    Settled s (s.setRisr n) := by
  obtain rfl | rfl := hn
  · exact .settle s .failed
  · exact .settle s .done

theorem settled_dispatch (s : State) (w arg : Word) : Settled s (s.dispatch w arg) := by
  unfold State.dispatch
  split
  · exact settled_setRisr (.inr rfl)
  · exact .issue _ arg (.settle _ _)

theorem State.Inv.settled (h : s.Inv) (ht : Settled s t) : t.Inv := by
  induction ht with
  | settle s r => exact h.settle r
  | issue id arg _ ih => exact ih (h.cardIssue id arg)

theorem State.Inv.autoStopCheck (h : s.Inv) : s.autoStopCheck.Inv := by
  obtain ⟨_, e⟩ | ⟨_, _, e⟩ := autoStopCheck_cases s <;> rw [e]
  · exact h
  · exact (h.settled (settled_dispatch _ _ _)).setRisr (by simp [(frame_dispatch _ _ _).cfg])

theorem State.Inv.afterDispatch (h : s.Inv) : s.afterDispatch.Inv := h.dmaWalk.autoStopCheck.emit _

/-- A walk's end: completion, auto-stop check and line. -/
theorem State.Inv.walkEnd (h : s.Inv) (wr : Bool) : (s.walkComplete wr).autoStopCheck.irqUpdate.Inv :=
  (h.walkComplete wr).autoStopCheck.emit _

theorem State.Inv.xferUpdate (h : s.Inv) (n : Nat) : (s.xferUpdate n).Inv := by
  refine h.of_frame (frame_xferUpdate s n) ?_ ?_
  · have hr : CellInv s.cfg.pos .risr ((s.xferUpdate n).cell .risr) := by
      rw [risr_xferUpdate]
      split
      · exact (h.cell .risr).setBit h.posWf (by simp)
      · exact h.cell .risr
    simpa using hr
  · rw [xfer_xferUpdate, (frame_xferUpdate s n).cells .bycr (by simp)]
    exact BitVec.le_trans (satSub_le _ n) h.counters

theorem State.Inv.afterFifo (h : s.Inv) : s.afterFifo.Inv := (h.xferUpdate _).autoStopCheck.emit _

/-- Bytes to and from the card touch no register (00_scope.md R8). -/
theorem State.Inv.of_frame_nil (h : s.Inv) (hf : Frame s t []) (hxfer : t.xfer = s.xfer) : t.Inv :=
  h.of_unwatched hf.cfg (fun c _ => hf.cells c (by simp)) hxfer

/-! ### Card presence, reset -/

theorem State.Inv.setStar (h : s.Inv) {v : Word} (hv : v &&& ~~~(bit s.cfg.pos.cardPresent) = 0) :
    (s.setCell .star v).Inv :=
  h.setCell (by simp) hv

theorem State.Inv.cardInserted (h : s.Inv) : s.cardInserted.Inv :=
  (h.setCell (c := .risr) (by simp) ((h.cell .risr).toggle h.posWf (.inl ⟨rfl, rfl⟩))).setStar
    (setBit_within (h.cell .star) (by simp [Positions.wf_star h.posWf]))

theorem State.Inv.cardRemoved (h : s.Inv) : s.cardRemoved.Inv :=
  (h.setCell (c := .risr) (by simp) ((h.cell .risr).toggle h.posWf (.inr ⟨rfl, rfl⟩))).setStar
    (and_within (h.cell .star) _)

/-- The default reset table meets R56 (10_state.md R52, R56). -/
theorem inv_resetTable : Regs.resetTable.Inv Positions.default := by
  constructor <;> decide

/-- A well-formed device whose reset table meets R56 meets it at power-on (70_reset_and_hazards.md R383). -/
theorem inv_powerOn {c : Cfg} (hc : c.wf = true) (ht : c.rst.Inv c.pos) (card : Card) (mem : Memory) :
    (State.powerOn c card mem).Inv where
  wf := hc
  table := ht
  regs := Regs.Inv.withStar ht (by split <;> simp)
  counters := by simp [BitVec.le_def, State.powerOn]

end Sys2Proof.Machine
end

section
/-! SUPPORT. Every operation keeps R56, and adds to the log and to the events alone. -/

namespace Sys2Proof.Machine

variable {s t : State}

theorem loadedWord_wrCmdr {p : Positions} {w : Word} (hl : loadBit p w = true) : loadedWord p (.wrCmdr w) = some w :=
  if_pos hl

/-- The row of a loaded word latches it, settles its dispatch and follows it up (41_command_engine.md R222 to R228). -/
theorem exec_loadedWord_settled {i : Instr} {w : Word} (h : loadedWord s.cfg.pos i = some w) :
    ∃ u, Settled (s.latch w) u ∧ exec i s = .next u.afterDispatch := by
  cases i with
  | wrCmdr v =>
    obtain ⟨hl, rfl⟩ : loadBit s.cfg.pos v = true ∧ v = w := by simpa [loadedWord] using h
    exact ⟨_, settled_dispatch _ _ _, execWrCmdr_loaded v s hl⟩
  | cmdClkchg v =>
    cases h
    exact ⟨_, settled_setRisr (by simp), rfl⟩
  | cmdNoresp v =>
    cases h
    refine ⟨_, .issue (cmdIdx s.cfg.pos w) (s.cell .cagr) ?_, rfl⟩
    split <;> exact settled_setRisr (by simp)
  | cmdShort v =>
    cases h
    refine ⟨_, .issue (cmdIdx s.cfg.pos w) (s.cell .cagr) ?_, rfl⟩
    split
    · exact .settle _ (.captured _ _ _ _)
    · exact settled_setRisr (by simp)
  | cmdLong v =>
    cases h
    refine ⟨_, .issue (cmdIdx s.cfg.pos w) (s.cell .cagr) ?_, rfl⟩
    split
    · split
      · exact .settle _ (.captured _ _ _ _)
      · exact settled_setRisr (by simp)
    · exact settled_setRisr (by simp)
  | _ => cases h

/-- The operations whose operand R56 leans on: a word stored as it is has no load bit, a snapshot meets R56. -/
def KeepsInvOperand (p : Positions) : Instr → Prop
  | .cmdStore w => loadBit p w = false
  | .evRestore snap => snap.Inv p
  | _ => True

theorem inv_storeCmdr (h : s.Inv) {w : Word} (hl : loadBit s.cfg.pos w = false) :
    ((s.noteWrite .cmdr w).setCell .cmdr w).irqUpdate.Inv :=
  ((h.noteWrite .cmdr w).setCmdr (by simpa using hl)).emit _

theorem inv_exec_of_loadedWord {i : Instr} {w : Word} (h : s.Inv) (hl : loadedWord s.cfg.pos i = some w)
    (he : exec i s = .next t) : t.Inv := by
  obtain ⟨u, hu, hnext⟩ := exec_loadedWord_settled hl
  cases he.symm.trans hnext
  exact ((h.latch w).settled hu).afterDispatch

/-- The register file `EV.RESET` installs meets R56 (70_reset_and_hazards.md R380). -/
theorem inv_resetRegs (h : s.Inv) : (resetRegs s.cfg s.x).Inv s.cfg.pos :=
  Regs.Inv.withStar h.table (or_within (and_within h.table.star _) (and_within (h.cell .star) _))

/-- Every operation keeps R56: it writes no cell that R56 speaks of, or a value R56 allows there. -/
theorem inv_exec {i : Instr} (h : s.Inv) (hi : KeepsInvOperand s.cfg.pos i) (he : exec i s = .next t) : t.Inv := by
  cases i with
  | wrGctl v =>
    cases he
    exact ((h.noteWrite .gctl v).setCell (by simp) (by simp [CellInv, BitVec.and_assoc])).emit _
  | wrBycr v =>
    cases he
    exact h.of_cells (by simp) (fun c => by
      by_cases hc : c = .bycr
      · subst hc; trivial
      · simpa [hc] using h.cell c) (by simp)
  | wrMisr v | wrRisr v =>
    cases he
    exact ((h.noteWrite _ v).acknowledge v).emit _
  | wrIdst v =>
    cases he
    have hv : CellInv s.cfg.pos .idst (s.cell .idst &&& ~~~(v &&& s.cfg.idstW1cMask)) := and_within (h.cell .idst) _
    exact ((h.noteWrite .idst v).setCell (by simp) (by simpa using hv)).emit _
  | wrFifo v =>
    cases he
    exact ((h.noteWrite .fifo v).of_frame_nil (frame_sendBytes _ _) (by simp)).afterFifo
  | rdFifo =>
    cases he
    split
    · exact (((h.emit .cardDataReady).of_frame_nil (frame_takeBytes _ s.cfg.fifoBytes) (by simp)).afterFifo).emit _
    · exact h.of_unwatched rfl (fun _ _ => rfl) rfl
  | evInsert =>
    cases he
    exact h.cardInserted.emit _
  | evRemove =>
    cases he
    exact h.cardRemoved.emit _
  | evReset =>
    cases he
    exact ⟨h.wf, h.table, inv_resetRegs h, by simp [BitVec.le_def]⟩
  | evRestore snap =>
    cases he
    obtain ⟨hregs, hxfer⟩ := hi
    exact ⟨h.wf, h.table, hregs, hxfer⟩
  | descLast dptr d =>
    cases he
    split
    · exact (h.processDesc _ dptr d).walkEnd _
    · exact h
  | descLink dptr d =>
    cases he
    split
    · refine State.Inv.walkEnd ?_ _
      split
      · exact h.processDesc _ dptr d
      · exact (h.processDesc _ dptr d).walkLoop _ _ _
    · exact h
  | wrCmdr w =>
    cases hl : loadBit s.cfg.pos w with
    | true => exact inv_exec_of_loadedWord h (loadedWord_wrCmdr hl) he
    | false =>
      cases he
      rw [hl]
      exact inv_storeCmdr h hl
  | cmdStore w =>
    cases he
    exact inv_storeCmdr h hi
  | cmdClkchg w | cmdNoresp w | cmdShort w | cmdLong w => exact inv_exec_of_loadedWord h rfl he
  | _ =>
    cases he
    exact h.of_unwatched (by simp) (by simp [watchedCells]) (by simp)

/-! ### The log and the events -/

/-- Entries were appended to the log, and events to their record, newest first (10_state.md R55, 20_memory.md R88). -/
structure Grows (s t : State) : Prop where
  log : s.log <+: t.log
  trace : s.trace <:+ t.trace

theorem Frame.grows {but : List Cell} (h : Frame s t but) : Grows s t := ⟨h.log ▸ List.prefix_refl _, h.trace⟩

theorem Grows.trans {u : State} (h : Grows s t) (h' : Grows t u) : Grows s u :=
  ⟨h.log.trans h'.log, h.trace.trans h'.trace⟩

@[simp] theorem prefix_logAfterWrite (s : State) (r : Reg) (v : Word) : s.log <+: s.logAfterWrite r v := by
  unfold State.logAfterWrite
  split
  · exact List.prefix_append _ _
  · exact List.prefix_refl _

theorem grows_raise (s : State) (d : Diag) : Grows s (s.raise d) := ⟨by simp, by simp⟩

theorem grows_noteWrite (s : State) (r : Reg) (v : Word) : Grows s (s.noteWrite r v) := ⟨by simp, by simp⟩

theorem grows_latch (s : State) (w : Word) : Grows s (s.latch w) := ⟨by simp, by simp⟩

theorem grows_walkEnd (s : State) (wr : Bool) : Grows s (s.walkComplete wr).autoStopCheck.irqUpdate :=
  ((frame_walkComplete s wr).grows.trans (frame_autoStopCheck _).grows).trans (frame_irqUpdate _).grows

theorem grows_exec_of_loadedWord {i : Instr} {w : Word} (hl : loadedWord s.cfg.pos i = some w)
    (he : exec i s = .next t) : Grows s t := by
  obtain ⟨u, hu, hnext⟩ := exec_of_loadedWord hl
  cases he.symm.trans hnext
  exact ((grows_latch s w).trans hu.frame.grows).trans (frame_afterDispatch u).grows

/-- Every operation only appends to the log and to the events. -/
theorem grows_exec {i : Instr} (he : exec i s = .next t) : Grows s t := by
  cases i with
  | wrCmdr w =>
    cases hl : loadBit s.cfg.pos w with
    | true => exact grows_exec_of_loadedWord (loadedWord_wrCmdr hl) he
    | false =>
      cases he
      simp only [hl]
      exact ⟨by simp, by simp⟩
  | cmdClkchg w | cmdNoresp w | cmdShort w | cmdLong w => exact grows_exec_of_loadedWord rfl he
  | wrFifo v =>
    cases he
    exact ((grows_noteWrite s .fifo v).trans (frame_sendBytes _ _).grows).trans (frame_afterFifo _).grows
  | rdFifo =>
    cases he
    split
    · exact (((frame_emit s .cardDataReady).grows.trans (frame_takeBytes _ _).grows).trans
        (frame_afterFifo _).grows).trans (frame_emit _ _).grows
    · exact ((frame_emit s .cardDataReady).grows.trans (grows_raise _ _)).trans (frame_emit _ _).grows
  | evInsert | evRemove =>
    cases he
    exact ⟨List.prefix_refl _, List.suffix_cons _ _⟩
  | descLast dptr d =>
    cases he
    split
    · exact (frame_processDesc s _ dptr d).grows.trans (grows_walkEnd _ _)
    · exact (Frame.refl s []).grows
  | descLink dptr d =>
    cases he
    split
    · have hd := (frame_processDesc s (cmdWrite s.cfg.pos (s.cell .cmdr)) dptr d).grows
      refine (hd.trans ?_).trans (grows_walkEnd _ _)
      split
      · exact (Frame.refl _ []).grows
      · exact (frame_walkLoop _ _ _ _).grows
    · exact (Frame.refl s []).grows
  | _ =>
    cases he
    exact ⟨by simp, by simp⟩

/-! ### The operands of a decoded operation -/

theorem keepsInvOperand_decodeMmio (c : Cfg) (header : BitVec 13) (offHigh : BitVec 20) (size : Nat) (data : Word) :
    KeepsInvOperand c.pos (decodeMmio c header offHigh size data) := by
  have hwr (r : Reg) : KeepsInvOperand c.pos (wrInstr data r) := by cases r <;> trivial
  have hrd (r : Reg) : KeepsInvOperand c.pos (rdInstr r) := by cases r <;> trivial
  unfold decodeMmio
  dsimp only
  split
  · split
    · split
      · exact hwr _
      · exact hrd _
    · split <;> trivial
  · split <;> trivial

/-- The operations of the event codes (30_encoding.md R102). -/
theorem decodeEvent_eq_ok {code : BitVec 3} {snap : Snapshot} {i : Instr} (h : decodeEvent code snap = .ok i) :
    (code = 4 ∧ i = .evRestore snap) ∨ i = .evInsert ∨ i = .evRemove ∨ i = .evReset ∨ i = .evSave := by
  unfold decodeEvent at h
  repeat' split at h
  all_goals cases h
  all_goals simp [*]

/-- A decoded store has no load bit, and a decoded restore the snapshot of its input. -/
theorem keepsInvOperand_decodeInput {c : Cfg} {inp : Input} {i : Instr} (hd : decodeInput c inp = .ok i)
    (hsnap : ∀ code snap, inp = .event code snap → code = 4 → snap.Inv c.pos) : KeepsInvOperand c.pos i := by
  cases inp with
  | mmio header offHigh size data =>
    cases hd
    exact keepsInvOperand_decodeMmio c header offHigh size data
  | event code snap =>
    obtain ⟨hcode, rfl⟩ | rfl | rfl | rfl | rfl := decodeEvent_eq_ok hd
    · exact hsnap code snap rfl hcode
    all_goals trivial
  | command w =>
    cases hd
    cases hc : cmdClass c.pos w with
    | store => simpa [decodeCommand, hc, KeepsInvOperand] using (cmdClass_store c.pos w).1 hc
    | _ => simp [decodeCommand, hc, KeepsInvOperand]

end Sys2Proof.Machine
end

section
/-! SUPPORT. The obligations of 10_state.md that are settled here. -/

namespace Sys2Proof.Claims

open Sys2Proof.Machine

/-- Settles O55: a step runs the operation of its next input, whose operand decoding and the premise restrain, and every
operation keeps R56. -/
theorem registerInvariantsAreKept : Obligations.RegisterInvariantsAreKept := by
  intro s t h hr hs
  obtain ⟨_, hn⟩ | ⟨inp, rest, i, hin, hd, hn⟩ | ⟨_, _, _, _, _, hn⟩ := step_cases s <;> rw [hn] at hs
  · cases hs
    exact h
  · have hi := keepsInvOperand_decodeInput hd (fun code snap e => hr code snap rest (e ▸ hin))
    have hpopped : State.Inv { s with inbox := rest } := h.of_unwatched rfl (fun _ _ => rfl) rfl
    exact inv_exec hpopped hi hs
  · cases hs

/-- Settles O58: the operation a step runs appends to the log and to the events, and keeps the configuration. -/
theorem logAndEventsOnlyGrow : Obligations.LogAndEventsOnlyGrow := by
  intro s t h
  obtain rfl | ⟨i, rest, he⟩ := step_eq_next h
  · exact ⟨List.prefix_refl _, List.suffix_refl _, rfl⟩
  · obtain ⟨hlog, htrace⟩ := grows_exec he
    exact ⟨hlog, htrace, (keepsCanonical_exec he).cfg⟩

/-- Settles O24: the reset state is the power-on state of the default table, its literals. -/
theorem resetStateHoldsTheDocumentedLiterals : Obligations.ResetStateHoldsTheDocumentedLiterals := by
  refine ⟨rfl, rfl, rfl, rfl, rfl, rfl, rfl, rfl, fun c hc => ?_, rfl, rfl, by decide⟩
  cases c with
  | gctl | tmor | bksr | bycr | fwlr | a12a | ntsr | hwrst => simp at hc
  | _ => rfl

/-- Settles O57: the reset state is a power-on state of a table that meets R56, with nothing recorded. -/
theorem resetStateMeetsTheInvariants : Obligations.ResetStateMeetsTheInvariants := by
  have hwf : Cfg.default.wf = true := by decide
  exact ⟨inv_powerOn hwf inv_resetTable _ _, rfl, hwf, by decide⟩

end Sys2Proof.Claims
end

section
/-! SUPPORT. Which operations leave the card alone (20_memory.md R70, R73), and the obligation of 20_memory.md that is
settled here. -/

namespace Sys2Proof.Machine

/-- Whether or not a write of `DMAC` or `IDIE` drives the line, the card is not called. -/
theorem cardCalls_dmaControlLine (s : State) : cardCalls s.dmaControlLine.trace = cardCalls s.trace := by
  unfold State.dmaControlLine
  split <;> rfl

/-- An operation that is no data path leaves the card as it is and makes no call of it (20_memory.md R70, R73). -/
theorem exec_of_not_mayCallCard {i : Instr} {s t : State} (hc : Claims.mayCallCard s.cfg.pos i = false)
    (h : exec i s = .next t) : t.card = s.card ∧ cardCalls t.trace = cardCalls s.trace := by
  cases i with
  | wrCmdr v =>
    have hl : loadBit s.cfg.pos v = false := hc
    cases h
    simp [hl]
  | wrFifo v | rdFifo | cmdClkchg w | cmdNoresp w | cmdShort w | cmdLong w | descLast dptr d | descLink dptr d =>
    cases hc
  | wrDmac v | wrIdie v =>
    cases h
    exact ⟨by simp, (cardCalls_dmaControlLine _).trans (by simp)⟩
  | evInsert | evRemove =>
    cases h
    exact ⟨rfl, rfl⟩
  | _ =>
    cases h
    simp

end Sys2Proof.Machine

namespace Sys2Proof.Claims

open Sys2Proof.Machine

/-- Settles O35: a row that cannot walk leaves memory alone, and one that is no FIFO access either leaves the card alone,
row by row. -/
theorem onlyTheWalkWritesMemoryAndOnlyDataPathsReachTheCard :
    Obligations.OnlyTheWalkWritesMemoryAndOnlyDataPathsReachTheCard := by
  intro i s t h
  refine ⟨fun hw => ?_, fun hc => exec_of_not_mayCallCard hc h⟩
  obtain ⟨_, hmem⟩ := exec_of_not_mayWalk hw h
  exact hmem

end Sys2Proof.Claims
end

section
/-! SUPPORT. What the decoder gives: a well-formed operation of every format, the register's operation at its offset, the row
of a command word's class, four words of a descriptor's bytes (30_encoding.md R101 to R112). -/

namespace Sys2Proof

/-! ### Decoded operations are well-formed -/

theorem wellFormed_wrInstr (c : Cfg) (v : Word) (r : Reg) : (wrInstr v r).wellFormed c = true := by cases r <;> rfl

theorem wellFormed_rdInstr (c : Cfg) (r : Reg) : (rdInstr r).wellFormed c = true := by cases r <;> rfl

/-- An access of the legal shape is well-formed as the operation of its register, or as a catch-all row where there is
none; one of another shape as an illegal access (30_encoding.md R110). -/
theorem wellFormed_decodeMmio (c : Cfg) (header : BitVec 13) (offHigh : BitVec 20) (size : Nat) (data : Word) :
    (decodeMmio c header offHigh size data).wellFormed c = true := by
  unfold decodeMmio
  dsimp only
  split
  case isTrue hshape =>
    obtain ⟨rfl, haligned⟩ := (legalShape_iff _ _).1 hshape
    split
    case h_1 r _ =>
      split
      · exact wellFormed_wrInstr c data r
      · exact wellFormed_rdInstr c r
    case h_2 hnone => split <;> simp [Instr.wellFormed, hnone, accessBytes, hshape]
  case isFalse hshape => split <;> simpa [Instr.wellFormed] using hshape

theorem wellFormed_decodeEvent {c : Cfg} {code : BitVec 3} {snap : Snapshot} {i : Instr}
    (h : decodeEvent code snap = .ok i) : i.wellFormed c = true := by
  obtain ⟨_, rfl⟩ | rfl | rfl | rfl | rfl := Machine.decodeEvent_eq_ok h <;> rfl

theorem wellFormed_decodeCommand (c : Cfg) (w : Word) : (decodeCommand c.pos w).wellFormed c = true := by
  unfold decodeCommand
  split <;> exact beq_iff_eq.2 ‹_›

theorem wellFormed_decodeDesc (c : Cfg) (dptr : Word) (d : Desc) : (decodeDesc c.pos dptr d).wellFormed c = true := by
  unfold decodeDesc
  split
  case isTrue hlast => exact hlast
  case isFalse hlast => simpa [Instr.wellFormed] using hlast

/-- The decoder gives well-formed operations only, whatever the configuration. -/
theorem wellFormed_of_decode {c : Cfg} {e : Encoded} {i : Instr} (h : decode c e = .ok i) : i.wellFormed c = true := by
  cases e with
  | input inp =>
    cases inp with
    | mmio header offHigh size data =>
      cases h
      exact wellFormed_decodeMmio c header offHigh size data
    | event code snap => exact wellFormed_decodeEvent h
    | command w =>
      cases h
      exact wellFormed_decodeCommand c w
  | descriptor dptr bytes =>
    simp only [decode] at h
    split at h
    · cases h
      exact wellFormed_decodeDesc c dptr _
    · cases h

/-! ### Bus transactions -/

/-- A legal access at a register's offset decodes to the register's operation (30_encoding.md R110 step 3). -/
theorem decodeMmio_offset {c : Cfg} (hc : c.wf = true) {r : Reg} {header : BitVec 13} {offHigh : BitVec 20}
    (hoff : Claims.busOffset header offHigh = c.offsets.get r) (data : Word) :
    decodeMmio c header offHigh accessBytes data = if header.getLsbD 12 then wrInstr data r else rdInstr r := by
  have hoff : offHigh ++ header.extractLsb' 0 12 = c.offsets.get r := hoff
  simp [decodeMmio, hoff, legalShape_offset hc, regAt_offset hc]

/-! ### The words of a descriptor -/

theorem getD_drop (b : List Byte) (i k : Nat) : (b.drop i).getD k 0 = b.getD (i + k) 0 := by
  simp [List.getD_eq_getElem?_getD]

/-- A little-endian descriptor word as a number (20_memory.md R75). -/
theorem toNat_word_little (b : List Byte) (i : Nat) : (ByteOrder.little.word (b.drop i)).toNat = Claims.le32Nat b i := by
  simp only [ByteOrder.word, le32List, toNat_le32, getD_drop, Claims.le32Nat, Nat.add_zero]

/-- A big-endian descriptor word as a number (00_scope.md R5, `DESC_BYTE_ORDER`). -/
theorem toNat_word_big (b : List Byte) (i : Nat) : (ByteOrder.big.word (b.drop i)).toNat = Claims.be32Nat b i := by
  simp only [ByteOrder.word, be32At, toNat_be32, getD_drop, Claims.be32Nat, Nat.add_zero, Nat.zero_add]

theorem decode_descriptor {b : List Byte} (h : b.length = descBytes) (c : Cfg) (dptr : Word) :
    decode c (.descriptor dptr b) = .ok (decodeDesc c.pos dptr (Desc.ofBytes c.descByteOrder b)) := if_pos h

/-! ### Command words under the masks of the table -/

/-- Two masked matches of one word agree on the bits that both masks look at. -/
theorem match_and_mask {w m k m' k' : Word} (h : w &&& m = k) (h' : w &&& m' = k') : k &&& m' = k' &&& m := by
  rw [← h, ← h', BitVec.and_assoc, BitVec.and_assoc, BitVec.and_comm m]

/-- Any two command rows ask for different values of a bit that both masks look at (30_encoding.md R111). -/
theorem commandRows_disjoint : ∀ row ∈ Claims.commandRows, ∀ row' ∈ Claims.commandRows,
    row.2.1 &&& row'.1 = row'.2.1 &&& row.1 → row'.1 = row.1 ∧ row'.2.1 = row.2.1 := by decide

/-- The masked row of a word's class: the word matches it and decodes to it (30_encoding.md R111). -/
theorem exists_commandRow (w : Word) : ∃ row ∈ Claims.commandRows,
    w &&& row.1 = row.2.1 ∧ decode Cfg.default (.input (.command w)) = .ok (row.2.2 w) := by
  have hwf := wellFormed_decodeCommand Cfg.default w
  have hdec : decode Cfg.default (.input (.command w)) = .ok (decodeCommand Cfg.default.pos w) := rfl
  rw [hdec]
  unfold decodeCommand at hwf ⊢
  generalize cmdClass Cfg.default.pos w = k at hwf ⊢
  cases k with
  | store => exact ⟨_, .head _, Laws.RowMatch.cmdStore w hwf, rfl⟩
  | clkchg => exact ⟨_, .tail _ (.head _), Laws.RowMatch.cmdClkchg w hwf, rfl⟩
  | noresp => exact ⟨_, .tail _ (.tail _ (.head _)), Laws.RowMatch.cmdNoresp w hwf, rfl⟩
  | short => exact ⟨_, .tail _ (.tail _ (.tail _ (.head _))), Laws.RowMatch.cmdShort w hwf, rfl⟩
  | long => exact ⟨_, .tail _ (.tail _ (.tail _ (.tail _ (.head _)))), Laws.RowMatch.cmdLong w hwf, rfl⟩

end Sys2Proof
end

section
/-! SUPPORT. The class rows of a command word against the general dispatch path of `WR CMDR` (41_command_engine.md R222 to
R228): each class's own rule is the outcome table for words of that class. -/

namespace Sys2Proof.Machine

/-- The general path of a loaded word that reaches the card: latch, issue, settle by the outcome table, follow up
(40_register_access.md R144, 41_command_engine.md R222, R228). -/
def State.issueAndSettle (s : State) (w : Word) : State :=
  (((s.latch w).cardIssue (cmdIdx s.cfg.pos w) (s.cell .cagr)).2.settle
    (cmdResult s.cfg.pos w (Claims.answer s w))).afterDispatch

/-- The latch does not change what the card answers (41_command_engine.md R224). -/
theorem cardIssue_latch_fst (s : State) (w : Word) :
    ((s.latch w).cardIssue (cmdIdx s.cfg.pos w) (s.cell .cagr)).1 = Claims.answer s w := by
  simp [Claims.answer]

theorem execWrCmdr_store {w : Word} {s : State} (hl : loadBit s.cfg.pos w = false) :
    execWrCmdr w s = execCmdStore w s := by
  simp [execWrCmdr, execCmdStore, hl]

theorem execWrCmdr_clkchg {w : Word} {s : State} (hp : s.cfg.pos.wf = true) (hl : loadBit s.cfg.pos w = true)
    (hc : clkChange s.cfg.pos w = true) : execWrCmdr w s = execCmdClkchg w s := by
  rw [execWrCmdr_loaded w s hl, State.dispatch, cfg_latch, clkChange_latched hp, if_pos hc]
  rfl

theorem execWrCmdr_issue {w : Word} {s : State} (hp : s.cfg.pos.wf = true) (hl : loadBit s.cfg.pos w = true)
    (hc : clkChange s.cfg.pos w = false) : execWrCmdr w s = .next (s.issueAndSettle w) := by
  rw [execWrCmdr_loaded w s hl, dispatch_latch s w hp hc]
  rfl

/-- R225: with no response expected, every answer but a failure counts, and its bytes are discarded. -/
theorem execCmdNoresp_eq {w : Word} {s : State} (he : respExp s.cfg.pos w = false) :
    execCmdNoresp w s = .next (s.issueAndSettle w) := by
  simp only [execCmdNoresp, State.issueAndSettle, cardIssue_latch_fst]
  cases Claims.answer s w with
  | none => simp [cmdResult, State.settle]
  | some b => simp [cmdResult, State.settle, he]

/-- R226: of the answers to a word that expects a short response, the outcome table captures those of four bytes. -/
theorem execCmdShort_eq {w : Word} {s : State} (he : respExp s.cfg.pos w = true) (hl : respLong s.cfg.pos w = false) :
    execCmdShort w s = .next (s.issueAndSettle w) := by
  simp only [execCmdShort, State.issueAndSettle, cardIssue_latch_fst]
  split
  case h_1 b0 b1 b2 b3 hr => simp [hr, cmdResult, State.settle, State.capture, he, hl, be32At]
  case h_2 hne =>
    cases hr : Claims.answer s w with
    | none => simp [cmdResult, State.settle]
    | some b =>
      have hlen : b.length ≠ 4 := fun hlen => by
        obtain ⟨b0, b1, b2, b3, rfl⟩ := List.length_eq_four.1 hlen
        exact hne b0 b1 b2 b3 hr
      simp [cmdResult, State.settle, he, hl, hlen]

/-- R227: of the answers to a word that expects a long response, the outcome table captures those of sixteen bytes. -/
theorem execCmdLong_eq {w : Word} {s : State} (he : respExp s.cfg.pos w = true) (hl : respLong s.cfg.pos w = true) :
    execCmdLong w s = .next (s.issueAndSettle w) := by
  simp only [execCmdLong, State.issueAndSettle, cardIssue_latch_fst]
  cases Claims.answer s w with
  | none => simp [cmdResult, State.settle]
  | some b => by_cases hlen : b.length = 16 <;> simp [cmdResult, State.settle, State.capture, he, hl, hlen]

/-- `WR CMDR` is the row of its word's class (log entry 9). -/
theorem exec_wrCmdr_eq_class {s : State} (hp : s.cfg.pos.wf = true) (w : Word) :
    exec (.wrCmdr w) s = exec (decodeCommand s.cfg.pos w) s := by
  unfold decodeCommand
  cases hclass : cmdClass s.cfg.pos w with
  | store => exact execWrCmdr_store ((cmdClass_store _ _).1 hclass)
  | clkchg =>
    obtain ⟨hload, hclk⟩ := (cmdClass_clkchg _ _).1 hclass
    exact execWrCmdr_clkchg hp hload hclk
  | noresp =>
    obtain ⟨hload, hclk, hexp⟩ := (cmdClass_noresp _ _).1 hclass
    exact (execWrCmdr_issue hp hload hclk).trans (execCmdNoresp_eq hexp).symm
  | short =>
    obtain ⟨hload, hclk, hexp, hlong⟩ := (cmdClass_short _ _).1 hclass
    exact (execWrCmdr_issue hp hload hclk).trans (execCmdShort_eq hexp hlong).symm
  | long =>
    obtain ⟨hload, hclk, hexp, hlong⟩ := (cmdClass_long _ _).1 hclass
    exact (execWrCmdr_issue hp hload hclk).trans (execCmdLong_eq hexp hlong).symm

end Sys2Proof.Machine
end

section
/-! SUPPORT. The obligations of 30_encoding.md that are settled here. -/

namespace Sys2Proof.Claims

open Sys2Proof.Machine

/-- Settles O4, by the decoder's inversion of the encoder, row by row. -/
theorem decodeInvertsEncode : Obligations.DecodeInvertsEncode := fun _ _ hc hi => decode_encode hc hi

/-- Settles O5, format by format. -/
theorem decodedOperationsAreWellFormed : Obligations.DecodedOperationsAreWellFormed :=
  fun _ _ _ h => wellFormed_of_decode h

/-- Settles O7: the row of the word's class matches it, and no word matches two rows, since any two disagree on a bit. -/
theorem commandClassesPartitionTheWords : Obligations.CommandClassesPartitionTheWords := by
  intro w
  obtain ⟨row, hrow, hmatch, hdec⟩ := exists_commandRow w
  exact ⟨row, hrow, hmatch, hdec, fun row' hrow' hmatch' =>
    commandRows_disjoint row hrow row' hrow' (match_and_mask hmatch hmatch')⟩

/-- Settles O8: the descriptor of the bytes decodes by its `LAST`, and its words are the numbers of its bytes in either
order. -/
theorem descriptorClassFollowsLast : Obligations.DescriptorClassFollowsLast := by
  intro c dptr b hb
  refine ⟨Desc.ofBytes c.descByteOrder b, decode_descriptor hb c dptr, fun ho => ?_, fun ho => ?_⟩ <;> rw [ho]
  · exact ⟨toNat_word_little b 0, toNat_word_little b 4, toNat_word_little b 8, toNat_word_little b 12⟩
  · exact ⟨toNat_word_big b 0, toNat_word_big b 4, toNat_word_big b 8, toNat_word_big b 12⟩

/-- Settles O11: a step runs what its input decodes to, and a legal access decodes to its register's operation. -/
theorem legalAccessRunsItsRegistersOperation : Obligations.LegalAccessRunsItsRegistersOperation := by
  intro r s header offHigh data rest hc hin hoff
  exact step_of_ok hin (congrArg Except.ok (decodeMmio_offset hc hoff data))

/-- Settles O26: the class of the word decides the row, and each class's rule is the outcome table on its words. -/
theorem commandWriteIsItsClassRow : Obligations.CommandWriteIsItsClassRow := by
  intro w s i hc hi
  cases hi
  exact exec_wrCmdr_eq_class (Cfg.wf_pos hc) w

/-- Settles O2: the words are literals, which the decoder evaluates to their operations. -/
theorem specWordsDecodeToTheirOperations : Obligations.SpecWordsDecodeToTheirOperations :=
  ⟨rfl, rfl, rfl, rfl, rfl, rfl, rfl, rfl⟩

end Sys2Proof.Claims
end

section
/-! SUPPORT. Register accesses, one rule each (40_register_access.md): what a write that stores in one cell leaves alone, what
a read returns, and that the catch-all rows only log. -/

namespace Sys2Proof

/-- An access of another shape is illegal, whatever stands at its offset (30_encoding.md R110 step 1). -/
theorem decodeMmio_illegal {c : Cfg} {header : BitVec 13} {offHigh : BitVec 20} {size : Nat}
    (h : size ≠ 4 ∨ (Claims.busOffset header offHigh).toNat % 4 ≠ 0) (data : Word) :
    decodeMmio c header offHigh size data =
      if header.getLsbD 12 then .wrxIllegalAccess (Claims.busOffset header offHigh) size data
      else .rdxIllegalAccess (Claims.busOffset header offHigh) size := by
  have hshape : legalShape (Claims.busOffset header offHigh) size = false := by
    rw [← Bool.not_eq_true, legalShape_iff]
    tauto
  unfold Claims.busOffset at hshape ⊢
  simp [decodeMmio, hshape]

/-- A legal access where no register stands (30_encoding.md R110 step 2), inside the window or beyond it. -/
theorem decodeMmio_unknown {c : Cfg} {header : BitVec 13} {offHigh : BitVec 20}
    (ha : (Claims.busOffset header offHigh).toNat % 4 = 0)
    (hr : ∀ r, c.offsets.get r ≠ Claims.busOffset header offHigh) (data : Word) :
    decodeMmio c header offHigh 4 data =
      if header.getLsbD 12 then .wrxUnknownOffset (Claims.busOffset header offHigh) data
      else .rdxUnknownOffset (Claims.busOffset header offHigh) := by
  have hshape : legalShape (Claims.busOffset header offHigh) 4 = true := (legalShape_iff _ _).2 ⟨rfl, ha⟩
  have hnone := regAt_none hr
  unfold Claims.busOffset at hshape hnone ⊢
  simp [decodeMmio, hshape, hnone]

end Sys2Proof

namespace Sys2Proof.Machine

/-- The diagnostic of a legal write is an entry in the log and nothing else (40_register_access.md R130). -/
theorem noteWrite_eq (s : State) (r : Reg) (v : Word) : s.noteWrite r v = { s with log := s.logAfterWrite r v } := by
  unfold State.noteWrite State.logAfterWrite
  split <;> rfl

/-! ### A write that stores in one cell -/

/-- From `s`, a write of `v` to register `r` has stored `x` in the cell `c`, and touched nothing else but the log and the
record of events. -/
structure Stored (s t : State) (r : Reg) (v : Word) (c : Cell) (x : Word) : Prop where
  cell : t.cell c = x
  keeps : s.keepsCells t [c]
  xfer : t.xfer = s.xfer
  outside : s.sameOutside t
  log : t.log = s.logAfterWrite r v

section
variable {s t : State} {r : Reg} {v x : Word} {c : Cell}

theorem stored_setCell (s : State) (r : Reg) (v : Word) (c : Cell) (x : Word) :
    Stored s ((s.noteWrite r v).setCell c x) r v c x where
  cell := by simp
  keeps := fun c' hc => by simpa using fun e : c' = c => absurd e (by simpa using hc)
  xfer := by simp
  outside := by simp [State.sameOutside]
  log := by simp

theorem Stored.cfg (h : Stored s t r v c x) : t.cfg = s.cfg := h.outside.1

theorem Stored.irqUpdate (h : Stored s t r v c x) : Stored s t.irqUpdate r v c x :=
  ⟨h.cell, h.keeps, h.xfer, h.outside, h.log⟩

theorem Stored.dmaControlLine (h : Stored s t r v c x) : Stored s t.dmaControlLine r v c x := by
  unfold State.dmaControlLine
  split
  · exact h.irqUpdate
  · exact h

/-- A cell the line does not read leaves the level as it was (43_interrupt_coalescer.md R280). -/
theorem Stored.irqLevel (h : Stored s t r v c x) (hc : c ∉ [Cell.gctl, .risr, .imkr]) : t.irqLevel = s.irqLevel := by
  simp only [List.mem_cons, List.not_mem_nil, or_false, not_or, @eq_comm _ c] at hc
  obtain ⟨hgctl, hrisr, himkr⟩ := hc
  exact State.irqLevel_congr s t h.cfg (h.keeps _ (by simpa using hgctl)) (h.keeps _ (by simpa using hrisr))
    (h.keeps _ (by simpa using himkr))

/-- Storing what a cell holds leaves the register file as it was. -/
theorem Stored.x_eq (h : Stored s t r v c x) (hx : x = s.cell c) : t.x = s.x := by
  refine Regs.ext_get _ _ fun c' => ?_
  by_cases hc : c' = c
  · subst hc
    exact h.cell.trans hx
  · exact h.keeps c' (by simpa using hc)

end

/-! ### The rows of the claims' tables -/

/-- A plain-storage write stores its value and does no more (40_register_access.md R131). -/
theorem exec_plainWrite : ∀ e ∈ Claims.plainStorage, ∀ (s : State) (v : Word),
    exec (e.2.1 v) s = .next ((s.noteWrite e.1.reg v).setCell e.1 v) := by
  intro e he s v
  fin_cases he <;> rfl

/-- A read of a register with a cell returns the cell (40_register_access.md R133 to R189). -/
theorem exec_cellRead : ∀ e ∈ Claims.cellReads, ∀ s : State,
    exec e.2 s = .next { s with trace := .busRead 4 (s.cell e.1) :: s.trace } := by
  intro e he s
  fin_cases he <;> rfl

/-- A read of the fixed-zero block returns 0 (10_state.md R50). -/
theorem exec_zeroRead : ∀ i ∈ Claims.zeroReads, ∀ s : State,
    exec i s = .next { s with trace := .busRead 4 0 :: s.trace } := by
  intro i hi s
  fin_cases hi <;> rfl

/-- A write to a fixed register leaves its diagnostic at most (40_register_access.md R162, R190 to R208). -/
theorem exec_fixedWrite : ∀ e ∈ Claims.fixedWrites, ∀ (s : State) (v : Word),
    exec (e.2 v) s = .next (s.noteWrite e.1 v) := by
  intro e he s v
  fin_cases he <;> rfl

/-- A write of `DMAC` or `IDIE` is a store; it drives the line where the configuration says so (log entry 17). -/
theorem exec_dmaControlWrite : ∀ e ∈ [(Cell.dmac, Instr.wrDmac), (Cell.idie, Instr.wrIdie)], ∀ (s : State) (v : Word),
    exec (e.2 v) s = .next ((s.noteWrite e.1.reg v).setCell e.1 v).dmaControlLine := by
  intro e he s v
  fin_cases he <;> rfl

/-- An acknowledge is a store in `RISR` and an update of the line, by either name (43_interrupt_coalescer.md R282). -/
theorem exec_acknowledge : ∀ e ∈ [(Reg.risr, Instr.wrRisr), (Reg.misr, Instr.wrMisr)], ∀ (s : State) (v : Word),
    exec (e.2 v) s = .next ((s.noteWrite e.1 v).setCell .risr (s.cell .risr &&& ~~~v)).irqUpdate := by
  intro e he s v
  fin_cases he <;> simp [exec, execWrRisr, execWrMisr, State.acknowledge]

/-- A plain-storage register is read back by a row of the cell reads. -/
theorem plainStorage_read_mem : ∀ e ∈ Claims.plainStorage, (e.1, e.2.2) ∈ Claims.cellReads := by decide

/-- No plain-storage register is one the line reads, nor `STAR`, which reset treats apart. -/
theorem plainStorage_cell : ∀ e ∈ Claims.plainStorage, e.1 ∉ [Cell.gctl, .risr, .imkr] ∧ e.1 ≠ .star := by decide

/-- Reset gives every cell but `STAR` its entry of the reset table (70_reset_and_hazards.md R380). -/
theorem get_resetRegs (cfg : Cfg) (x : Regs) {c : Cell} (hc : c ≠ .star) : (resetRegs cfg x).get c = cfg.rst.get c := by
  cases c with
  | star => exact absurd rfl hc
  | _ => rfl

/-- The strobes as a mask, bit by bit (10_state.md R25). -/
theorem getLsbD_strobes {p : Positions} (hp : p.wf = true) (k : Nat) :
    p.strobes.getLsbD k = decide (k = p.softRst ∨ k = p.fifoRst ∨ k = p.dmaRst) := by
  obtain ⟨hsoft, hfifo, hdma, -⟩ := Positions.wf_gctl hp
  simp [Positions.strobes, getLsbD_bit, hsoft, hfifo, hdma, Bool.or_assoc, @eq_comm _ k]

end Sys2Proof.Machine
end

section
/-! SUPPORT. The obligations of 40_register_access.md that are settled here. -/

namespace Sys2Proof.Claims

open Sys2Proof.Machine

/-- Settles O12: the four meanings, unfolded. -/
theorem catchAllRowsComplete : Obligations.CatchAllRowsComplete := fun _ _ _ _ => ⟨rfl, rfl, rfl, rfl⟩

/-- Settles O9: the access decodes to an illegal row in its direction, which logs it. -/
theorem illegalAccessIsLoggedAndIgnored : Obligations.IllegalAccessIsLoggedAndIgnored := by
  intro s header offHigh size data rest hin hbad
  rw [step_of_ok hin (congrArg Except.ok (decodeMmio_illegal hbad data))]
  obtain ⟨-, -, hwrite, hread⟩ := catchAllRowsComplete { s with inbox := rest } (busOffset header offHigh) data size
  cases header.getLsbD 12
  · exact hread
  · exact hwrite

/-- Settles O10: the access decodes to an unknown-offset row in its direction, which logs it. -/
theorem unknownOffsetIsLoggedAndIgnored : Obligations.UnknownOffsetIsLoggedAndIgnored := by
  intro s header offHigh data rest hin ha hr
  rw [step_of_ok hin (congrArg Except.ok (decodeMmio_unknown ha hr data))]
  obtain ⟨hwrite, hread, -⟩ := catchAllRowsComplete { s with inbox := rest } (busOffset header offHigh) data 4
  cases header.getLsbD 12
  · exact hread
  · exact hwrite

/-- Settles O13: the write is a store in one cell that the line does not read; the read row of the table returns the cell,
and reset takes it from the reset table. -/
theorem plainStorageRegistersRoundTrip : Obligations.PlainStorageRegistersRoundTrip := by
  intro e he s v
  have h := stored_setCell s e.1.reg v e.1 v
  obtain ⟨hline, hstar⟩ := plainStorage_cell e he
  refine ⟨_, exec_plainWrite e he s v, h.cell, h.keeps, h.xfer, h.outside, by simp, h.log, h.irqLevel hline, h.x_eq, ?_,
    _, rfl, ?_⟩
  · rw [exec_cellRead _ (plainStorage_read_mem e he), h.cell]
  · exact (get_resetRegs _ _ hstar).trans (by rw [h.cfg])

/-- Settles O14: each write is a store in one cell; the line reads `IMKR`, and neither `DMAC` nor `IDIE`. -/
theorem maskAndDmaControlWritesDriveTheLine : Obligations.MaskAndDmaControlWritesDriveTheLine := by
  intro e he s v
  obtain rfl | hdma := List.mem_cons.1 he
  · have h := (stored_setCell s .imkr v .imkr v).irqUpdate
    refine ⟨_, rfl, h.cell, h.keeps, h.xfer, h.outside, by simp, h.log, fun _ => ?_, by simp⟩
    simp [State.irqLevel]
  · have h := (stored_setCell s e.1.reg v e.1 v).dmaControlLine
    have hcell : e.1 ≠ .imkr ∧ e.1 ∉ [Cell.gctl, .risr, .imkr] := by fin_cases hdma <;> decide
    obtain ⟨himkr, hline⟩ := hcell
    exact ⟨_, exec_dmaControlWrite e hdma s v, h.cell, h.keeps, h.xfer, h.outside, by simp [himkr], h.log,
      fun hc => absurd hc himkr, fun _ => h.irqLevel hline⟩

/-- Settles O15: a store of the word without its strobes; the field `INT_ENB` is none of them. -/
theorem globalControlWriteDropsTheStrobes : Obligations.GlobalControlWriteDropsTheStrobes := by
  intro s v hc
  have hp := Cfg.wf_pos hc
  have h := (stored_setCell s .gctl v .gctl (v &&& ~~~s.cfg.pos.strobes)).irqUpdate
  obtain ⟨-, -, -, hint, -, hapart⟩ := Positions.wf_gctl hp
  have hbit (k : Nat) (hk : k < 32) : (v &&& ~~~s.cfg.pos.strobes).getLsbD k =
      (v.getLsbD k && !decide (k = s.cfg.pos.softRst ∨ k = s.cfg.pos.fifoRst ∨ k = s.cfg.pos.dmaRst)) := by
    rw [BitVec.getLsbD_and, BitVec.getLsbD_not, getLsbD_strobes hp, decide_eq_true hk, Bool.true_and]
  have hintEnb : (v &&& ~~~s.cfg.pos.strobes).getLsbD s.cfg.pos.intEnb = v.getLsbD s.cfg.pos.intEnb := by
    rw [hbit _ hint]
    simpa [or_assoc] using fun _ => hapart _ (List.mem_cons_self ..)
  refine ⟨_, rfl, fun k hk => h.cell ▸ hbit k hk, h.keeps, h.xfer, h.outside, h.log, by simp, ?_⟩
  rw [State.irqLevel, h.cfg, h.cell, h.keeps .risr (by decide), h.keeps .imkr (by decide), hintEnb]

/-- Settles O17: a store of the raw status under the complement of the word written, by either name. -/
theorem acknowledgeClearsExactlyTheWrittenBits : Obligations.AcknowledgeClearsExactlyTheWrittenBits := by
  intro e he s v
  have h := (stored_setCell s e.1 v .risr (s.cell .risr &&& ~~~v)).irqUpdate
  refine ⟨_, exec_acknowledge e he s v, fun k hk => ?_, h.keeps, h.xfer, h.outside, h.log, by simp⟩
  rw [h.cell, BitVec.getLsbD_and, BitVec.getLsbD_not]
  simp [hk]

/-- Settles O18: a store of the status under the complement of the masked word; the line does not read `IDST`. -/
theorem dmaStatusWriteClearsInsideItsMask : Obligations.DmaStatusWriteClearsInsideItsMask := by
  refine ⟨rfl, fun s v => ?_⟩
  have h := (stored_setCell s .idst v .idst (s.cell .idst &&& ~~~(v &&& s.cfg.idstW1cMask))).irqUpdate
  have hlevel := h.irqLevel (by decide)
  refine ⟨_, rfl, fun k hk => ?_, h.keeps, h.xfer, h.outside, h.log, hlevel, ?_⟩
  · rw [h.cell, BitVec.getLsbD_and, BitVec.getLsbD_not, BitVec.getLsbD_and]
    simp [hk]
  · rw [← hlevel]
    simp

/-- Settles O16: a store in `BYCR`, and the value once more in `XFER`. -/
theorem byteCountWriteLoadsTheTransferCounter : Obligations.ByteCountWriteLoadsTheTransferCounter := by
  intro s v
  have h := stored_setCell s .bycr v .bycr v
  refine ⟨_, rfl, h.cell, rfl, h.keeps, h.outside, by simp, h.log, ?_⟩
  rw [exec_cellRead (.bycr, .rdBycr) (by decide)]
  simp

/-- Settles O19: the only thing such a write does is the diagnostic of a register in `UNIMP_SET`. -/
theorem fixedRegistersIgnoreWrites : Obligations.FixedRegistersIgnoreWrites := by
  intro e he s v
  rw [exec_fixedWrite e he, noteWrite_eq]

/-- Settles O20, by the two tables of reads and `RD MISR`. -/
theorem readsReturnTheirRegisterAndChangeNothing : Obligations.ReadsReturnTheirRegisterAndChangeNothing :=
  fun s => ⟨fun e he => exec_cellRead e he s, rfl, fun i hi => exec_zeroRead i hi s⟩

/-- Settles O27: without the load bit both rows are one store in `CMDR`, which the line does not read. -/
theorem commandWordWithoutLoadIsOnlyStored : Obligations.CommandWordWithoutLoadIsOnlyStored := by
  intro e he s w hl
  have hrow : exec (e w) s = execCmdStore w s := by
    fin_cases he
    · exact execWrCmdr_store hl
    · rfl
  have h := (stored_setCell s .cmdr w .cmdr w).irqUpdate
  refine ⟨_, hrow, h.cell, h.keeps, h.xfer, h.outside, h.log, ?_⟩
  rw [← h.irqLevel (by decide)]
  simp

end Sys2Proof.Claims
end

section
/-! SUPPORT. The frame of every operation: the cells it may write (40_register_access.md R131 to R214, 41_command_engine.md
R222, 42_dma_engine.md R254), and which of them can raise `XFER` (10_state.md R54). -/

namespace Sys2Proof

theorem Cell.mem_all (c : Cell) : c ∈ Cell.all := by cases c <;> decide

end Sys2Proof

namespace Sys2Proof.Machine

variable {s t : State}

/-- From `s` to `t` only the cells of `but` changed, and neither the configuration nor the pending inputs: `Frame` without
the log. -/
structure Touches (s t : State) (but : List Cell) : Prop where
  cells : s.keepsCells t but
  cfg : t.cfg = s.cfg
  inbox : t.inbox = s.inbox

theorem Touches.trans {u : State} {but : List Cell} (h : Touches s t but) (h' : Touches t u but) : Touches s u but :=
  ⟨fun c hc => (h'.cells c hc).trans (h.cells c hc), h'.cfg.trans h.cfg, h'.inbox.trans h.inbox⟩

theorem Frame.touches {but but' : List Cell} (h : Frame s t but) (hs : but ⊆ but') : Touches s t but' :=
  ⟨(h.mono hs).cells, h.cfg, h.inbox⟩

theorem Touches.mono {but but' : List Cell} (h : Touches s t but) (hs : but ⊆ but') : Touches s t but' :=
  ⟨fun c hc => h.cells c (fun hb => hc (hs hb)), h.cfg, h.inbox⟩

theorem Stored.touches {r : Reg} {v x : Word} {c : Cell} (h : Stored s t r v c x) : Touches s t [c] := by
  obtain ⟨-, -, -, hinbox⟩ := h.outside
  exact ⟨h.keeps, h.cfg, hinbox⟩

theorem touches_noteWrite (s : State) (r : Reg) (v : Word) (but : List Cell) : Touches s (s.noteWrite r v) but :=
  ⟨fun _ _ => by simp, by simp, by simp⟩

/-- The cells a loaded command word may write: the latch's, and those of what follows (41_command_engine.md R222). -/
theorem touches_exec_of_loadedWord {i : Instr} {w : Word} (hl : loadedWord s.cfg.pos i = some w)
    (he : exec i s = .next t) : Touches s t (.cmdr :: commandCells) := by
  obtain ⟨u, hu, hnext⟩ := exec_of_loadedWord hl
  cases he.symm.trans hnext
  have hlatch : Touches s (s.latch w) [.cmdr] := (stored_setCell s .cmdr w .cmdr _).touches
  exact ((hlatch.mono (by decide)).trans (hu.frame.touches (by decide))).trans ((frame_afterDispatch u).touches (by decide))

theorem touches_processDesc (s : State) (wr : Bool) (dptr : Word) (d : Desc) :
    Touches s (s.processDesc wr dptr d) commandCells :=
  (frame_processDesc s wr dptr d).touches (by decide)

/-- A walk's end: completion, auto-stop check, line. -/
theorem touches_walkEnd (s : State) (wr : Bool) :
    Touches s (s.walkComplete wr).autoStopCheck.irqUpdate commandCells :=
  (((frame_walkComplete s wr).touches (by decide)).trans ((frame_autoStopCheck _).touches (by decide))).trans
    ((frame_irqUpdate _).touches (by decide))

/-- Every operation writes no cell but its own. -/
theorem touches_exec {i : Instr} (he : exec i s = .next t) : Touches s t (Claims.mayWrite i) := by
  cases i with
  | wrCmdr w =>
    cases hl : loadBit s.cfg.pos w with
    | true => exact touches_exec_of_loadedWord (loadedWord_wrCmdr hl) he
    | false =>
      cases he
      simp only [hl]
      exact (stored_setCell s .cmdr w .cmdr w).irqUpdate.touches.mono (by simp [Claims.mayWrite])
  | cmdClkchg w | cmdNoresp w | cmdShort w | cmdLong w => exact touches_exec_of_loadedWord rfl he
  | descLast dptr d =>
    cases he
    split
    · exact (touches_processDesc s _ dptr d).trans (touches_walkEnd _ _)
    · exact (Frame.refl s []).touches (List.nil_subset _)
  | descLink dptr d =>
    cases he
    generalize cmdWrite s.cfg.pos (s.cell .cmdr) = wr
    split
    · refine ((touches_processDesc s wr dptr d).trans ?_).trans (touches_walkEnd _ _)
      split
      · exact (Frame.refl _ []).touches (List.nil_subset _)
      · exact (frame_walkLoop _ _ _ _).touches (by decide)
    · exact (Frame.refl s []).touches (List.nil_subset _)
  | wrFifo v =>
    cases he
    exact ((touches_noteWrite s .fifo v _).trans ((frame_sendBytes _ _).touches (List.nil_subset _))).trans
      ((frame_afterFifo _).touches (List.Subset.refl _))
  | rdFifo =>
    cases he
    split
    · exact ((((frame_emit s .cardDataReady).touches (List.nil_subset _)).trans
        ((frame_takeBytes _ _).touches (List.nil_subset _))).trans
        ((frame_afterFifo _).touches (List.Subset.refl _))).trans ((frame_emit _ _).touches (List.nil_subset _))
    · exact ⟨fun _ _ => rfl, rfl, rfl⟩
  | evInsert | evRemove =>
    cases he
    exact (((frame_setCell s .risr _).touches (by decide)).trans ((frame_setCell _ .star _).touches (by decide))).trans
      ((frame_irqUpdate _).touches (by decide))
  | evReset | evRestore snap =>
    cases he
    exact ⟨fun c hc => absurd c.mem_all hc, rfl, rfl⟩
  | _ =>
    cases he
    exact ⟨by simp +contextual [State.keepsCells, Claims.mayWrite], by simp, by simp⟩

/-! ### The transfer counter -/

theorem xfer_le_processDesc (s : State) (wr : Bool) (dptr : Word) (d : Desc) :
    (s.processDesc wr dptr d).xfer ≤ s.xfer := by
  rw [xfer_processDesc]
  exact satSub_le _ _

theorem xfer_le_walkLoop (s : State) (wr : Bool) (dptr : Word) (fuel : Nat) :
    (s.walkLoop wr dptr fuel).xfer ≤ s.xfer := by
  induction fuel generalizing s dptr with
  | zero => exact BitVec.le_refl _
  | succ fuel ih =>
    have hd : ((s.fetchDesc dptr).2.processDesc wr dptr (s.fetchDesc dptr).1).xfer ≤ s.xfer :=
      xfer_le_processDesc (s.fetchDesc dptr).2 wr dptr _
    unfold State.walkLoop
    dsimp only
    split
    · exact hd
    · exact BitVec.le_trans (ih _ _) hd

theorem xfer_le_dmaWalk (s : State) : s.dmaWalk.xfer ≤ s.xfer := by
  obtain ⟨_, h⟩ | ⟨_, _, h⟩ | ⟨_, _, _, h⟩ | ⟨_, _, _, h⟩ := dmaWalk_cases s <;> rw [h]
  · exact BitVec.le_refl _
  · rw [State.walk, xfer_walkComplete]
    exact xfer_le_walkLoop s _ _ _
  · rw [State.walk, xfer_walkComplete]
    exact xfer_le_walkLoop s.cardDataReady.2 _ _ _
  · exact BitVec.le_refl _

theorem xfer_le_afterDispatch (s : State) : s.afterDispatch.xfer ≤ s.xfer := by
  rw [State.afterDispatch, State.xfer_irqUpdate, xfer_autoStopCheck]
  exact xfer_le_dmaWalk s

/-- A dispatch leaves the counter alone, whatever the card answers. -/
theorem Settled.xfer (h : Settled s t) : t.xfer = s.xfer := by
  induction h with
  | settle s r => exact xfer_settle s r
  | issue id arg _ ih => exact ih

theorem xfer_le_exec_of_loadedWord {i : Instr} {w : Word} (hl : loadedWord s.cfg.pos i = some w)
    (he : exec i s = .next t) : t.xfer ≤ s.xfer := by
  obtain ⟨u, hu, hnext⟩ := exec_loadedWord_settled hl
  cases he.symm.trans hnext
  have hx : u.xfer = s.xfer := hu.xfer.trans (xfer_latch s w)
  exact hx ▸ xfer_le_afterDispatch u

/-- No operation but `WR BYCR` and `EV.RESTORE` raises the counter (10_state.md R54). -/
theorem xfer_le_exec {i : Instr} (he : exec i s = .next t) :
    t.xfer ≤ s.xfer ∨ (∃ v, i = .wrBycr v) ∨ ∃ snap, i = .evRestore snap := by
  cases i with
  | wrBycr v => exact .inr (.inl ⟨v, rfl⟩)
  | evRestore snap => exact .inr (.inr ⟨snap, rfl⟩)
  | wrCmdr w =>
    refine .inl ?_
    cases hl : loadBit s.cfg.pos w with
    | true => exact xfer_le_exec_of_loadedWord (loadedWord_wrCmdr hl) he
    | false =>
      cases he
      simp [hl]
  | cmdClkchg w | cmdNoresp w | cmdShort w | cmdLong w => exact .inl (xfer_le_exec_of_loadedWord rfl he)
  | descLast dptr d =>
    cases he
    refine .inl ?_
    split
    · simpa using xfer_le_processDesc s _ dptr d
    · exact BitVec.le_refl _
  | descLink dptr d =>
    cases he
    refine .inl ?_
    generalize cmdWrite s.cfg.pos (s.cell .cmdr) = wr
    split
    · rw [State.xfer_irqUpdate, xfer_autoStopCheck, xfer_walkComplete]
      split
      · exact xfer_le_processDesc s wr dptr d
      · exact BitVec.le_trans (xfer_le_walkLoop _ _ _ _) (xfer_le_processDesc s wr dptr d)
    · exact BitVec.le_refl _
  | wrFifo v =>
    cases he
    refine .inl ?_
    simpa using satSub_le _ _
  | rdFifo =>
    cases he
    refine .inl ?_
    split
    · simpa using satSub_le _ _
    · exact BitVec.le_refl _
  | evReset =>
    cases he
    exact .inl (by simp [BitVec.le_def])
  | evInsert | evRemove =>
    cases he
    exact .inl (BitVec.le_refl _)
  | _ =>
    cases he
    exact .inl (by simp)

end Sys2Proof.Machine
end

section
/-! SUPPORT. What a register write does with `UNIMP_SET`: it decides over the diagnostic alone (40_register_access.md R130,
60_exceptions.md R344). -/

namespace Sys2Proof.Machine

@[simp] theorem relabel_relabel (s : State) (l l' : List Diag) (u u' : List Reg) :
    (s.relabel l u).relabel l' u' = s.relabel l' u' := rfl

@[simp] theorem noteWrite_relabel (s : State) (l : List Diag) (u : List Reg) (r : Reg) (v : Word) :
    (s.relabel l u).noteWrite r v = s.relabel ((s.relabel l u).logAfterWrite r v) u := noteWrite_eq _ _ _

@[simp] theorem idstW1cMask_relabel (s : State) (l : List Diag) (u : List Reg) :
    (s.relabel l u).cfg.idstW1cMask = s.cfg.idstW1cMask := rfl

/-- A write's effect does not depend on the log or on `UNIMP_SET` but for the log it leaves. -/
theorem exec_wrInstr_relabel (r : Reg) (v : Word) (s : State) :
    ∃ q : State, ∀ l u,
      exec (wrInstr v r) (s.relabel l u) = .next (q.relabel ((s.relabel l u).logAfterWrite r v) u) := by
  obtain ⟨q, hq⟩ := exec_total (wrInstr v r) (s.relabel [] [])
  refine ⟨q, fun l u => ?_⟩
  cases r with
  | cmdr =>
    cases hq
    cases hl : loadBit s.cfg.pos v <;> exact congrArg Host.Outcome.next (by simp [hl])
  | _ =>
    cases hq
    exact congrArg Host.Outcome.next (by simp)

theorem logAfterWrite_of_mem {s : State} {r : Reg} (h : r ∈ s.cfg.unimpSet) (v : Word) :
    s.logAfterWrite r v = s.log ++ [.unimplemented r v] := if_pos (List.contains_iff_mem.2 h)

theorem logAfterWrite_of_not_mem {s : State} {r : Reg} (h : r ∉ s.cfg.unimpSet) (v : Word) :
    s.logAfterWrite r v = s.log := if_neg (mt List.contains_iff_mem.1 h)

end Sys2Proof.Machine
end

section
/-! SUPPORT. The obligations over all operations, of their frame and of `UNIMP_SET`. -/

namespace Sys2Proof.Claims

open Sys2Proof.Machine

/-- Settles O34, row by row. -/
theorem everyOperationWritesOnlyItsOwnCells : Obligations.EveryOperationWritesOnlyItsOwnCells := by
  intro i s t h
  obtain ⟨hcells, hcfg, hinbox⟩ := touches_exec h
  exact ⟨hcells, hcfg, hinbox⟩

/-- Settles O36: every other row leaves `XFER` alone, resets it or counts it down. -/
theorem onlyByteCountWriteAndRestoreRaiseTheCounter : Obligations.OnlyByteCountWriteAndRestoreRaiseTheCounter := by
  intro i s t h hlt
  obtain hle | hrow := xfer_le_exec h
  · exact absurd hlt (Nat.not_lt.2 (BitVec.le_def.1 hle))
  · exact hrow

/-- Settles O53: the two runs start from one state under another log and `UNIMP_SET`, and leave the same log. -/
theorem unimplementedIsLoggedAndTheWriteStillRuns : Obligations.UnimplementedIsLoggedAndTheWriteStillRuns := by
  intro r v s u u' hu hu'
  obtain ⟨q, hq⟩ := exec_wrInstr_relabel r v s
  have hwithout := hq (s.log ++ [.unimplemented r v]) u'
  have hwith := hq s.log u
  rw [logAfterWrite_of_not_mem hu'] at hwithout
  rw [logAfterWrite_of_mem hu] at hwith
  exact ⟨_, hwithout, hwith⟩

end Sys2Proof.Claims
end

section
/-! SUPPORT. The outcome table of a dispatch as equations, one for each row of 41_command_engine.md R228, and what a word
with one more bit set has. -/

namespace Sys2Proof

theorem setBit_setBit (v : Word) (n : Nat) : setBit (setBit v n) n = setBit v n := by
  simp only [setBit, BitVec.or_assoc, BitVec.or_self]

theorem getLsbD_setBit_self (v : Word) {n : Nat} (hn : n < 32) : (setBit v n).getLsbD n = true := by simp [hn]

theorem getLsbD_setBit_of_true {v : Word} {k : Nat} (h : v.getLsbD k = true) (n : Nat) :
    (setBit v n).getLsbD k = true := by
  simp only [setBit, BitVec.getLsbD_or, h, Bool.true_or]

/-- `be32` of four bytes of a response, as the statements write it (00_scope.md R11). -/
theorem toNat_be32At (r : List Byte) (i : Nat) : (be32At r i).toNat = Claims.be32Nat r i := toNat_be32 _ _ _ _

section
variable {p : Positions} {w : Word} {a : Option (List Byte)} {r : List Byte}

theorem cmdResult_unexpected (he : respExp p w = false) (r : List Byte) : cmdResult p w (some r) = .done := by
  simp [cmdResult, he]

theorem cmdResult_short (he : respExp p w = true) (hl : respLong p w = false) (hr : r.length = 4) :
    cmdResult p w (some r) = .captured (be32At r 0) 0 0 0 := by
  simp [cmdResult, he, hl, hr]

theorem cmdResult_long (he : respExp p w = true) (hl : respLong p w = true) (hr : r.length = 16) :
    cmdResult p w (some r) = .captured (be32At r 12) (be32At r 8) (be32At r 4) (be32At r 0) := by
  simp [cmdResult, he, hl, hr]

theorem cmdResult_short_misfit (he : respExp p w = true) (hl : respLong p w = false)
    (ha : ∀ r, a = some r → r.length ≠ 4) : cmdResult p w a = .failed := by
  cases a with
  | none => rfl
  | some r => simp [cmdResult, he, hl, ha r rfl]

theorem cmdResult_long_misfit (he : respExp p w = true) (hl : respLong p w = true)
    (ha : ∀ r, a = some r → r.length ≠ 16) : cmdResult p w a = .failed := by
  cases a with
  | none => rfl
  | some r => simp [cmdResult, he, hl, ha r rfl]

end

end Sys2Proof
end

section
/-! SUPPORT. The state a loaded word leaves before the walk (41_command_engine.md R222 to R228), and what the auto-stop check
then does (R230 to R234): the equation of each of its cases, the raw status bits, the commands on the card. -/

namespace Sys2Proof.Machine

variable {s t u : State} {w : Word}

/-! ### The post-dispatch state -/

/-- What a loaded word that is no clock change leaves before the walk: latched, issued, settled by the outcome table
(41_command_engine.md R222, R228); `State.issueAndSettle s w` is by definition `(s.postDispatch w).afterDispatch`. -/
def State.postDispatch (s : State) (w : Word) : State :=
  ((s.latch w).cardIssue (cmdIdx s.cfg.pos w) (s.cell .cagr)).2.settle (cmdResult s.cfg.pos w (Claims.answer s w))

theorem issued_postDispatch (s : State) (w : Word) : Claims.issued s w (s.postDispatch w) := by
  have hf : Frame (s.latch w) (s.postDispatch w) dispatchCells :=
    ((frame_cardIssue _ _ _).mono (List.nil_subset _)).trans (frame_settle _ _)
  have hcells (c : Cell) (hc : c ∉ Cell.cmdr :: dispatchCells) : (s.postDispatch w).cell c = s.cell c := by
    obtain ⟨hne, hd⟩ := List.ne_and_not_mem_of_not_mem_cons hc
    rw [hf.cells c hd, cell_latch, if_neg hne]
  have hcmdr : (s.postDispatch w).cell .cmdr = clearBit w s.cfg.pos.load := by
    rw [hf.cells .cmdr (by decide), cell_latch, if_pos rfl]
  refine ⟨hcmdr, hcells, ?_, ?_, ?_, ?_, ?_, ?_, ?_⟩
  · simp [State.postDispatch]
  · simp [State.postDispatch]
  · simpa using hf.cfg
  · simpa using hf.inbox
  · simpa using hf.log
  · simp [State.postDispatch]
  · simp [State.postDispatch]

/-- A latched word and one flag: no cell but `CMDR` and `RISR` is written, whatever calls of the card come between. -/
theorem latch_setRisr_cells (hf : Frame (s.latch w) t []) (n : Nat) :
    (t.setRisr n).cell .risr = setBit (s.cell .risr) n ∧ s.keepsCells (t.setRisr n) [.cmdr, .risr] := by
  have hcells (c : Cell) : t.cell c = (s.latch w).cell c := hf.cells c (by simp)
  refine ⟨by simp [hcells, cell_latch], fun c hc => ?_⟩
  obtain ⟨hcmdr, hrisr⟩ : c ≠ .cmdr ∧ c ≠ .risr := by simpa using hc
  simp [hcells, cell_latch, hcmdr, hrisr]

theorem dispatchFailed_postDispatch (h : cmdResult s.cfg.pos w (Claims.answer s w) = .failed) :
    Claims.dispatchFailed s (s.postDispatch w) := by
  simp only [State.postDispatch, h, State.settle, State.cfg_cardIssue, cfg_latch]
  exact latch_setRisr_cells (frame_cardIssue _ _ _) _

theorem dispatchDone_postDispatch (h : cmdResult s.cfg.pos w (Claims.answer s w) = .done) :
    Claims.dispatchDone s (s.postDispatch w) := by
  simp only [State.postDispatch, h, State.settle, State.cfg_cardIssue, cfg_latch]
  exact latch_setRisr_cells (frame_cardIssue _ _ _) _

theorem dispatchCaptured_postDispatch {w0 w1 w2 w3 : Word}
    (h : cmdResult s.cfg.pos w (Claims.answer s w) = .captured w0 w1 w2 w3) :
    Claims.dispatchCaptured s (s.postDispatch w) w0.toNat w1.toNat w2.toNat w3.toNat := by
  simp [Claims.dispatchCaptured, State.postDispatch, h, State.settle, cell_latch]

/-- Whether a walk is enabled does not depend on what a dispatch writes (42_dma_engine.md R250). -/
theorem Touches.walkEnabled (h : Touches s t (.cmdr :: dispatchCells)) : t.walkEnabled = s.walkEnabled := by
  simp only [State.walkEnabled, h.cfg, h.cells .gctl (by decide), h.cells .bycr (by decide), h.cells .bksr (by decide)]

theorem touches_postDispatch (s : State) (w : Word) : Touches s (s.postDispatch w) (.cmdr :: dispatchCells) := by
  obtain ⟨-, hcells, -, -, hcfg, hinbox, -⟩ := issued_postDispatch s w
  exact ⟨hcells, hcfg, hinbox⟩

/-! ### The auto-stop check, case by case -/

theorem afterDispatch_of_not_walkEnabled (h : s.walkEnabled = false) : s.afterDispatch = s.autoStopCheck.irqUpdate := by
  simp [State.afterDispatch, State.dmaWalk, h]

/-- After a clock-change word the synthetic stop command is a clock change too and reaches no card (R223, R231). -/
theorem autoStopCheck_clkChange (hp : s.cfg.pos.wf = true) (ha : autostop s.cfg.pos (s.cell .cmdr) = true)
    (hx : s.xfer = 0) (hc : clkChange s.cfg.pos (s.cell .cmdr) = true) :
    s.autoStopCheck = (s.setRisr s.cfg.pos.cmdComplete).setRisr s.cfg.pos.autocmdDone := by
  rw [State.autoStopCheck, if_pos ⟨ha, hx⟩, State.dispatch, clkChange_stopWord hp, if_pos hc]

/-- Any other stop command is issued as `(STOP_CMD_ID, 0)` and settled by the flags of the word in `CMDR` (R231, R233). -/
theorem autoStopCheck_issue (hp : s.cfg.pos.wf = true) (ha : autostop s.cfg.pos (s.cell .cmdr) = true)
    (hx : s.xfer = 0) (hc : clkChange s.cfg.pos (s.cell .cmdr) = false) :
    s.autoStopCheck = ((s.cardIssue s.cfg.stopCmdId 0).2.settle (cmdResult s.cfg.pos (s.cell .cmdr)
      (s.card.issue s.cfg.stopCmdId 0).1)).setRisr s.cfg.pos.autocmdDone := by
  rw [State.autoStopCheck, if_pos ⟨ha, hx⟩, State.dispatch, clkChange_stopWord hp, hc, cmdIdx_stopWord hp]
  simp [cmdResult_stopWord hp]

theorem autocmdDone_autoStopCheck (hp : s.cfg.pos.wf = true) (ha : autostop s.cfg.pos (s.cell .cmdr) = true)
    (hx : s.xfer = 0) : (s.autoStopCheck.cell .risr).getLsbD s.cfg.pos.autocmdDone = true := by
  rw [State.autoStopCheck, if_pos ⟨ha, hx⟩, State.cell_setRisr, if_pos rfl]
  exact getLsbD_setBit_self _ ((Positions.wf_risr hp).2 _ (by simp))

/-- The auto-stop check clears no raw status bit (41_command_engine.md R229). -/
theorem getLsbD_autoStopCheck_of_true {k : Nat} (h : (s.cell .risr).getLsbD k = true) :
    (s.autoStopCheck.cell .risr).getLsbD k = true := by
  obtain ⟨_, e⟩ | ⟨_, _, e⟩ := autoStopCheck_cases s <;> rw [e]
  · exact h
  · rw [State.cell_setRisr, if_pos rfl]
    obtain hr | hr := risr_dispatch s (stopWord s.cfg (s.cell .cmdr)) 0 <;> rw [hr] <;>
      exact getLsbD_setBit_of_true (getLsbD_setBit_of_true h _) _

/-- The answer to the stop command counts as any other (41_command_engine.md R233): a failure is `NO_RESPONSE`. -/
theorem noResponse_autoStopCheck (hp : s.cfg.pos.wf = true) (ha : autostop s.cfg.pos (s.cell .cmdr) = true)
    (hx : s.xfer = 0) (hc : clkChange s.cfg.pos (s.cell .cmdr) = false)
    (hn : (s.card.issue s.cfg.stopCmdId 0).1 = none) :
    (s.autoStopCheck.cell .risr).getLsbD s.cfg.pos.noResponse = true := by
  have hlt : s.cfg.pos.noResponse < 32 := (Positions.wf_risr hp).2 _ (by simp)
  rw [autoStopCheck_issue hp ha hx hc, hn, State.cell_setRisr, if_pos rfl]
  refine getLsbD_setBit_of_true ?_ _
  simp [cmdResult, State.settle, hlt]

/-- A short response to the stop command is captured (41_command_engine.md R226, R233). -/
theorem captured_autoStopCheck (hp : s.cfg.pos.wf = true) (ha : autostop s.cfg.pos (s.cell .cmdr) = true)
    (hx : s.xfer = 0) (hc : clkChange s.cfg.pos (s.cell .cmdr) = false) (he : respExp s.cfg.pos (s.cell .cmdr) = true)
    (hl : respLong s.cfg.pos (s.cell .cmdr) = false) {r : List Byte} (hr : (s.card.issue s.cfg.stopCmdId 0).1 = some r)
    (hlen : r.length = 4) :
    (s.autoStopCheck.cell .risr).getLsbD s.cfg.pos.cmdComplete = true ∧
    s.autoStopCheck.cell .resp0 = be32At r 0 := by
  have hlt : s.cfg.pos.cmdComplete < 32 := (Positions.wf_risr hp).2 _ (by simp)
  rw [autoStopCheck_issue hp ha hx hc, hr, cmdResult_short he hl hlen, State.cell_setRisr, if_pos rfl]
  refine ⟨getLsbD_setBit_of_true ?_ _, ?_⟩ <;> simp [State.settle, hlt]

/-! ### Raw status bits that stay -/

theorem keepsRawBits_of_eq (h : t.cell .risr = s.cell .risr) (but : List Nat) : Claims.keepsRawBits s t but :=
  fun _ _ _ => by rw [h]

theorem keepsRawBits_of_setBit {n : Nat} {but : List Nat} (h : t.cell .risr = setBit (s.cell .risr) n) (hn : n ∈ but) :
    Claims.keepsRawBits s t but := by
  intro k hk hbut
  have hne : n ≠ k := fun e => hbut (e ▸ hn)
  simp [h, hk, hne]

theorem keepsRawBits_trans {but : List Nat} (h : Claims.keepsRawBits s t but) (h' : Claims.keepsRawBits t u but) :
    Claims.keepsRawBits s u but :=
  fun k hk hbut => (h' k hk hbut).trans (h k hk hbut)

theorem keepsRawBits_mono {but but' : List Nat} (h : Claims.keepsRawBits s t but) (hs : but ⊆ but') :
    Claims.keepsRawBits s t but' :=
  fun k hk hbut => h k hk (fun hb => hbut (hs hb))

theorem keepsRawBits_settle (s : State) (r : CmdResult) :
    Claims.keepsRawBits s (s.settle r) [s.cfg.pos.noResponse, s.cfg.pos.cmdComplete] := by
  cases r with
  | failed => exact keepsRawBits_of_setBit (n := s.cfg.pos.noResponse) (by simp [State.settle]) (by simp)
  | done | captured => exact keepsRawBits_of_setBit (n := s.cfg.pos.cmdComplete) (by simp [State.settle]) (by simp)

theorem keepsRawBits_postDispatch (s : State) (w : Word) :
    Claims.keepsRawBits s (s.postDispatch w) [s.cfg.pos.noResponse, s.cfg.pos.cmdComplete] := by
  have h := keepsRawBits_settle ((s.latch w).cardIssue (cmdIdx s.cfg.pos w) (s.cell .cagr)).2
    (cmdResult s.cfg.pos w (Claims.answer s w))
  simp only [State.cfg_cardIssue, cfg_latch] at h
  exact keepsRawBits_trans (keepsRawBits_of_eq (by simp [cell_latch]) _) h

theorem keepsRawBits_dmaWalk (s : State) :
    Claims.keepsRawBits s s.dmaWalk [s.cfg.pos.dataComplete, s.cfg.pos.autocmdDone] := by
  have hwalk (v : State) (wr : Bool) :
      Claims.keepsRawBits v (v.walk wr) [v.cfg.pos.dataComplete, v.cfg.pos.autocmdDone] := by
    have hloop := frame_walkLoop v wr (v.cell .dlba) (v.cell .bycr).toNat
    have hr : (v.walk wr).cell .risr =
        setBit (setBit (v.cell .risr) v.cfg.pos.dataComplete) v.cfg.pos.autocmdDone := by
      rw [State.walk, risr_walkComplete, hloop.cells .risr (by decide), hloop.cfg]
    exact keepsRawBits_trans (t := v.setRisr v.cfg.pos.dataComplete)
      (keepsRawBits_of_setBit (n := v.cfg.pos.dataComplete) (by simp) (by simp))
      (keepsRawBits_of_setBit (n := v.cfg.pos.autocmdDone) (by simpa using hr) (by simp))
  obtain ⟨_, e⟩ | ⟨_, _, e⟩ | ⟨_, _, _, e⟩ | ⟨_, _, _, e⟩ := dmaWalk_cases s <;> rw [e]
  · exact keepsRawBits_of_eq rfl _
  · exact hwalk s true
  · exact hwalk s.cardDataReady.2 false
  · exact keepsRawBits_of_eq rfl _

theorem keepsRawBits_autoStopCheck (s : State) : Claims.keepsRawBits s s.autoStopCheck
    [s.cfg.pos.noResponse, s.cfg.pos.cmdComplete, s.cfg.pos.autocmdDone] := by
  obtain ⟨_, e⟩ | ⟨_, _, e⟩ := autoStopCheck_cases s <;> rw [e]
  · exact keepsRawBits_of_eq rfl _
  · refine keepsRawBits_trans (t := s.dispatch (stopWord s.cfg (s.cell .cmdr)) 0) ?_
      (keepsRawBits_of_setBit (n := s.cfg.pos.autocmdDone) (by simp) (by simp))
    obtain hr | hr := risr_dispatch s (stopWord s.cfg (s.cell .cmdr)) 0 <;>
      exact keepsRawBits_of_setBit hr (by simp)

/-! ### Commands on the card -/

theorem cardCommands_walkLoop (s : State) (wr : Bool) (dptr : Word) (fuel : Nat) :
    cardCommands (s.walkLoop wr dptr fuel).trace = cardCommands s.trace := by
  induction fuel generalizing s dptr with
  | zero => rfl
  | succ fuel ih =>
    have hd : cardCommands ((s.fetchDesc dptr).2.processDesc wr dptr (s.fetchDesc dptr).1).trace = cardCommands s.trace :=
      cardCommands_processDesc (s.fetchDesc dptr).2 wr dptr _
    unfold State.walkLoop
    dsimp only
    split
    · exact hd
    · exact (ih _ _).trans hd

/-- A walk sends no command (42_dma_engine.md R254). -/
theorem cardCommands_dmaWalk (s : State) : cardCommands s.dmaWalk.trace = cardCommands s.trace := by
  obtain ⟨_, e⟩ | ⟨_, _, e⟩ | ⟨_, _, _, e⟩ | ⟨_, _, _, e⟩ := dmaWalk_cases s <;> rw [e]
  · rw [State.walk, trace_walkComplete, cardCommands_walkLoop]
  · rw [State.walk, trace_walkComplete, cardCommands_walkLoop]
    rfl
  · rfl

/-- The one command an auto-stop sends, with nothing sent where none is due (41_command_engine.md R230, R231). -/
theorem cardCommands_autoStopCheck (hp : s.cfg.pos.wf = true) (hc : clkChange s.cfg.pos (s.cell .cmdr) = false) :
    cardCommands s.autoStopCheck.trace =
      (if autostop s.cfg.pos (s.cell .cmdr) = true ∧ s.xfer = 0 then [(s.cfg.stopCmdId, 0)] else []) ++
        cardCommands s.trace := by
  by_cases h : autostop s.cfg.pos (s.cell .cmdr) = true ∧ s.xfer = 0
  · rw [autoStopCheck_issue hp h.1 h.2 hc, if_pos h]
    simp [cardCommands]
  · rw [State.autoStopCheck, if_neg h, if_neg h, List.nil_append]

/-! ### Walk, auto-stop check and line together -/

theorem cardCommands_afterDispatch (hp : s.cfg.pos.wf = true) (hc : clkChange s.cfg.pos (s.cell .cmdr) = false) :
    cardCommands s.afterDispatch.trace =
      (if autostop s.cfg.pos (s.cell .cmdr) = true ∧ s.afterDispatch.xfer = 0 then [(s.cfg.stopCmdId, 0)] else []) ++
        cardCommands s.trace := by
  have hwalk := frame_dmaWalk s
  have h := cardCommands_autoStopCheck (s := s.dmaWalk)
  rw [hwalk.cfg, hwalk.cells .cmdr (by decide), cardCommands_dmaWalk] at h
  simpa [State.afterDispatch, cardCommands] using h hp hc

theorem autocmdDone_afterDispatch (hp : s.cfg.pos.wf = true) (ha : autostop s.cfg.pos (s.cell .cmdr) = true)
    (hx : s.afterDispatch.xfer = 0) : (s.afterDispatch.cell .risr).getLsbD s.cfg.pos.autocmdDone = true := by
  have hwalk := frame_dmaWalk s
  have h := autocmdDone_autoStopCheck (s := s.dmaWalk)
  rw [hwalk.cfg, hwalk.cells .cmdr (by decide)] at h
  exact h hp ha (by simpa [State.afterDispatch] using hx)

theorem keepsRawBits_afterDispatch (s : State) : Claims.keepsRawBits s s.afterDispatch
    [s.cfg.pos.noResponse, s.cfg.pos.cmdComplete, s.cfg.pos.dataComplete, s.cfg.pos.autocmdDone] := by
  have hstop := keepsRawBits_autoStopCheck s.dmaWalk
  rw [(frame_dmaWalk s).cfg] at hstop
  exact keepsRawBits_trans (keepsRawBits_mono (keepsRawBits_dmaWalk s) (by simp)) (keepsRawBits_mono hstop (by simp))

/-- The stop command right after the dispatch of `w` finds the card as `w` left it, and `w`'s flags in `CMDR`
(41_command_engine.md R231, R233). -/
theorem stopAnswer_autoStopCheck (hp : s.cfg.pos.wf = true) (hu : Claims.issued s w u)
    (hc : clkChange s.cfg.pos w = false) (ha : autostop s.cfg.pos w = true) (hx : u.xfer = 0) :
    (Claims.stopAnswer s w = none → (u.autoStopCheck.cell .risr).getLsbD s.cfg.pos.noResponse = true) ∧
    ∀ r, Claims.stopAnswer s w = some r → respExp s.cfg.pos w = true → respLong s.cfg.pos w = false → r.length = 4 →
      (u.autoStopCheck.cell .risr).getLsbD s.cfg.pos.cmdComplete = true ∧
      (u.autoStopCheck.cell .resp0).toNat = Claims.be32Nat r 0 := by
  obtain ⟨hcmdr, -, -, -, hcfg, -, -, hcard, -⟩ := hu
  have hfail := noResponse_autoStopCheck (s := u)
  have hshort := captured_autoStopCheck (s := u)
  rw [hcmdr, hcfg, hcard, autostop_latched hp, clkChange_latched hp] at hfail hshort
  rw [respExp_latched hp, respLong_latched hp] at hshort
  refine ⟨hfail hp ha hx hc, fun r hr he hl hlen => ?_⟩
  obtain ⟨hdone, hresp⟩ := hshort hp ha hx hc he hl hr hlen
  exact ⟨hdone, by rw [hresp, toNat_be32At]⟩

end Sys2Proof.Machine
end

section
/-! SUPPORT. A FIFO access that moves bytes (45_fifo_port.md R311 to R313), up to its auto-stop check. -/

namespace Sys2Proof.Machine

variable {s t u : State}

/-- From `s` to `t` bytes passed and events were recorded: no cell, no counter, no command on the card. -/
structure BytesOnly (s t : State) : Prop where
  touches : Touches s t []
  xfer : t.xfer = s.xfer
  commands : cardCommands t.trace = cardCommands s.trace

theorem BytesOnly.cell (h : BytesOnly s t) (c : Cell) : t.cell c = s.cell c := h.touches.cells c (by simp)

theorem BytesOnly.trans (h : BytesOnly s t) (h' : BytesOnly t u) : BytesOnly s u :=
  ⟨h.touches.trans h'.touches, h'.xfer.trans h.xfer, h'.commands.trans h.commands⟩

theorem bytesOnly_noteWrite (s : State) (r : Reg) (v : Word) : BytesOnly s (s.noteWrite r v) :=
  ⟨touches_noteWrite s r v [], by simp, by simp⟩

theorem bytesOnly_sendBytes (s : State) (b : List Byte) : BytesOnly s (s.sendBytes b) :=
  ⟨(frame_sendBytes s b).touches (by simp), by simp, cardCommands_sendBytes s b⟩

theorem bytesOnly_takeBytes (s : State) (n : Nat) : BytesOnly s (s.takeBytes n).2 :=
  ⟨(frame_takeBytes s n).touches (by simp), by simp, cardCommands_takeBytes s n⟩

theorem bytesOnly_cardDataReady (s : State) : BytesOnly s s.cardDataReady.2 :=
  ⟨(frame_emit s _).touches (by simp), rfl, rfl⟩

theorem bytesOnly_irqUpdate (s : State) : BytesOnly s s.irqUpdate :=
  ⟨(frame_irqUpdate s).touches (by simp), rfl, rfl⟩

theorem bytesOnly_busReturn (s : State) (n : Nat) (v : Word) : BytesOnly s (s.busReturn n v) :=
  ⟨(frame_emit s _).touches (by simp), rfl, rfl⟩

theorem bytesOnly_afterFifo {n : Nat} (h : s.cfg.fifoBytes = n) :
    BytesOnly (s.xferUpdate n).autoStopCheck s.afterFifo :=
  h ▸ bytesOnly_irqUpdate _

/-- `WR FIFO`, and `RD FIFO` when the card has data ready, move bytes, count them and make the auto-stop check. -/
theorem exec_fifo {i : Instr} {v : Word} (hi : i = .wrFifo v ∨ (i = .rdFifo ∧ s.card.dataReady = true)) :
    ∃ q t, exec i s = .next t ∧ BytesOnly s q ∧ BytesOnly (q.xferUpdate s.cfg.fifoBytes).autoStopCheck t := by
  obtain rfl | ⟨rfl, hready⟩ := hi
  · have hq : BytesOnly s ((s.noteWrite .fifo v).sendBytes (streamBytes s.cfg.fifoBytes v)) :=
      (bytesOnly_noteWrite s .fifo v).trans (bytesOnly_sendBytes _ _)
    exact ⟨_, _, rfl, hq, bytesOnly_afterFifo (congrArg Cfg.fifoBytes hq.touches.cfg)⟩
  · have hq : BytesOnly s (s.cardDataReady.2.takeBytes s.cfg.fifoBytes).2 :=
      (bytesOnly_cardDataReady s).trans (bytesOnly_takeBytes _ _)
    exact ⟨_, _, congrArg Host.Outcome.next (if_pos hready), hq,
      (bytesOnly_afterFifo (congrArg Cfg.fifoBytes hq.touches.cfg)).trans (bytesOnly_busReturn _ _ _)⟩

/-- What the counting of the transfer's last bytes leaves for the auto-stop check (45_fifo_port.md R313). -/
structure TransferEnded (s q : State) : Prop where
  touches : Touches s q [.risr]
  risr : q.cell .risr = setBit (s.cell .risr) s.cfg.pos.dataComplete
  xfer : q.xfer = 0
  commands : cardCommands q.trace = cardCommands s.trace

theorem BytesOnly.transferEnded (h : BytesOnly s t) (hx : s.xfer.toNat ≤ s.cfg.fifoBytes) :
    TransferEnded s (t.xferUpdate s.cfg.fifoBytes) := by
  have hzero : satSub t.xfer s.cfg.fifoBytes = 0 := by
    apply BitVec.eq_of_toNat_eq
    rw [toNat_satSub, h.xfer]
    exact Nat.sub_eq_zero_of_le hx
  exact {
    touches := (h.touches.mono (List.nil_subset _)).trans ((frame_xferUpdate t _).touches (List.Subset.refl _))
    risr := by rw [risr_xferUpdate, if_pos hzero, h.cell, h.touches.cfg]
    xfer := by rw [xfer_xferUpdate, hzero]
    commands := by rw [trace_xferUpdate, h.commands] }

/-- With a clock-change word in `CMDR` the auto-stop at the transfer's end sets two flags and nothing else (R223, R231). -/
theorem TransferEnded.autoStopCheck_clkChange {q : State} (h : TransferEnded s q) (hp : s.cfg.pos.wf = true)
    (ha : autostop s.cfg.pos (s.cell .cmdr) = true) (hc : clkChange s.cfg.pos (s.cell .cmdr) = true) :
    q.autoStopCheck.cell .risr = setBit (setBit (setBit (s.cell .risr) s.cfg.pos.dataComplete) s.cfg.pos.cmdComplete)
      s.cfg.pos.autocmdDone ∧
    s.keepsCells q.autoStopCheck [.risr] ∧ cardCommands q.autoStopCheck.trace = cardCommands s.trace := by
  have hstop := Machine.autoStopCheck_clkChange (s := q)
  rw [h.touches.cfg, h.touches.cells .cmdr (by decide)] at hstop
  rw [hstop hp ha h.xfer hc]
  refine ⟨by simp [h.risr], fun c hcell => ?_, h.commands⟩
  have hne : c ≠ .risr := by simpa using hcell
  simp [hne, h.touches.cells c hcell]

end Sys2Proof.Machine
end

section
/-! SUPPORT. The obligations of 41_command_engine.md that are settled here. -/

namespace Sys2Proof.Claims

open Sys2Proof.Machine

/-- Settles O28: the row's own state before the walk; an auto-stop there is a clock change too, and its `CMD_COMPLETE` is set
already. -/
theorem clockChangeCompletesWithoutTheCard : Obligations.ClockChangeCompletesWithoutTheCard := by
  intro s w hwf hload hclk
  have hp := Cfg.wf_pos hwf
  let u := (s.latch w).setRisr s.cfg.pos.cmdComplete
  obtain ⟨hrisr, hcells⟩ := latch_setRisr_cells (Frame.refl (s.latch w) []) s.cfg.pos.cmdComplete
  have hcmdr : u.cell .cmdr = clearBit w s.cfg.pos.load := by simp [u, cell_latch]
  have hcfg : u.cfg = s.cfg := cfg_latch s w
  have htouch : Touches s u [.cmdr, .risr] := ⟨hcells, hcfg, inbox_latch s w⟩
  refine ⟨u, rfl, hcmdr, hrisr, hcells, xfer_latch s w, ⟨hcfg, card_latch s w, mem_latch s w, inbox_latch s w⟩,
    trace_latch s w, log_latch s w, afterDispatch_idle u, fun hwalk hauto hxfer => ?_⟩
  have hstop : u.autoStopCheck = (u.setRisr s.cfg.pos.cmdComplete).setRisr s.cfg.pos.autocmdDone := by
    have h := autoStopCheck_clkChange (s := u)
    rw [hcmdr, hcfg, autostop_latched hp, clkChange_latched hp] at h
    exact h hp hauto ((xfer_latch s w).trans hxfer) hclk
  have hwalku : u.walkEnabled = false := (htouch.mono (by decide)).walkEnabled.trans hwalk
  rw [afterDispatch_of_not_walkEnabled hwalku, hstop]
  simp [u, cell_latch, setBit_setBit]

/-- Settles O29: with no response expected the outcome table knows a failure and a success without a response. -/
theorem commandWithoutResponseDiscardsTheAnswer : Obligations.CommandWithoutResponseDiscardsTheAnswer := by
  intro s w _ _ _ he
  refine ⟨s.postDispatch w, execCmdNoresp_eq he, issued_postDispatch s w, afterDispatch_idle _, fun ha => ?_,
    fun r ha => ?_⟩
  · exact dispatchFailed_postDispatch (by rw [ha]; rfl)
  · exact dispatchDone_postDispatch (by rw [ha, cmdResult_unexpected he])

/-- Settles O30, by the rows of the outcome table for a short response. -/
theorem shortResponseIsCapturedMostSignificantFirst : Obligations.ShortResponseIsCapturedMostSignificantFirst := by
  intro s w _ _ _ he hl
  refine ⟨s.postDispatch w, execCmdShort_eq he hl, issued_postDispatch s w, afterDispatch_idle _, fun r ha hlen => ?_,
    fun hne => dispatchFailed_postDispatch (cmdResult_short_misfit he hl hne)⟩
  rw [← toNat_be32At]
  exact dispatchCaptured_postDispatch (by rw [ha, cmdResult_short he hl hlen])

/-- Settles O31, by the rows of the outcome table for a long response. -/
theorem longResponseIsStoredWordReversed : Obligations.LongResponseIsStoredWordReversed := by
  intro s w _ _ _ he hl
  refine ⟨s.postDispatch w, execCmdLong_eq he hl, issued_postDispatch s w, afterDispatch_idle _, fun r ha hlen => ?_,
    fun hne => dispatchFailed_postDispatch (cmdResult_long_misfit he hl hne)⟩
  simp only [← toNat_be32At]
  exact dispatchCaptured_postDispatch (by rw [ha, cmdResult_long he hl hlen])

/-- Settles O32, row by row of the outcome table. -/
theorem dispatchFollowsTheOutcomeTable : Obligations.DispatchFollowsTheOutcomeTable := by
  intro s w hwf hload hclk
  refine ⟨s.postDispatch w, execWrCmdr_issue (Cfg.wf_pos hwf) hload hclk, issued_postDispatch s w, fun ha => ?_,
    fun r ha _ => ⟨fun he => ?_, fun he hl hlen => ?_, fun he hl hlen => ?_, fun he hl hlen => ?_, fun he hl hlen => ?_⟩⟩
  · exact dispatchFailed_postDispatch (by rw [ha]; rfl)
  · exact dispatchDone_postDispatch (by rw [ha, cmdResult_unexpected he])
  · rw [← toNat_be32At]
    exact dispatchCaptured_postDispatch (by rw [ha, cmdResult_short he hl hlen])
  · exact dispatchFailed_postDispatch (cmdResult_short_misfit he hl (by simpa [ha] using hlen))
  · simp only [← toNat_be32At]
    exact dispatchCaptured_postDispatch (by rw [ha, cmdResult_long he hl hlen])
  · exact dispatchFailed_postDispatch (cmdResult_long_misfit he hl (by simpa [ha] using hlen))

/-- Settles O33: what follows the dispatch finds the guest's word in `CMDR` and sends one stop command or none; with no walk the
check runs on the post-dispatch state. -/
theorem autoStopSendsTheStopCommandUnseen : Obligations.AutoStopSendsTheStopCommandUnseen := by
  intro s w hwf hload hclk
  have hp := Cfg.wf_pos hwf
  have hexec : exec (.wrCmdr w) s = .next (s.postDispatch w).afterDispatch := execWrCmdr_issue hp hload hclk
  have hissued := issued_postDispatch s w
  have hbits := keepsRawBits_postDispatch s w
  have htouch := touches_postDispatch s w
  generalize s.postDispatch w = u at *
  have ⟨hcmdr, _, hxfer, hmem, hcfg, _, _, _, htrace⟩ := hissued
  have hcells := (touches_exec hexec).cells
  have hsent := cardCommands_afterDispatch (s := u)
  have hdone := autocmdDone_afterDispatch (s := u)
  have hafter := keepsRawBits_afterDispatch u
  have hstop := keepsRawBits_autoStopCheck u
  rw [hcmdr, hcfg, autostop_latched hp, clkChange_latched hp, htrace] at hsent
  rw [hcmdr, hcfg, autostop_latched hp] at hdone
  rw [hcfg] at hafter hstop
  refine ⟨_, hexec, hsent hp hclk, hdone hp, ?_, hcells .cagr (by simp [mayWrite]), hcells, ?_, fun ha hoff hx => ?_⟩
  · rw [(frame_afterDispatch u).cells .cmdr (by decide), hcmdr]
  · exact keepsRawBits_trans (keepsRawBits_mono hbits (by simp)) hafter
  · have hxu : u.xfer = 0 := hxfer.trans hx
    obtain ⟨hfail, hshort⟩ := stopAnswer_autoStopCheck hp hissued hclk ha hxu
    rw [afterDispatch_of_not_walkEnabled (htouch.walkEnabled.trans hoff)]
    refine ⟨by simpa using hxu, by simpa using hmem, ?_, ?_, hfail, hshort⟩
    · exact (htouch.trans ((frame_autoStopCheck u).touches (by decide))).cells
    · exact keepsRawBits_trans (keepsRawBits_mono hbits (by simp)) hstop

/-- Settles O52: the last bytes end the transfer, and the auto-stop check that follows finds the guest's word in `CMDR`. -/
theorem fifoAccessThatEndsTheTransferAutoStops : Obligations.FifoAccessThatEndsTheTransferAutoStops := by
  intro s v hwf hle ha i hi
  have hp := Cfg.wf_pos hwf
  obtain ⟨hnodup, hlt⟩ := Positions.wf_risr hp
  obtain ⟨moved, t, hexec, hmoved, ht⟩ := exec_fifo hi
  have hend := hmoved.transferEnded hle
  generalize moved.xferUpdate s.cfg.fifoBytes = q at *
  have hcfg := hend.touches.cfg
  have hcmdr : q.cell .cmdr = s.cell .cmdr := hend.touches.cells .cmdr (by decide)
  have hframe := frame_autoStopCheck q
  have hbits := keepsRawBits_autoStopCheck q
  have hdone := autocmdDone_autoStopCheck (s := q)
  have hsent := cardCommands_autoStopCheck (s := q)
  rw [hcfg] at hbits
  rw [hcmdr, hcfg] at hdone hsent
  refine ⟨t, hexec, by rw [ht.xfer, xfer_autoStopCheck, hend.xfer], ?_, ?_, ?_, ?_, ?_, fun hc => ?_, fun hc => ?_⟩
  · rw [ht.cell]
    refine getLsbD_autoStopCheck_of_true ?_
    rw [hend.risr]
    exact getLsbD_setBit_self _ (hlt _ (by simp))
  · rw [ht.cell]
    exact hdone hp ha hend.xfer
  · exact keepsRawBits_trans (keepsRawBits_of_setBit hend.risr (by simp))
      (keepsRawBits_trans (keepsRawBits_mono hbits (by simp)) (keepsRawBits_of_eq (ht.cell .risr) _))
  · rw [ht.cell, hframe.cells .cmdr (by decide), hcmdr]
  · rw [ht.cell, hframe.cells .cagr (by decide), hend.touches.cells .cagr (by decide)]
  · rw [ht.commands, hsent hp hc, if_pos ⟨ha, hend.xfer⟩, hend.commands]
    rfl
  · obtain ⟨hrisr, hcells, hcommands⟩ := hend.autoStopCheck_clkChange hp ha hc
    refine ⟨ht.commands.trans hcommands, ?_, ?_, fun c hcell => (ht.cell c).trans (hcells c hcell)⟩
    · rw [ht.cell, hrisr]
      exact getLsbD_setBit_of_true (getLsbD_setBit_self _ (hlt _ (by simp))) _
    · simp only [List.nodup_cons, List.mem_cons, not_or] at hnodup
      obtain ⟨⟨hcc, hdc, had, -⟩, -⟩ := hnodup
      rw [ht.cell, hrisr]
      simp [hlt s.cfg.pos.noResponse (by simp), Ne.symm hcc, Ne.symm hdc, Ne.symm had]

end Sys2Proof.Claims
end

section
/-! SUPPORT. What the operations around a walk do with the bytes of the card, and what the end of a walk leaves:
completion status, auto-stop check, line (42_dma_engine.md R263, 41_command_engine.md R230, 43_interrupt_coalescer.md
R281). -/

namespace Sys2Proof.Machine

variable {s t u : State}

/-! ### Operations that pass no byte -/

/-- From `s` to `t` no byte passed the card in either direction. -/
structure NoBytes (s t : State) : Prop where
  count : cardBytes t.trace = cardBytes s.trace
  sent : cardWrites t.trace = cardWrites s.trace
  given : cardReads t.trace = cardReads s.trace

theorem noBytes_of_trace (h : t.trace = s.trace) : NoBytes s t := ⟨by rw [h], by rw [h], by rw [h]⟩

theorem NoBytes.trans (h : NoBytes s t) (h' : NoBytes t u) : NoBytes s u :=
  ⟨h'.count.trans h.count, h'.sent.trans h.sent, h'.given.trans h.given⟩

theorem noBytes_cardIssue (s : State) (id : BitVec 6) (arg : Word) : NoBytes s (s.cardIssue id arg).2 := ⟨rfl, rfl, rfl⟩

theorem noBytes_cardDataReady (s : State) : NoBytes s s.cardDataReady.2 := ⟨rfl, rfl, rfl⟩

theorem noBytes_irqUpdate (s : State) : NoBytes s s.irqUpdate := ⟨rfl, rfl, rfl⟩

/-- A dispatch calls the card for a command at most. -/
theorem noBytes_dispatch (s : State) (w arg : Word) : NoBytes s (s.dispatch w arg) := by
  unfold State.dispatch
  split
  · exact noBytes_of_trace rfl
  · exact (noBytes_cardIssue s _ arg).trans (noBytes_of_trace (trace_settle _ _))

theorem noBytes_autoStopCheck (s : State) : NoBytes s s.autoStopCheck := by
  obtain ⟨_, h⟩ | ⟨_, _, h⟩ := autoStopCheck_cases s <;> rw [h]
  · exact noBytes_of_trace rfl
  · exact (noBytes_dispatch s _ 0).trans (noBytes_of_trace rfl)

/-! ### The end of a walk -/

/-- What follows the last descriptor of a walk: completion status, auto-stop check, line (42_dma_engine.md R263,
R144). -/
def State.finishWalk (s : State) (wr : Bool) : State := (s.walkComplete wr).autoStopCheck.irqUpdate

theorem frame_finishWalk (s : State) (wr : Bool) : Frame s (s.finishWalk wr) (.idst :: dispatchCells) :=
  (((frame_walkComplete s wr).mono (by decide)).trans ((frame_autoStopCheck _).mono (by decide))).trans
    ((frame_irqUpdate _).mono (by decide))

@[simp] theorem xfer_finishWalk (s : State) (wr : Bool) : (s.finishWalk wr).xfer = s.xfer := by simp [State.finishWalk]

@[simp] theorem mem_finishWalk (s : State) (wr : Bool) : (s.finishWalk wr).mem = s.mem := by simp [State.finishWalk]

theorem noBytes_finishWalk (s : State) (wr : Bool) : NoBytes s (s.finishWalk wr) :=
  ((noBytes_of_trace (trace_walkComplete s wr)).trans (noBytes_autoStopCheck _)).trans (noBytes_irqUpdate _)

/-- The line is driven last, to the level the state then asks for (43_interrupt_coalescer.md R281). -/
theorem trace_finishWalk (s : State) (wr : Bool) :
    ∃ es, (s.finishWalk wr).trace = .irqSet (s.finishWalk wr).irqLevel :: es := ⟨_, rfl⟩

theorem idst_finishWalk (s : State) (wr : Bool) :
    (s.finishWalk wr).cell .idst =
      if wr then setBit (s.cell .idst) s.cfg.pos.txDone
      else setBit (setBit (s.cell .idst) s.cfg.pos.rxDone) s.cfg.pos.rxSummary := by
  rw [← idst_walkComplete]
  exact (frame_autoStopCheck _).cells .idst (by decide)

/-- The two completion flags are set, and the auto-stop check clears none (42_dma_engine.md R263). -/
theorem getLsbD_risr_finishWalk (hp : s.cfg.pos.wf = true) (wr : Bool) :
    ((s.finishWalk wr).cell .risr).getLsbD s.cfg.pos.dataComplete = true ∧
    ((s.finishWalk wr).cell .risr).getLsbD s.cfg.pos.autocmdDone = true := by
  have hlt := (Positions.wf_risr hp).2
  have hstop {k : Nat} (h : ((s.walkComplete wr).cell .risr).getLsbD k = true) :
      ((s.finishWalk wr).cell .risr).getLsbD k = true := getLsbD_autoStopCheck_of_true h
  rw [risr_walkComplete] at hstop
  exact ⟨hstop (getLsbD_setBit_of_true (getLsbD_setBit_self _ (hlt _ (by simp))) _),
    hstop (getLsbD_setBit_self _ (hlt _ (by simp)))⟩

theorem keepsRawBits_finishWalk (s : State) (wr : Bool) : Claims.keepsRawBits s (s.finishWalk wr)
    [s.cfg.pos.noResponse, s.cfg.pos.cmdComplete, s.cfg.pos.dataComplete, s.cfg.pos.autocmdDone] := by
  have hstop := keepsRawBits_autoStopCheck (s.walkComplete wr)
  rw [(frame_walkComplete s wr).cfg] at hstop
  have hdone : Claims.keepsRawBits (s.setRisr s.cfg.pos.dataComplete) (s.walkComplete wr)
      [s.cfg.pos.noResponse, s.cfg.pos.cmdComplete, s.cfg.pos.dataComplete, s.cfg.pos.autocmdDone] :=
    keepsRawBits_of_setBit (n := s.cfg.pos.autocmdDone) (by simp [risr_walkComplete]) (by simp)
  exact keepsRawBits_trans
    (keepsRawBits_trans (keepsRawBits_of_setBit (n := s.cfg.pos.dataComplete) (by simp) (by simp)) hdone)
    (keepsRawBits_mono hstop (by simp))

/-- With no auto-stop due a walk ends with its completion status and the line (41_command_engine.md R230). -/
theorem finishWalk_of_no_autoStop (h : autostop s.cfg.pos (s.cell .cmdr) = false ∨ s.xfer ≠ 0) (wr : Bool) :
    s.finishWalk wr = (s.walkComplete wr).irqUpdate := by
  have hframe := frame_walkComplete s wr
  obtain ⟨_, e⟩ | ⟨ha, hx, _⟩ := autoStopCheck_cases (s.walkComplete wr)
  · rw [State.finishWalk, e]
  · rw [hframe.cfg, hframe.cells .cmdr (by decide)] at ha
    rw [xfer_walkComplete] at hx
    simp [ha, hx] at h

/-- One stop command reaches the card where an auto-stop is due and the word is no clock change (R230, R231, R223). -/
theorem cardCommands_finishWalk (hp : s.cfg.pos.wf = true) (wr : Bool) :
    cardCommands (s.finishWalk wr).trace =
      (if autostop s.cfg.pos (s.cell .cmdr) = true ∧ clkChange s.cfg.pos (s.cell .cmdr) = false ∧ s.xfer = 0
        then [(s.cfg.stopCmdId, 0)] else []) ++ cardCommands s.trace := by
  have hframe := frame_walkComplete s wr
  have hcmdr : (s.walkComplete wr).cell .cmdr = s.cell .cmdr := hframe.cells .cmdr (by decide)
  have hline : cardCommands (s.finishWalk wr).trace = cardCommands (s.walkComplete wr).autoStopCheck.trace := rfl
  rw [hline]
  cases hc : clkChange s.cfg.pos (s.cell .cmdr) with
  | false =>
    rw [cardCommands_autoStopCheck (by rwa [hframe.cfg]) (by rwa [hframe.cfg, hcmdr]), hframe.cfg, hcmdr]
    simp
  | true =>
    obtain ⟨_, e⟩ | ⟨ha, hx, _⟩ := autoStopCheck_cases (s.walkComplete wr)
    · simp [e]
    · rw [autoStopCheck_clkChange (by rwa [hframe.cfg]) ha hx (by rwa [hframe.cfg, hcmdr])]
      simp

end Sys2Proof.Machine
end

section
/-! SUPPORT. What one descriptor of a walk does (42_dma_engine.md R255 to R261): the bytes it moves, where memory
changes, what it counts. -/

namespace Sys2Proof.Machine

open Claims (bytesAt apart outside descFits)

variable {c : Cfg} {s t : State} {wr : Bool} {dptr : Word} {d : Desc} {n : Nat}

/-! ### Ranges of addresses -/

theorem apart_symm {a b : Word} {m : Nat} (h : apart c a n b m) : apart c b m a n :=
  fun j k hj hk e => h k j hk hj e.symm

theorem outside_of_apart {a b : Word} {m j : Nat} (h : apart c a n b m) (hj : j < n) : outside c (c.byteAddr a j) b m :=
  fun k hk => h j k hj hk

/-- Memory that agrees on a range holds the same bytes there. -/
theorem bytesAt_congr (hcfg : t.cfg = s.cfg) {a : Word}
    (h : ∀ k, k < n → t.mem.read (s.cfg.byteAddr a k) = s.mem.read (s.cfg.byteAddr a k)) :
    bytesAt t a n = bytesAt s a n := by
  unfold bytesAt
  rw [hcfg]
  exact Memory.readBytes_congr _ _ _ _ _ h

/-! ### One descriptor -/

/-- From `s` to `t`, in configuration `c`, the descriptor `d` at `dptr` has been dealt with: `n` bytes of its buffer
moved, the descriptor handed back, the counters less by `n` (R256 to R261). -/
structure DescriptorMoved (c : Cfg) (s t : State) (wr : Bool) (dptr : Word) (d : Desc) (n : Nat) : Prop where
  cfg : t.cfg = c
  frame : Frame s t [.bycr]
  memWf : t.mem.wf c.addrBits = true
  bycr : (t.cell .bycr).toNat = (s.cell .bycr).toNat - n
  xfer : t.xfer.toNat = s.xfer.toNat - n
  count : cardBytes t.trace = n + cardBytes s.trace
  commands : cardCommands t.trace = cardCommands s.trace
  handedBack : descFits c → bytesAt t dptr 16 = (d.handedBack c).toBytes c.descByteOrder
  unchanged : ∀ q, outside c q dptr 16 → (wr = true ∨ outside c q (d.base c) n) → t.mem.read q = s.mem.read q
  sent : wr = true → cardWrites t.trace = (bytesAt s (d.base c) n).reverse ++ cardWrites s.trace ∧
    cardReads t.trace = cardReads s.trace ∧
    t.mem = s.mem.writeBytes c.addrBits dptr.toNat ((d.handedBack c).toBytes c.descByteOrder)
  given : wr = false → cardReads t.trace = (s.card.gives n).reverse ++ cardReads s.trace ∧
    cardWrites t.trace = cardWrites s.trace ∧ t.card = s.card.after n ∧
    (n ≤ 2 ^ c.addrBits → apart c dptr 16 (d.base c) n → bytesAt t (d.base c) n = s.card.gives n)

theorem descriptorMoved_processDesc (hcfg : s.cfg = c) (hwf : c.wf = true) (hm : s.mem.wf c.addrBits = true) (wr : Bool)
    (dptr : Word) (d : Desc) :
    DescriptorMoved c s (s.processDesc wr dptr d) wr dptr d (d.chunk c (s.cell .bycr)) := by
  subst hcfg
  have hstage := Cfg.wf_stage hwf
  have hframe := frame_processDesc s wr dptr d
  have hbytes (a : Word) (k : Nat) : bytesAt (s.processDesc wr dptr d) a k =
      (s.processDesc wr dptr d).mem.readBytes s.cfg.addrBits a.toNat k := by rw [bytesAt, hframe.cfg]
  refine ⟨hframe.cfg, hframe, memWf_processDesc hm wr dptr d, bycr_processDesc s wr dptr d, ?_,
    cardBytes_processDesc s wr dptr d hstage, cardCommands_processDesc s wr dptr d, fun hfits => ?_,
    fun q => read_processDesc_outside s wr dptr d q, ?_, ?_⟩
  · rw [xfer_processDesc, toNat_satSub]
  · rw [hbytes]
    exact readBytes_processDesc hm hfits wr dptr d
  · rintro rfl
    exact processDesc_write s dptr d hstage
  · rintro rfl
    rw [hbytes]
    exact processDesc_read hm dptr d hstage

/-- A range that the step does not write holds what it held. -/
theorem DescriptorMoved.bytesAt_eq (h : DescriptorMoved c s t wr dptr d n) {a : Word} {m : Nat}
    (hd : apart c a m dptr 16) (hb : wr = true ∨ apart c a m (d.base c) n) : bytesAt t a m = bytesAt s a m := by
  have hs : s.cfg = c := h.frame.cfg.symm.trans h.cfg
  refine bytesAt_congr h.frame.cfg fun k hk => ?_
  rw [hs]
  exact h.unchanged _ (outside_of_apart hd hk) (hb.imp id (outside_of_apart · hk))

/-- The calls a descriptor's step makes of the card: its bytes, in order, and nothing else (20_memory.md R77). -/
theorem DescriptorMoved.cardCalls_eq (h : DescriptorMoved c s (s.processDesc wr dptr d) wr dptr d n) :
    cardCalls (s.processDesc wr dptr d).trace =
      (if wr then (bytesAt s (d.base c) n).map ExtEvent.cardWrite
        else (s.card.gives n).map ExtEvent.cardRead).reverse ++ cardCalls s.trace := by
  obtain ⟨b, hcalls, hb⟩ := cardCalls_processDesc s wr dptr d
  rw [hcalls]
  cases wr with
  | true =>
    obtain ⟨hsent, -⟩ := h.sent rfl
    have hbytes : b = (bytesAt s (d.base c) n).reverse := List.append_cancel_right (hb.symm.trans hsent)
    simp [hbytes]
  | false =>
    obtain ⟨hgiven, -⟩ := h.given rfl
    have hbytes : b = (s.card.gives n).reverse := List.append_cancel_right (hb.symm.trans hgiven)
    simp [hbytes]

end Sys2Proof.Machine
end

section
/-! SUPPORT. The walk's loop by its turns (42_dma_engine.md R254, R255, R262): a turn fetches a descriptor and deals
with it, and the walk ends there or goes on at `next`; the descriptor rows are the rest of a walk. -/

namespace Sys2Proof.Machine

open Claims (bytesAt)

variable {c : Cfg} {s t : State} {wr : Bool} {dptr : Word} {d : Desc}

/-- What is left of the walk's loop when `d` has been fetched at `dptr` (R262). -/
def State.walkFrom (s : State) (wr : Bool) (dptr : Word) (d : Desc) : State :=
  let t := s.processDesc wr dptr d
  if d.isLast s.cfg.pos || t.cell .bycr == 0 then t else t.walkLoop wr d.next (t.cell .bycr).toNat

theorem bycr_ne_zero_of_walkEnabled (h : s.walkEnabled = true) : s.cell .bycr ≠ 0 := by
  simp only [State.walkEnabled, Bool.and_eq_true, bne_iff_ne] at h
  exact h.1.2

/-- A descriptor row is the rest of the walk from its descriptor on, and the walk's end (log entry 9). -/
theorem exec_decodeDesc (h : s.walkEnabled = true) (dptr : Word) (d : Desc) :
    exec (decodeDesc s.cfg.pos dptr d) s =
      .next ((s.walkFrom (cmdWrite s.cfg.pos (s.cell .cmdr)) dptr d).finishWalk
        (cmdWrite s.cfg.pos (s.cell .cmdr))) := by
  unfold decodeDesc
  cases hl : d.isLast s.cfg.pos with
  | true => simp [exec, execDescLast, h, State.walkFrom, hl, State.finishWalk]
  | false => simp [exec, execDescLink, h, State.walkFrom, hl, State.finishWalk]

/-- A turn of the loop fetches a descriptor and is the walk from it on; the fuel is the outstanding request (R262). -/
theorem walkLoop_eq_walkFrom (hb : s.cell .bycr ≠ 0) (wr : Bool) (dptr : Word) :
    s.walkLoop wr dptr (s.cell .bycr).toNat = (s.fetchDesc dptr).2.walkFrom wr dptr (s.fetchDesc dptr).1 := by
  obtain ⟨fuel, hfuel⟩ := Nat.exists_eq_succ_of_ne_zero (fun e => hb (BitVec.eq_of_toNat_eq e))
  have hcount := bycr_processDesc (s.fetchDesc dptr).2 wr dptr (s.fetchDesc dptr).1
  have hpos := chunk_pos (s.fetchDesc dptr).2.cfg (s.fetchDesc dptr).1 hb
  have hcell : (s.fetchDesc dptr).2.cell .bycr = s.cell .bycr := rfl
  rw [hcell, hfuel] at hcount
  rw [hfuel, State.walkLoop, State.walkFrom]
  split
  case isTrue hends => exact (if_pos hends).symm
  case isFalse hgoes =>
    refine Eq.trans ?_ (if_neg hgoes).symm
    have hne := (not_or.1 (mt Bool.or_eq_true_iff.2 hgoes)).2
    exact walkLoop_fuel _ _ _ _ _ (by simpa using hne) (by omega) (Nat.le_refl _)

/-- The walk ends at a descriptor that is last or exhausts the request (R262). -/
theorem walkFrom_of_ends (h : d.isLast s.cfg.pos = true ∨ (s.cell .bycr).toNat ≤ d.effSize s.cfg) (wr : Bool)
    (dptr : Word) : s.walkFrom wr dptr d = s.processDesc wr dptr d := by
  refine if_pos ?_
  obtain hlast | hle := h
  · simp [hlast]
  · have hcount := bycr_processDesc s wr dptr d
    rw [Desc.chunk, Nat.min_eq_right hle, Nat.sub_self] at hcount
    have hzero : (s.processDesc wr dptr d).cell .bycr = 0 := BitVec.eq_of_toNat_eq hcount
    simp [hzero]

/-- The walk goes on at `next` while the descriptor is not last and something is outstanding (R262). -/
theorem walkFrom_of_continues (hl : d.isLast s.cfg.pos = false) (hb : (s.processDesc wr dptr d).cell .bycr ≠ 0) :
    s.walkFrom wr dptr d = (s.processDesc wr dptr d).walkLoop wr d.next ((s.processDesc wr dptr d).cell .bycr).toNat :=
  if_neg (by simpa [hl] using hb)

theorem walkFrom_of_exhausted (hb : (s.processDesc wr dptr d).cell .bycr = 0) :
    s.walkFrom wr dptr d = s.processDesc wr dptr d :=
  if_pos (by simp [hb])

/-- A step that leaves something outstanding leaves the walk enabled (R250). -/
theorem Frame.walkEnabled_of_bycr (h : Frame s t [.bycr]) (he : s.walkEnabled = true) (hb : t.cell .bycr ≠ 0) :
    t.walkEnabled = true := by
  simp only [State.walkEnabled, Bool.and_eq_true, bne_iff_ne] at he ⊢
  obtain ⟨⟨hgctl, -⟩, hbksr⟩ := he
  rw [h.cfg, h.cells .gctl (by decide), h.cells .bksr (by decide)]
  exact ⟨⟨hgctl, hb⟩, hbksr⟩

/-- The row that the 16 bytes at an address decode to, run after their fetch, is the walk's loop from that address on,
and the walk's end (log entry 9). -/
theorem exec_row_at {i : Instr} (he : s.walkEnabled = true)
    (hi : decode s.cfg (.descriptor dptr (bytesAt s dptr 16)) = .ok i) :
    exec i (s.memRead dptr.toNat 16).2 =
      .next ((s.walkLoop (cmdWrite s.cfg.pos (s.cell .cmdr)) dptr (s.cell .bycr).toNat).finishWalk
        (cmdWrite s.cfg.pos (s.cell .cmdr))) := by
  have hrow : decodeDesc s.cfg.pos dptr (s.fetchDesc dptr).1 = i := by
    have hlen : (bytesAt s dptr 16).length = descBytes := Memory.readBytes_length _ _ _ _
    exact Except.ok.inj ((decode_descriptor hlen s.cfg dptr).symm.trans hi)
  rw [walkLoop_eq_walkFrom (bycr_ne_zero_of_walkEnabled he), ← hrow]
  exact exec_decodeDesc (s := (s.fetchDesc dptr).2) he dptr _

/-! ### One turn -/

/-- The bytes a descriptor is encoded in are fetched as it (R255, 20_memory.md R75). -/
theorem fetchDesc_of_bytesAt (h : bytesAt s dptr 16 = d.toBytes s.cfg.descByteOrder) : (s.fetchDesc dptr).1 = d :=
  (congrArg (Desc.ofBytes s.cfg.descByteOrder) h).trans (ofBytes_toBytes _ d)

/-- One turn of the walk's loop at a descriptor `d`. -/
def State.turn (s : State) (wr : Bool) (dptr : Word) (d : Desc) : State := (s.fetchDesc dptr).2.processDesc wr dptr d

/-- The fetch of a descriptor is in the record of events and nowhere else. -/
theorem descriptorMoved_turn (hcfg : s.cfg = c) (hwf : c.wf = true) (hm : s.mem.wf c.addrBits = true) (wr : Bool)
    (dptr : Word) (d : Desc) : DescriptorMoved c s (s.turn wr dptr d) wr dptr d (d.chunk c (s.cell .bycr)) := by
  have h := descriptorMoved_processDesc (s := (s.fetchDesc dptr).2) hcfg hwf hm wr dptr d
  have hfetch : Frame s (s.fetchDesc dptr).2 [.bycr] := (frame_fetchDesc s dptr).mono (List.nil_subset _)
  exact ⟨h.cfg, hfetch.trans h.frame, h.memWf, h.bycr, h.xfer, h.count, h.commands, h.handedBack, h.unchanged, h.sent,
    h.given⟩

theorem walkLoop_of_ends (hd : bytesAt s dptr 16 = d.toBytes s.cfg.descByteOrder) (hb : s.cell .bycr ≠ 0)
    (h : (s.cell .bycr).toNat ≤ d.effSize s.cfg) (wr : Bool) :
    s.walkLoop wr dptr (s.cell .bycr).toNat = s.turn wr dptr d := by
  rw [walkLoop_eq_walkFrom hb, fetchDesc_of_bytesAt hd]
  exact walkFrom_of_ends (s := (s.fetchDesc dptr).2) (.inr h) wr dptr

/-- A descriptor smaller than the request leaves something outstanding (R256, R261). -/
theorem bycr_turn_ne_zero (h : d.effSize s.cfg < (s.cell .bycr).toNat) (wr : Bool) (dptr : Word) :
    (s.turn wr dptr d).cell .bycr ≠ 0 := by
  have hcount : ((s.turn wr dptr d).cell .bycr).toNat = (s.cell .bycr).toNat - d.chunk s.cfg (s.cell .bycr) :=
    bycr_processDesc (s.fetchDesc dptr).2 wr dptr d
  rw [Desc.chunk, Nat.min_eq_left h.le] at hcount
  intro e
  rw [e] at hcount
  exact Nat.sub_ne_zero_of_lt h hcount.symm

theorem walkLoop_of_continues (hd : bytesAt s dptr 16 = d.toBytes s.cfg.descByteOrder) (hl : d.isLast s.cfg.pos = false)
    (h : d.effSize s.cfg < (s.cell .bycr).toNat) (wr : Bool) :
    s.walkLoop wr dptr (s.cell .bycr).toNat =
      (s.turn wr dptr d).walkLoop wr d.next ((s.turn wr dptr d).cell .bycr).toNat := by
  have hb : s.cell .bycr ≠ 0 := fun e => by simp [e] at h
  rw [walkLoop_eq_walkFrom hb, fetchDesc_of_bytesAt hd]
  exact walkFrom_of_continues hl (bycr_turn_ne_zero h wr dptr)

end Sys2Proof.Machine
end

section
/-! SUPPORT. A loaded word whose walk runs: the state its dispatch leaves, the walk from `DLBA` on, and the counters
and flags at the walk's end (40_register_access.md R144, 42_dma_engine.md R250 to R253, R263, R265). -/

namespace Sys2Proof.Machine

open Claims (keepsRawBits cardAfterDispatch)

variable {s t u : State} {w : Word}

/-! ### After the dispatch -/

/-- From `s` to `u` the loaded word `w` has been dispatched: it is in `CMDR` without `LOAD`, the card has its command,
if any, and only the dispatch's cells changed (41_command_engine.md R220 to R224). -/
structure Loaded (s : State) (w : Word) (u : State) : Prop where
  touches : Touches s u (.cmdr :: dispatchCells)
  cmdr : u.cell .cmdr = clearBit w s.cfg.pos.load
  xfer : u.xfer = s.xfer
  mem : u.mem = s.mem
  card : u.card = cardAfterDispatch s w
  bytes : NoBytes s u
  rawBits : keepsRawBits s u [s.cfg.pos.noResponse, s.cfg.pos.cmdComplete]

/-- `Card.data_ready` changes nothing but the record of events (00_scope.md R8). -/
theorem Loaded.cardDataReady (h : Loaded s w u) : Loaded s w u.cardDataReady.2 :=
  ⟨h.touches.trans ((frame_emit u .cardDataReady).touches (List.nil_subset _)), h.cmdr, h.xfer, h.mem, h.card,
    h.bytes.trans (noBytes_cardDataReady u), h.rawBits⟩

theorem Loaded.cmdWrite_eq (h : Loaded s w u) (hp : s.cfg.pos.wf = true) :
    cmdWrite u.cfg.pos (u.cell .cmdr) = cmdWrite s.cfg.pos w := by
  rw [h.touches.cfg, h.cmdr, cmdWrite_latched hp]

theorem card_dispatch (s : State) (w arg : Word) : (s.dispatch w arg).card =
    if clkChange s.cfg.pos w then s.card else (s.card.issue (cmdIdx s.cfg.pos w) arg).2 := by
  unfold State.dispatch
  split
  · rfl
  · simp

/-- `WR CMDR` of a loaded word dispatches it and follows it up (40_register_access.md R144). -/
theorem exec_wrCmdr_loaded (hp : s.cfg.pos.wf = true) (hl : loadBit s.cfg.pos w = true) :
    ∃ u, Loaded s w u ∧ exec (.wrCmdr w) s = .next u.afterDispatch := by
  refine ⟨_, ?_, execWrCmdr_loaded w s hl⟩
  have hlatch := (stored_setCell s .cmdr w .cmdr (clearBit w s.cfg.pos.load)).touches
  have hframe := frame_dispatch (s.latch w) (clearBit w s.cfg.pos.load) (s.cell .cagr)
  have hrisr := risr_dispatch (s.latch w) (clearBit w s.cfg.pos.load) (s.cell .cagr)
  have hlatched : (s.latch w).cell .risr = s.cell .risr := by simp [cell_latch]
  rw [hlatched, cfg_latch] at hrisr
  exact {
    touches := (hlatch.mono (by decide)).trans (hframe.touches (by decide))
    cmdr := by simp [hframe.cells .cmdr (by decide), cell_latch]
    xfer := by simp
    mem := by simp
    card := by simp [card_dispatch, cardAfterDispatch, clkChange_latched hp, cmdIdx_latched hp]
    bytes := (noBytes_of_trace (trace_latch s w)).trans (noBytes_dispatch _ _ _)
    rawBits := by obtain h | h := hrisr <;> exact keepsRawBits_of_setBit h (by simp) }

/-! ### The walk that follows -/

/-- The state a walk starts from: in the read direction the card has been asked whether it is ready (R252). -/
def State.readied (u : State) : State := if cmdWrite u.cfg.pos (u.cell .cmdr) then u else u.cardDataReady.2

theorem readied_cases (u : State) : u.readied = u ∨ u.readied = u.cardDataReady.2 := by
  unfold State.readied
  split
  · exact .inl rfl
  · exact .inr rfl

/-- Where a condition of the walk fails, nothing follows but a readiness check at most (R250, R252). -/
theorem dmaWalk_of_idle
    (h : u.walkEnabled = false ∨ (cmdWrite u.cfg.pos (u.cell .cmdr) = false ∧ u.card.dataReady = false)) :
    u.dmaWalk = u ∨ u.dmaWalk = u.cardDataReady.2 := by
  obtain ⟨_, e⟩ | ⟨hon, hw, _⟩ | ⟨hon, _, hready, _⟩ | ⟨_, _, _, e⟩ := dmaWalk_cases u
  · exact .inl e
  · simp [hon, hw] at h
  · simp [hon, hready] at h
  · exact .inr e

/-- What follows the dispatch where a walk runs: its loop from `DLBA` on, and its end (R144, R253). -/
theorem afterDispatch_of_walk (h : u.walkEnabled = true)
    (hr : cmdWrite u.cfg.pos (u.cell .cmdr) = true ∨ u.card.dataReady = true) :
    u.afterDispatch = (u.readied.walkLoop (cmdWrite u.cfg.pos (u.cell .cmdr)) (u.cell .dlba)
      (u.cell .bycr).toNat).finishWalk (cmdWrite u.cfg.pos (u.cell .cmdr)) := by
  cases hw : cmdWrite u.cfg.pos (u.cell .cmdr) with
  | true => simp [State.afterDispatch, State.dmaWalk, State.walk, State.finishWalk, State.readied, h, hw]
  | false =>
    have hready : u.card.dataReady = true := by simpa [hw] using hr
    simp [State.afterDispatch, State.dmaWalk, State.walk, State.finishWalk, State.readied, h, hw, hready]

/-- `WR CMDR` of a loaded word whose walk runs is that walk, from a state the dispatch left. -/
theorem exec_wrCmdr_walk (hp : s.cfg.pos.wf = true) (hl : loadBit s.cfg.pos w = true) (he : s.walkEnabled = true)
    (hr : cmdWrite s.cfg.pos w = true ∨ (cardAfterDispatch s w).dataReady = true) :
    ∃ v, Loaded s w v ∧ exec (.wrCmdr w) s = .next ((v.walkLoop (cmdWrite s.cfg.pos w) (s.cell .dlba)
      (s.cell .bycr).toNat).finishWalk (cmdWrite s.cfg.pos w)) := by
  obtain ⟨u, hu, hexec⟩ := exec_wrCmdr_loaded hp hl
  have hwalk := afterDispatch_of_walk (u := u)
  rw [hu.cmdWrite_eq hp, hu.card, hu.touches.cells .dlba (by decide), hu.touches.cells .bycr (by decide)] at hwalk
  refine ⟨u.readied, ?_, by rw [hexec, hwalk (hu.touches.walkEnabled.trans he) hr]⟩
  obtain h | h := readied_cases u <;> rw [h]
  · exact hu
  · exact hu.cardDataReady

/-! ### What a walk leaves -/

/-- From `s` to `t` a walk in the direction `wr` has moved `m` bytes and ended: each byte counted once in `BYCR`, in
`XFER` (clamped) and on the card, and the completion status raised (42_dma_engine.md R263, R265). -/
structure WalkEnded (s t : State) (wr : Bool) (m : Nat) : Prop where
  bycr : (t.cell .bycr).toNat = (s.cell .bycr).toNat - m
  xfer : t.xfer.toNat = s.xfer.toNat - m
  count : cardBytes t.trace = m + cardBytes s.trace
  dataComplete : (t.cell .risr).getLsbD s.cfg.pos.dataComplete = true
  autocmdDone : (t.cell .risr).getLsbD s.cfg.pos.autocmdDone = true
  idst : t.cell .idst = if wr then setBit (s.cell .idst) s.cfg.pos.txDone
    else setBit (setBit (s.cell .idst) s.cfg.pos.rxDone) s.cfg.pos.rxSummary

/-- The counts are made before the walk's end, which raises the status and counts nothing. -/
theorem walkEnded_finishWalk {m : Nat} (hp : s.cfg.pos.wf = true) (hf : Touches s t (.bycr :: .cmdr :: dispatchCells))
    (hbycr : (t.cell .bycr).toNat = (s.cell .bycr).toNat - m) (hxfer : t.xfer.toNat = s.xfer.toNat - m)
    (hcount : cardBytes t.trace = m + cardBytes s.trace) (wr : Bool) : WalkEnded s (t.finishWalk wr) wr m := by
  have hflags := getLsbD_risr_finishWalk (s := t) (by rwa [hf.cfg]) wr
  have hidst := idst_finishWalk t wr
  rw [hf.cfg] at hflags
  rw [hf.cfg, hf.cells .idst (by decide)] at hidst
  exact {
    bycr := by rw [(frame_finishWalk t wr).cells .bycr (by decide), hbycr]
    xfer := by rw [xfer_finishWalk, hxfer]
    count := by rw [(noBytes_finishWalk t wr).count, hcount]
    dataComplete := hflags.1
    autocmdDone := hflags.2
    idst := hidst }

end Sys2Proof.Machine
end

section
/-! SUPPORT. A walk over two descriptors that exhaust the request (42_dma_engine.md R266). -/

namespace Sys2Proof.Machine

open Claims (bytesAt apart cardAfterDispatch)

variable {s u v : State} {w : Word} {wr : Bool} {dptr : Word} {d₁ d₂ : Desc}

@[simp] theorem bytesAt_finishWalk (s : State) (wr : Bool) (a : Word) (n : Nat) :
    bytesAt (s.finishWalk wr) a n = bytesAt s a n := by
  rw [bytesAt, bytesAt, (frame_finishWalk s wr).cfg, mem_finishWalk]

theorem Loaded.bytesAt_eq (h : Loaded s w u) (a : Word) (n : Nat) : bytesAt u a n = bytesAt s a n := by
  rw [bytesAt, bytesAt, h.touches.cfg, h.mem]

/-- In `s` a walk from `dptr` finds `d₁`, not last and too small for the request, and at its `next` `d₂`, which
suffices for the rest; dealing with the first does not touch the second (42_dma_engine.md R266). -/
structure TwoDescriptorChain (s : State) (wr : Bool) (dptr : Word) (d₁ d₂ : Desc) : Prop where
  first : bytesAt s dptr 16 = d₁.toBytes s.cfg.descByteOrder
  second : bytesAt s d₁.next 16 = d₂.toBytes s.cfg.descByteOrder
  apartFirst : apart s.cfg dptr 16 d₁.next 16
  apartBuffer : wr = true ∨ apart s.cfg d₁.next 16 (d₁.base s.cfg) (d₁.effSize s.cfg)
  notLast : d₁.isLast s.cfg.pos = false
  more : d₁.effSize s.cfg < (s.cell .bycr).toNat
  enough : (s.cell .bycr).toNat ≤ d₁.effSize s.cfg + d₂.effSize s.cfg

theorem TwoDescriptorChain.of_loaded (h : TwoDescriptorChain s wr dptr d₁ d₂) (hv : Loaded s w v) :
    TwoDescriptorChain v wr dptr d₁ d₂ := by
  have hcfg := hv.touches.cfg
  have hbycr : v.cell .bycr = s.cell .bycr := hv.touches.cells .bycr (by decide)
  obtain ⟨hfirst, hsecond, hapart, hbuffer, hlast, hmore, henough⟩ := h
  rw [← hv.bytesAt_eq] at hfirst hsecond
  rw [← hcfg] at hfirst hsecond hapart hbuffer hlast
  rw [← hcfg, ← hbycr] at hmore henough
  exact ⟨hfirst, hsecond, hapart, hbuffer, hlast, hmore, henough⟩

/-- The first descriptor's step leaves the second as it was fetched, and the second takes the rest of the request. -/
theorem TwoDescriptorChain.walkLoop (h : TwoDescriptorChain s wr dptr d₁ d₂) (hwf : s.cfg.wf = true)
    (hm : s.mem.wf s.cfg.addrBits = true) :
    ∃ u, DescriptorMoved s.cfg s u wr dptr d₁ (d₁.effSize s.cfg) ∧
      DescriptorMoved s.cfg u (s.walkLoop wr dptr (s.cell .bycr).toNat) wr d₁.next d₂
        ((s.cell .bycr).toNat - d₁.effSize s.cfg) := by
  have hmore := h.more
  have hrest : (s.cell .bycr).toNat - d₁.effSize s.cfg ≤ d₂.effSize s.cfg := by
    have := h.enough
    omega
  have hfirst := descriptorMoved_turn rfl hwf hm wr dptr d₁
  rw [Desc.chunk, Nat.min_eq_left hmore.le] at hfirst
  have hloop := walkLoop_of_continues h.first h.notLast hmore wr
  have hleft := bycr_turn_ne_zero hmore wr dptr
  generalize s.turn wr dptr d₁ = u at *
  have hsecond := descriptorMoved_turn hfirst.cfg hwf hfirst.memWf wr d₁.next d₂
  rw [Desc.chunk, hfirst.bycr, Nat.min_eq_right hrest] at hsecond
  have hnext : bytesAt u d₁.next 16 = d₂.toBytes u.cfg.descByteOrder := by
    rw [hfirst.bytesAt_eq (apart_symm h.apartFirst) h.apartBuffer, h.second, hfirst.cfg]
  refine ⟨u, hfirst, ?_⟩
  rw [hloop, walkLoop_of_ends hnext hleft (by rwa [hfirst.cfg, hfirst.bycr])]
  exact hsecond

/-- `WR CMDR` of a loaded word that walks such a chain: after the dispatch the two steps, then the walk's end. -/
theorem TwoDescriptorChain.exec_wrCmdr
    (h : TwoDescriptorChain s (cmdWrite s.cfg.pos w) (s.cell .dlba) d₁ d₂) (hwf : s.cfg.wf = true)
    (hm : s.mem.wf s.cfg.addrBits = true) (hload : loadBit s.cfg.pos w = true) (he : s.walkEnabled = true)
    (hr : cmdWrite s.cfg.pos w = true ∨ (cardAfterDispatch s w).dataReady = true) :
    ∃ v u e, exec (.wrCmdr w) s = .next (e.finishWalk (cmdWrite s.cfg.pos w)) ∧ Loaded s w v ∧
      DescriptorMoved s.cfg v u (cmdWrite s.cfg.pos w) (s.cell .dlba) d₁ (d₁.effSize s.cfg) ∧
      DescriptorMoved s.cfg u e (cmdWrite s.cfg.pos w) d₁.next d₂ ((s.cell .bycr).toNat - d₁.effSize s.cfg) ∧
      WalkEnded s (e.finishWalk (cmdWrite s.cfg.pos w)) (cmdWrite s.cfg.pos w) (s.cell .bycr).toNat := by
  obtain ⟨v, hv, hexec⟩ := exec_wrCmdr_walk (Cfg.wf_pos hwf) hload he hr
  have hmore := h.more
  have hcfg := hv.touches.cfg
  have hbycr : v.cell .bycr = s.cell .bycr := hv.touches.cells .bycr (by decide)
  have hchain := (h.of_loaded hv).walkLoop
  rw [hcfg, hv.mem, hbycr] at hchain
  obtain ⟨u, hfirst, hsecond⟩ := hchain hwf hm
  refine ⟨v, u, _, hexec, hv, hfirst, hsecond, walkEnded_finishWalk (Cfg.wf_pos hwf) ?_ ?_ ?_ ?_ _⟩
  · exact ((hv.touches.mono (by decide)).trans (hfirst.frame.touches (by decide))).trans
      (hsecond.frame.touches (by decide))
  · rw [hsecond.bycr, hfirst.bycr, hbycr]
    omega
  · rw [hsecond.xfer, hfirst.xfer, hv.xfer]
    omega
  · rw [hsecond.count, hfirst.count, hv.bytes.count]
    omega

end Sys2Proof.Machine
end

section
/-! SUPPORT. The obligations of 42_dma_engine.md that are settled here. -/

namespace Sys2Proof.Claims

open Sys2Proof.Machine

/-- Settles O42: a cleared bit, and the cases of the size word. -/
theorem handedBackDescriptorDiffersOnlyInHoldAndZeroSize :
    Obligations.HandedBackDescriptorDiffersOnlyInHoldAndZeroSize := by
  intro c d
  refine ⟨fun k hk => ?_, rfl, rfl, ?_, fun hz => if_pos hz, fun hz => if_neg hz⟩
  · simp [Desc.handedBack, getLsbD_clearBit _ _ _ hk, @eq_comm _ k]
  · simp [Desc.handedBack, descMaxSize]

theorem hold_handedBack {c : Cfg} (hp : c.pos.wf = true) (d : Desc) :
    (d.handedBack c).status.getLsbD c.pos.hold = false := by
  obtain ⟨hhold, -⟩ := Positions.wf_desc hp
  obtain ⟨hbits, -⟩ := handedBackDescriptorDiffersOnlyInHoldAndZeroSize c d
  simp [hbits _ hhold]

/-- Settles O39: the movement, the write-back and the counters of one descriptor, put together. -/
theorem everyDescriptorIsMovedHandedBackAndCounted : Obligations.EveryDescriptorIsMovedHandedBackAndCounted := by
  intro s wr dptr d hwf hfits hm
  have h := descriptorMoved_processDesc rfl hwf hm wr dptr d
  refine ⟨h.bycr, h.xfer, h.frame.cells, h.frame.log, h.cfg, h.frame.inbox, ⟨_, processDesc_trace s wr dptr d⟩,
    h.handedBack hfits, h.unchanged, h.count, h.commands, h.cardCalls_eq, fun hw => ?_, h.given⟩
  obtain ⟨hsent, hgiven, -⟩ := h.sent hw
  exact ⟨hsent, hgiven⟩

/-- Settles O40: the walk ends at this descriptor, so the row is the descriptor's step and the walk's end. -/
theorem descriptorIsMovedHandedBackAndCounted : Obligations.DescriptorIsMovedHandedBackAndCounted := by
  intro s dptr d he hwf hfits hm hends n wr
  have hp := Cfg.wf_pos hwf
  have hexec := exec_decodeDesc he dptr d
  have h := descriptorMoved_processDesc rfl hwf hm wr dptr d
  rw [walkFrom_of_ends hends] at hexec
  generalize s.processDesc wr dptr d = u at *
  have hend := walkEnded_finishWalk hp (h.frame.touches (by decide)) h.bycr h.xfer h.count wr
  have hframe : Frame s (u.finishWalk wr) [.bycr, .risr, .idst, .resp0, .resp1, .resp2, .resp3] :=
    (h.frame.mono (by decide)).trans ((frame_finishWalk u wr).mono (by decide))
  have hdone : Frame s (u.walkComplete wr) [.bycr, .risr, .idst] :=
    (h.frame.mono (by decide)).trans ((frame_walkComplete u wr).mono (by decide))
  have hrisr := risr_walkComplete u wr
  have hsent := cardCommands_finishWalk (s := u) (by rwa [h.cfg]) wr
  have hquiet := finishWalk_of_no_autoStop (s := u)
  rw [h.cfg, h.frame.cells .risr (by decide)] at hrisr
  rw [h.cfg, h.frame.cells .cmdr (by decide)] at hsent hquiet
  refine ⟨u.finishWalk wr, hexec, hend.bycr, hend.xfer, hend.count, by simpa using h.handedBack hfits,
    by simpa using h.unchanged, hend.dataComplete, hend.autocmdDone, hend.idst, ?_, hframe.cells, fun hno => ?_,
    hframe.log, hframe.cfg, hframe.inbox, trace_finishWalk u wr⟩
  · rw [hsent, h.commands, xfer_finishWalk]
  · rw [xfer_finishWalk] at hno
    rw [hquiet hno wr]
    exact ⟨hrisr, hdone.cells⟩

/-- Settles O41: the bytes pass in the descriptor's step, and the walk's end passes none. -/
theorem transferDataIsTheBufferInOrder : Obligations.TransferDataIsTheBufferInOrder := by
  intro s dptr d he hwf hm hends n base
  have hexec := exec_decodeDesc he dptr d
  rw [walkFrom_of_ends hends] at hexec
  generalize cmdWrite s.cfg.pos (s.cell .cmdr) = wr at *
  have h := descriptorMoved_processDesc rfl hwf hm wr dptr d
  have hend := noBytes_finishWalk (s.processDesc wr dptr d) wr
  refine ⟨_, hexec, fun hw => ?_, fun hw => ?_⟩ <;> rw [hend.sent, hend.given]
  · obtain ⟨hsent, hgiven, -⟩ := h.sent hw
    exact ⟨hsent, hgiven⟩
  · obtain ⟨hgiven, hsent, -, hbuffer⟩ := h.given hw
    exact ⟨hgiven, hsent, fun hn hd => (bytesAt_finishWalk _ _ _ _).trans (hbuffer hn hd)⟩

/-- Settles O43: what is left of the walk is its loop from `next` on, which is the row of the descriptor found there. -/
theorem linkContinuesWithTheDescriptorAtNext : Obligations.LinkContinuesWithTheDescriptorAtNext := by
  intro s dptr d he hl wr u
  have hframe : Frame s u [.bycr] := frame_processDesc s wr dptr d
  have hexec : exec (.descLink dptr d) s = .next ((s.walkFrom wr dptr d).finishWalk wr) := by
    rw [← exec_decodeDesc he, decodeDesc, hl]
    rfl
  refine ⟨fun hb i hi => ?_, fun hb => ?_⟩
  · have hrow := exec_row_at (s := u) (hframe.walkEnabled_of_bycr he hb) (dptr := d.next) (by rwa [hframe.cfg])
    rw [hframe.cfg, hframe.cells .cmdr (by decide)] at hrow
    rw [hexec, walkFrom_of_continues hl hb, hrow]
  · rw [hexec, walkFrom_of_exhausted hb]
    rfl

/-- Settles O44: what follows the dispatch is the walk's loop from `DLBA` on, which is the row of the descriptor found
there. -/
theorem walkStartsWithTheDescriptorAtDlba : Obligations.WalkStartsWithTheDescriptorAtDlba := by
  intro u i he hr hi
  have hrow : exec i (u.readied.memRead (u.cell .dlba).toNat 16).2 =
      .next ((u.readied.walkLoop (cmdWrite u.cfg.pos (u.cell .cmdr)) (u.cell .dlba) (u.cell .bycr).toNat).finishWalk
        (cmdWrite u.cfg.pos (u.cell .cmdr))) := by
    obtain h | h := readied_cases u <;> rw [h]
    · exact exec_row_at he hi
    · exact exec_row_at (s := u.cardDataReady.2) he hi
  rw [afterDispatch_of_walk he hr]
  exact hrow.symm

/-- Settles O45: no walk runs, or only a readiness check; the dispatch and the auto-stop check touch nothing named
here. -/
theorem noWalkWithoutItsConditions : Obligations.NoWalkWithoutItsConditions := by
  intro s w hwf hload hcond
  have hp := Cfg.wf_pos hwf
  obtain ⟨u, hu, hexec⟩ := exec_wrCmdr_loaded hp hload
  have hidle : u.walkEnabled = false ∨ (cmdWrite u.cfg.pos (u.cell .cmdr) = false ∧ u.card.dataReady = false) := by
    rw [hu.cmdWrite_eq hp, hu.card, hu.touches.walkEnabled]
    obtain h | h | h | h := hcond
    · exact .inl (by simp [State.walkEnabled, h])
    · exact .inl (by simp [State.walkEnabled, h])
    · exact .inl (by simp [State.walkEnabled, h])
    · exact .inr h
  have hwalk : Loaded s w u.dmaWalk := by
    obtain h | h := dmaWalk_of_idle hidle <;> rw [h]
    · exact hu
    · exact hu.cardDataReady
  rw [State.afterDispatch] at hexec
  generalize u.dmaWalk = v at *
  have hstop := frame_autoStopCheck v
  have hbits := keepsRawBits_autoStopCheck v
  rw [hwalk.touches.cfg] at hbits
  have hkept : keepsRawBits s v.autoStopCheck [s.cfg.pos.noResponse, s.cfg.pos.cmdComplete, s.cfg.pos.autocmdDone] :=
    keepsRawBits_trans (keepsRawBits_mono hwalk.rawBits (by simp)) hbits
  obtain ⟨hnodup, hlt⟩ := Positions.wf_risr hp
  simp only [List.nodup_cons, List.mem_cons, not_or] at hnodup
  obtain ⟨⟨-, hnd, -⟩, ⟨hcd, -⟩, ⟨hda, -⟩, -⟩ := hnodup
  refine ⟨_, hexec, by simp [hwalk.mem], ?_, by simp [hwalk.xfer], ?_, ?_, ?_⟩
  · exact (hstop.cells .bycr (by decide)).trans (hwalk.touches.cells .bycr (by decide))
  · exact (hstop.cells .idst (by decide)).trans (hwalk.touches.cells .idst (by decide))
  · exact hkept _ (hlt _ (by simp)) (by simp [Ne.symm hnd, Ne.symm hcd, hda])
  · exact (noBytes_autoStopCheck v).count.trans hwalk.bytes.count

/-- Settles O46: the counts are the loop's, the status that of the walk's end. -/
theorem walkCountsEveryByteOnce : Obligations.WalkCountsEveryByteOnce := by
  intro s w hwf hload he hr
  have hp := Cfg.wf_pos hwf
  obtain ⟨v, hv, hexec⟩ := exec_wrCmdr_walk hp hload he hr
  have hbycr : v.cell .bycr = s.cell .bycr := hv.touches.cells .bycr (by decide)
  generalize cmdWrite s.cfg.pos w = wr at *
  have hloop := frame_walkLoop v wr (s.cell .dlba) (s.cell .bycr).toNat
  have hcounts := walkLoop_counts v wr (s.cell .dlba) (s.cell .bycr).toNat
  rw [hv.touches.cfg, hbycr, hv.xfer, hv.bytes.count] at hcounts
  obtain ⟨M, hpos, hle, hcount, hxfer, hbytes⟩ :=
    hcounts (Cfg.wf_stage hwf) (bycr_ne_zero_of_walkEnabled he) (Nat.le_refl _)
  generalize v.walkLoop wr (s.cell .dlba) (s.cell .bycr).toNat = e at *
  have htouch : Touches s e (.bycr :: .cmdr :: dispatchCells) :=
    (hv.touches.mono (by decide)).trans (hloop.touches (by decide))
  have hend := walkEnded_finishWalk hp htouch hcount (by rw [hxfer, toNat_satSub]) hbytes wr
  have hbits := keepsRawBits_finishWalk e wr
  rw [htouch.cfg] at hbits
  have hbefore : keepsRawBits s e [s.cfg.pos.noResponse, s.cfg.pos.cmdComplete] :=
    keepsRawBits_trans hv.rawBits (keepsRawBits_of_eq (hloop.cells .risr (by decide)) _)
  exact ⟨_, M, hexec, hpos, hle, hend.bycr, hend.xfer, hend.count, hend.dataComplete, hend.autocmdDone,
    keepsRawBits_trans (keepsRawBits_mono hbefore (by simp)) hbits, hend.idst⟩

/-- Settles O47: neither write-back touches the other descriptor, and the second buffer is read after the first
write-back. -/
theorem twoDescriptorChainMovesTheRequest : Obligations.TwoDescriptorChainMovesTheRequest := by
  intro s w d₁ d₂ hwf hfits hm hload hw he h₁ h₂ hd hl hK hN N K m
  have hp := Cfg.wf_pos hwf
  have hchain : TwoDescriptorChain s (cmdWrite s.cfg.pos w) (s.cell .dlba) d₁ d₂ := ⟨h₁, h₂, hd, .inl hw, hl, hK, hN⟩
  obtain ⟨v, u, e, hexec, hv, hfirst, hsecond, hend⟩ := hchain.exec_wrCmdr hwf hm hload he (.inl hw)
  rw [hw] at hexec hfirst hsecond hend
  obtain ⟨hsent₁, -, hmem⟩ := hfirst.sent rfl
  obtain ⟨hsent₂, -, -⟩ := hsecond.sent rfl
  have hbuffer : bytesAt u (d₂.base s.cfg) (N - K) = bytesAt { s with mem := m } (d₂.base s.cfg) (N - K) := by
    rw [bytesAt, bytesAt, hfirst.cfg, hmem, hv.mem]
  refine ⟨_, hexec, hend.count, ?_, ?_, hend.xfer, ?_, ?_, hold_handedBack hp d₁, hold_handedBack hp d₂,
    fun q hq₁ hq₂ => ?_, hend.dataComplete, by simpa using hend.idst⟩
  · rw [(noBytes_finishWalk e true).sent, hsent₂, hsent₁, hv.bytes.sent, hbuffer, hv.bytesAt_eq,
      List.reverse_append, List.append_assoc]
  · exact BitVec.eq_of_toNat_eq (hend.bycr.trans (Nat.sub_self _))
  · rw [bytesAt_finishWalk, hsecond.bytesAt_eq hd (.inl rfl), hfirst.handedBack hfits]
  · rw [bytesAt_finishWalk, hsecond.handedBack hfits]
  · rw [mem_finishWalk, hsecond.unchanged q hq₂ (.inl rfl), hfirst.unchanged q hq₁ (.inl rfl), hv.mem]

/-- Settles O48: no step touches the bytes another has placed, so each buffer and each descriptor holds them at the
end. -/
theorem twoDescriptorChainReadsTheRequest : Obligations.TwoDescriptorChainReadsTheRequest := by
  intro s w d₁ d₂ hwf hfits hm hload hw he h₁ h₂ hd hl hK hN hready N K b₁ b₂ hspace hb₁ hb₁' hb₂ hb₂' hbb
  have hchain : TwoDescriptorChain s (cmdWrite s.cfg.pos w) (s.cell .dlba) d₁ d₂ :=
    ⟨h₁, h₂, hd, .inr (apart_symm hb₁'), hl, hK, hN⟩
  obtain ⟨v, u, e, hexec, hv, hfirst, hsecond, hend⟩ := hchain.exec_wrCmdr hwf hm hload he (.inr hready)
  rw [hw] at hexec hfirst hsecond hend
  obtain ⟨hgiven₁, hsent₁, hcard, hplaced₁⟩ := hfirst.given rfl
  obtain ⟨hgiven₂, hsent₂, -, hplaced₂⟩ := hsecond.given rfl
  rw [hv.card] at hgiven₁ hcard hplaced₁
  rw [hcard] at hgiven₂ hplaced₂
  have hbytes := noBytes_finishWalk e false
  have hgives : (cardAfterDispatch s w).gives N =
      (cardAfterDispatch s w).gives K ++ ((cardAfterDispatch s w).after K).gives (N - K) := by
    rw [← Card.gives_add, Nat.add_sub_of_le hK.le]
  refine ⟨_, hexec, hend.count, ?_, ?_, ?_, ?_, ?_, hend.xfer, ?_, ?_, fun q hq₁ hq₂ hq₃ hq₄ => ?_, hend.dataComplete,
    by simpa using hend.idst⟩
  · rw [hbytes.given, hgiven₂, hgiven₁, hv.bytes.given, hgives, List.reverse_append, List.append_assoc]
  · rw [hbytes.sent, hsent₂, hsent₁, hv.bytes.sent]
  · rw [bytesAt_finishWalk, hsecond.bytesAt_eq hb₁' (.inr hbb)]
    exact hplaced₁ (hK.le.trans hspace) (apart_symm hb₁)
  · rw [bytesAt_finishWalk]
    exact hplaced₂ ((Nat.sub_le _ _).trans hspace) (apart_symm hb₂')
  · exact BitVec.eq_of_toNat_eq (hend.bycr.trans (Nat.sub_self _))
  · rw [bytesAt_finishWalk, hsecond.bytesAt_eq hd (.inr (apart_symm hb₂)), hfirst.handedBack hfits]
  · rw [bytesAt_finishWalk, hsecond.handedBack hfits]
  · rw [mem_finishWalk, hsecond.unchanged q hq₂ (.inr hq₄), hfirst.unchanged q hq₁ (.inr hq₃), hv.mem]

end Sys2Proof.Claims
end

section
/-! SUPPORT. The interrupt line as the sink sees it: an operation leaves both the level and the sink alone, or drives the
line after its last write of a cell the level reads (43_interrupt_coalescer.md R280, R281). -/

namespace Sys2Proof.Machine

variable {s t : State}

/-- The level the sink was last given is the level the state asks for. -/
def State.LineSeen (s : State) : Prop := sinkLevel s.trace = s.irqLevel

/-- From `s` to `t` neither the level the state asks for nor the one the sink was last given changed. -/
structure LineKept (s t : State) : Prop where
  level : t.irqLevel = s.irqLevel
  sink : sinkLevel t.trace = sinkLevel s.trace

theorem LineKept.lineSeen (h : LineKept s t) (hs : s.LineSeen) : t.LineSeen :=
  h.sink.trans (hs.trans h.level.symm)

/-- `IrqUpdate()` gives the sink the level of the state (43_interrupt_coalescer.md R281). -/
theorem lineSeen_irqUpdate (s : State) : s.irqUpdate.LineSeen := rfl

theorem lineKept_busReturn (s : State) (n : Nat) (v : Word) : LineKept s (s.busReturn n v) := ⟨rfl, rfl⟩

/-- A write of `DMAC` or `IDIE` keeps the line, or drives it where the configuration says so (log entry 17). -/
theorem Stored.line_dmaControlLine {r : Reg} {v x : Word} {c : Cell} (h : Stored s t r v c x)
    (hc : c ∉ [Cell.gctl, .risr, .imkr]) (htrace : t.trace = s.trace) :
    LineKept s t.dmaControlLine ∨ t.dmaControlLine.LineSeen := by
  unfold State.dmaControlLine
  split
  · exact .inr (lineSeen_irqUpdate t)
  · exact .inl ⟨h.irqLevel hc, congrArg sinkLevel htrace⟩

theorem lineSeen_exec_of_loadedWord {i : Instr} {w : Word} (hl : loadedWord s.cfg.pos i = some w)
    (he : exec i s = .next t) : t.LineSeen := by
  obtain ⟨u, -, hnext⟩ := exec_of_loadedWord hl
  cases he.symm.trans hnext
  exact lineSeen_irqUpdate _

/-- What every operation does with the line: nothing, or it ends with the sink given the level of the state it leaves. -/
theorem line_exec {i : Instr} (he : exec i s = .next t) : LineKept s t ∨ t.LineSeen := by
  cases i with
  | wrGctl v | wrImkr v | wrMisr v | wrRisr v | wrIdst v | cmdStore v | wrFifo v | evInsert | evRemove | evReset
  | evRestore snap =>
    cases he
    exact .inr (lineSeen_irqUpdate _)
  | wrDmac v =>
    cases he
    exact (stored_setCell s .dmac v .dmac v).line_dmaControlLine (by decide) (by simp)
  | wrIdie v =>
    cases he
    exact (stored_setCell s .idie v .idie v).line_dmaControlLine (by decide) (by simp)
  | wrCmdr w =>
    cases hl : loadBit s.cfg.pos w with
    | true => exact .inr (lineSeen_exec_of_loadedWord (loadedWord_wrCmdr hl) he)
    | false =>
      cases (execWrCmdr_store hl).symm.trans he
      exact .inr (lineSeen_irqUpdate _)
  | cmdClkchg w | cmdNoresp w | cmdShort w | cmdLong w => exact .inr (lineSeen_exec_of_loadedWord rfl he)
  | rdFifo =>
    cases he
    split
    · exact .inr ((lineKept_busReturn _ _ _).lineSeen (lineSeen_irqUpdate _))
    · exact .inl ⟨rfl, rfl⟩
  | descLast dptr d | descLink dptr d =>
    cases he
    split
    · exact .inr (lineSeen_irqUpdate _)
    · exact .inl ⟨rfl, rfl⟩
  | _ =>
    cases he
    exact .inl ⟨by simp [State.irqLevel], by simp [sinkLevel]⟩

end Sys2Proof.Machine
end

section
/-! SUPPORT. Raw status bits that stay set (43_interrupt_coalescer.md R282, 41_command_engine.md R229): the engines and the
FIFO port only set bits of `RISR`. -/

namespace Sys2Proof.Machine

variable {s t u : State} {k : Nat}

/-- From `s` to `t` raw status bit `k` is not cleared. -/
def RawStays (k : Nat) (s t : State) : Prop :=
  (s.cell .risr).getLsbD k = true → (t.cell .risr).getLsbD k = true

theorem RawStays.trans (h : RawStays k s t) (h' : RawStays k t u) : RawStays k s u := fun hs => h' (h hs)

theorem rawStays_of_eq (h : t.cell .risr = s.cell .risr) : RawStays k s t := fun hs => h ▸ hs

theorem rawStays_setBit {n : Nat} (h : t.cell .risr = setBit (s.cell .risr) n) : RawStays k s t :=
  fun hs => h ▸ getLsbD_setBit_of_true hs n

theorem Touches.rawStays {but : List Cell} (h : Touches s t but) (hr : Cell.risr ∉ but) : RawStays k s t :=
  rawStays_of_eq (h.cells .risr hr)

theorem Frame.rawStays {but : List Cell} (h : Frame s t but) (hr : Cell.risr ∉ but) : RawStays k s t :=
  rawStays_of_eq (h.cells .risr hr)

theorem rawStays_setRisr (s : State) (n : Nat) : RawStays k s (s.setRisr n) :=
  rawStays_setBit (n := n) (by simp)

/-! ### The engines and the FIFO port -/

/-- A dispatch clears nothing, whatever the card answers (41_command_engine.md R229). -/
theorem Settled.rawStays (h : Settled s t) : RawStays k s t := by
  induction h with
  | settle s r =>
    cases r with
    | failed | done => exact rawStays_setRisr s _
    | captured w0 w1 w2 w3 => exact rawStays_setBit (n := s.cfg.pos.cmdComplete) (by simp [State.settle])
  | issue id arg _ ih => exact ih

theorem rawStays_walkComplete (s : State) (wr : Bool) : RawStays k s (s.walkComplete wr) :=
  ((rawStays_setRisr s s.cfg.pos.dataComplete).trans (rawStays_setRisr _ s.cfg.pos.autocmdDone)).trans
    (rawStays_of_eq (by simp [risr_walkComplete]))

theorem rawStays_walk (s : State) (wr : Bool) : RawStays k s (s.walk wr) :=
  ((frame_walkLoop s wr _ _).rawStays (by decide)).trans (rawStays_walkComplete _ wr)

theorem rawStays_dmaWalk (s : State) : RawStays k s s.dmaWalk := by
  obtain ⟨_, e⟩ | ⟨_, _, e⟩ | ⟨_, _, _, e⟩ | ⟨_, _, _, e⟩ := dmaWalk_cases s <;> rw [e]
  · exact rawStays_of_eq rfl
  · exact rawStays_walk s true
  · exact rawStays_walk s.cardDataReady.2 false
  · exact rawStays_of_eq rfl

theorem rawStays_autoStopCheck (s : State) : RawStays k s s.autoStopCheck := getLsbD_autoStopCheck_of_true

theorem rawStays_afterDispatch (s : State) : RawStays k s s.afterDispatch :=
  (rawStays_dmaWalk s).trans (rawStays_autoStopCheck s.dmaWalk)

theorem rawStays_finishWalk (s : State) (wr : Bool) : RawStays k s (s.finishWalk wr) :=
  (rawStays_walkComplete s wr).trans (rawStays_autoStopCheck _)

theorem rawStays_processDesc (s : State) (wr : Bool) (dptr : Word) (d : Desc) : RawStays k s (s.processDesc wr dptr d) :=
  (frame_processDesc s wr dptr d).rawStays (by decide)

theorem rawStays_xferUpdate (s : State) (n : Nat) : RawStays k s (s.xferUpdate n) := by
  intro hs
  rw [risr_xferUpdate]
  split
  · exact getLsbD_setBit_of_true hs _
  · exact hs

/-! ### The operations -/

theorem rawStays_exec_of_loadedWord {i : Instr} {w : Word} (hl : loadedWord s.cfg.pos i = some w)
    (he : exec i s = .next t) : RawStays k s t := by
  obtain ⟨u, hu, hnext⟩ := exec_loadedWord_settled hl
  cases he.symm.trans hnext
  have hlatch : RawStays k s (s.latch w) := rawStays_of_eq (by simp [cell_latch])
  exact (hlatch.trans hu.rawStays).trans (rawStays_afterDispatch u)

/-- A FIFO access that moves bytes (45_fifo_port.md R313). -/
theorem rawStays_exec_fifo {i : Instr} {v : Word} (hi : i = .wrFifo v ∨ (i = .rdFifo ∧ s.card.dataReady = true))
    (he : exec i s = .next t) : RawStays k s t := by
  obtain ⟨q, t', hnext, hq, ht⟩ := exec_fifo hi
  cases he.symm.trans hnext
  have hpassed : RawStays k s q := rawStays_of_eq (hq.cell .risr)
  exact ((hpassed.trans (rawStays_xferUpdate q _)).trans (rawStays_autoStopCheck _)).trans
    (rawStays_of_eq (ht.cell .risr))

/-- An acknowledge clears the bits written 1 and no other (43_interrupt_coalescer.md R282). -/
theorem rawStays_acknowledge (s : State) (hk : k < 32) {v : Word} (hv : v.getLsbD k = false) :
    RawStays k s (s.acknowledge v) := by
  intro hs
  simpa [hk, hs] using hv

/-- Setting one flag and clearing another leaves every bit but the latter. -/
theorem rawStays_toggle {a b : Nat} (h : t.cell .risr = clearBit (setBit (s.cell .risr) a) b) (hb : k ≠ b) :
    RawStays k s t := by
  intro hs
  rw [h, getLsbD_clearBit_ne _ _ _ hb.symm]
  exact getLsbD_setBit_of_true hs a

/-- An insertion clears `CARD_REMOVE` alone (44_card_presence.md R300). -/
theorem rawStays_cardInserted (s : State) (hk : k ≠ s.cfg.pos.cardRemove) : RawStays k s s.cardInserted :=
  rawStays_toggle (a := s.cfg.pos.cardInsert) (by simp [State.cardInserted]) hk

/-- A removal clears `CARD_INSERT` alone (44_card_presence.md R301). -/
theorem rawStays_cardRemoved (s : State) (hk : k ≠ s.cfg.pos.cardInsert) : RawStays k s s.cardRemoved :=
  rawStays_toggle (a := s.cfg.pos.cardRemove) (by simp [State.cardRemoved]) hk

/-- No operation clears a raw status bit but those that may. -/
theorem rawStays_exec {i : Instr} (hk : k < 32) (hc : Claims.mayClearRaw s.cfg.pos k i = false)
    (he : exec i s = .next t) : RawStays k s t := by
  cases i with
  | wrMisr v | wrRisr v =>
    cases he
    exact (rawStays_of_eq (by simp)).trans (rawStays_acknowledge (s.noteWrite _ v) hk hc)
  | evInsert =>
    cases he
    exact (rawStays_cardInserted s (ne_of_beq_false hc)).trans (rawStays_of_eq rfl)
  | evRemove =>
    cases he
    exact (rawStays_cardRemoved s (ne_of_beq_false hc)).trans (rawStays_of_eq rfl)
  | evReset | evRestore snap => cases hc
  | wrCmdr w =>
    cases hl : loadBit s.cfg.pos w with
    | true => exact rawStays_exec_of_loadedWord (loadedWord_wrCmdr hl) he
    | false =>
      cases (execWrCmdr_store hl).symm.trans he
      exact rawStays_of_eq (by simp)
  | cmdClkchg w | cmdNoresp w | cmdShort w | cmdLong w => exact rawStays_exec_of_loadedWord rfl he
  | wrFifo v => exact rawStays_exec_fifo (.inl rfl) he
  | rdFifo =>
    cases hready : s.card.dataReady with
    | true => exact rawStays_exec_fifo (v := 0) (.inr ⟨rfl, hready⟩) he
    | false =>
      cases he
      exact rawStays_of_eq (by simp [hready])
  | descLast dptr d =>
    cases he
    split
    · exact (rawStays_processDesc s _ dptr d).trans (rawStays_finishWalk _ _)
    · exact rawStays_of_eq rfl
  | descLink dptr d =>
    cases he
    generalize cmdWrite s.cfg.pos (s.cell .cmdr) = wr
    split
    · refine ((rawStays_processDesc s wr dptr d).trans ?_).trans (rawStays_finishWalk _ _)
      split
      · exact rawStays_of_eq rfl
      · exact (frame_walkLoop _ _ _ _).rawStays (by decide)
    · exact rawStays_of_eq rfl
  | _ => exact (touches_exec he).rawStays (by simp [Claims.mayWrite])

end Sys2Proof.Machine
end

section
/-! SUPPORT. The obligations of 43_interrupt_coalescer.md that are settled here. -/

namespace Sys2Proof.Claims

open Sys2Proof.Machine

/-- Settles O54: the operation a step runs keeps the line and the sink, or ends by giving the sink the line's level. -/
theorem lineSeenBySinkFollowsTheState : Obligations.LineSeenBySinkFollowsTheState := by
  intro s t hseen hs
  obtain rfl | ⟨i, rest, he⟩ := step_eq_next hs
  · exact hseen
  · obtain hkept | ht := line_exec he
    · exact hkept.lineSeen hseen
    · exact ht

/-- Settles O37: a bit that an operation turned from 1 to 0 did not stay, so the operation is one that may clear it. -/
theorem rawStatusIsSticky : Obligations.RawStatusIsSticky := by
  intro i s t k hk he hset hclear
  by_contra hc
  have hstays : RawStays k s t := rawStays_exec hk (by simpa using hc) he
  simp [hstays hset] at hclear

end Sys2Proof.Claims
end

section
/-! SUPPORT. Card presence: the two notifications bit by bit (44_card_presence.md R300, R301), and which operations can
change Card-Present (R302, 10_state.md R37). -/

namespace Sys2Proof

theorem getLsbD_setBit_ite (v : Word) (n : Nat) {k : Nat} (hk : k < 32) :
    (setBit v n).getLsbD k = if k = n then true else v.getLsbD k := by
  rw [getLsbD_setBit _ _ _ hk]
  by_cases h : k = n
  · simp [h]
  · simp [h, Ne.symm h]

theorem getLsbD_clearBit_ite (v : Word) (n : Nat) {k : Nat} (hk : k < 32) :
    (clearBit v n).getLsbD k = if k = n then false else v.getLsbD k := by
  rw [getLsbD_clearBit _ _ _ hk]
  by_cases h : k = n
  · simp [h]
  · simp [h, Ne.symm h]

/-- One bit set and another cleared: the order of the two does not show. -/
theorem getLsbD_toggle_ite (v : Word) {on off k : Nat} (hne : on ≠ off) (hk : k < 32) :
    (clearBit (setBit v on) off).getLsbD k = if k = on then true else if k = off then false else v.getLsbD k := by
  rw [getLsbD_clearBit_ite _ _ hk, getLsbD_setBit_ite _ _ hk]
  by_cases hoff : k = off
  · simp [hoff, hne.symm]
  · simp [hoff]

theorem Positions.wf_cardInsert_ne_cardRemove {p : Positions} (h : p.wf = true) : p.cardInsert ≠ p.cardRemove := by
  have hsub : [p.cardInsert, p.cardRemove].Sublist
      [p.noResponse, p.cmdComplete, p.dataComplete, p.autocmdDone, p.sdioIntr, p.cardInsert, p.cardRemove] :=
    List.sublist_append_right [_, _, _, _, _] _
  simpa using (Positions.wf_risr h).1.sublist hsub

end Sys2Proof

namespace Sys2Proof.Machine

variable {s t : State}

/-! ### The notifications -/

/-- From `s` to `t` a notification has set the flag `on` of `RISR`, cleared the flag `off`, and given Card-Present the
value `present`; it changed nothing else but the line (44_card_presence.md R300, R301). -/
structure Notified (s t : State) (on off : Nat) (present : Bool) : Prop where
  risr : ∀ k, k < 32 → (t.cell .risr).getLsbD k =
    if k = on then true else if k = off then false else (s.cell .risr).getLsbD k
  star : ∀ k, k < 32 → (t.cell .star).getLsbD k =
    if k = s.cfg.pos.cardPresent then present else (s.cell .star).getLsbD k
  keeps : s.keepsCells t [.risr, .star]
  xfer : t.xfer = s.xfer
  outside : s.sameOutside t
  log : t.log = s.log
  trace : t.trace = .irqSet t.irqLevel :: s.trace

/-- A store of the toggled flags in `RISR` and of a word in `STAR` that differs in Card-Present alone, then the line. -/
theorem notified_setCells (s : State) {on off : Nat} (hne : on ≠ off) {v : Word} {present : Bool}
    (hv : ∀ k, k < 32 → v.getLsbD k = if k = s.cfg.pos.cardPresent then present else (s.cell .star).getLsbD k) :
    Notified s ((s.setCell .risr (clearBit (setBit (s.cell .risr) on) off)).setCell .star v).irqUpdate on off present where
  risr _ hk := getLsbD_toggle_ite _ hne hk
  star := hv
  keeps := by simp +contextual [State.keepsCells]
  xfer := rfl
  outside := ⟨rfl, rfl, rfl, rfl⟩
  log := rfl
  trace := rfl

theorem notified_cardInserted (hc : s.cfg.wf = true) :
    Notified s s.cardInserted.irqUpdate s.cfg.pos.cardInsert s.cfg.pos.cardRemove true :=
  notified_setCells s (Positions.wf_cardInsert_ne_cardRemove (Cfg.wf_pos hc)) fun _ => getLsbD_setBit_ite _ _

theorem notified_cardRemoved (hc : s.cfg.wf = true) :
    Notified s s.cardRemoved.irqUpdate s.cfg.pos.cardRemove s.cfg.pos.cardInsert false :=
  notified_setCells s (Positions.wf_cardInsert_ne_cardRemove (Cfg.wf_pos hc)).symm fun _ => getLsbD_clearBit_ite _ _

/-! ### Who can change Card-Present -/

/-- `STAR` after reset: the table's entry in every bit but Card-Present, which is kept (70_reset_and_hazards.md R381). -/
theorem getLsbD_star_resetRegs (c : Cfg) (x : Regs) (k : Nat) : (resetRegs c x).star.getLsbD k =
    if k = c.pos.cardPresent then x.star.getLsbD k else c.rst.star.getLsbD k := by
  by_cases hk : k < 32
  · rw [resetRegs, BitVec.getLsbD_or, getLsbD_clearBit_ite _ _ hk]
    by_cases h : k = c.pos.cardPresent
    · subst h; simp [hk]
    · simp [hk, h, Ne.symm h]
  · simp [BitVec.getLsbD_of_ge _ k (not_lt.1 hk)]

/-- The frame of every operation but the two notifications, reset and restore leaves `STAR` out. -/
theorem star_mem_mayWrite {i : Instr} (h : Cell.star ∈ Claims.mayWrite i) :
    i = .evInsert ∨ i = .evRemove ∨ i = .evReset ∨ ∃ snap, i = .evRestore snap := by
  cases i with
  | evInsert => exact .inl rfl
  | evRemove => exact .inr (.inl rfl)
  | evReset => exact .inr (.inr (.inl rfl))
  | evRestore snap => exact .inr (.inr (.inr ⟨snap, rfl⟩))
  | _ => simp [Claims.mayWrite] at h

theorem cardPresent_evReset (he : exec .evReset s = .next t) :
    (t.cell .star).getLsbD s.cfg.pos.cardPresent = (s.cell .star).getLsbD s.cfg.pos.cardPresent := by
  cases he
  exact (getLsbD_star_resetRegs s.cfg s.x _).trans (if_pos rfl)

end Sys2Proof.Machine
end

section
/-! SUPPORT. The obligations of 44_card_presence.md that are settled here. -/

namespace Sys2Proof.Claims

open Sys2Proof.Machine

/-- Settles O21: each notification is two stores and the line, and no flag is set and cleared at once, since the positions
of `CARD_INSERT` and `CARD_REMOVE` differ. -/
theorem cardNotificationsSetPresenceAndStatus : Obligations.CardNotificationsSetPresenceAndStatus := by
  intro s hc
  have hi := notified_cardInserted hc
  have hr := notified_cardRemoved hc
  exact ⟨⟨_, rfl, hi.risr, hi.star, hi.keeps, hi.xfer, hi.outside, hi.log, hi.trace⟩,
    ⟨_, rfl, hr.risr, hr.star, hr.keeps, hr.xfer, hr.outside, hr.log, hr.trace⟩⟩

/-- Settles O38: by its frame an operation that writes `STAR` is one of the three or a reset, and a reset keeps
Card-Present. -/
theorem cardPresentFollowsNotificationsOnly : Obligations.CardPresentFollowsNotificationsOnly := by
  intro i s t he hne
  have hstar : Cell.star ∈ mayWrite i := by
    by_contra hout
    exact hne (by rw [(touches_exec he).cells .star hout])
  obtain hi | hi | rfl | hi := star_mem_mayWrite hstar
  · exact .inl hi
  · exact .inr (.inl hi)
  · exact absurd (cardPresent_evReset he) hne
  · exact .inr (.inr hi)

end Sys2Proof.Claims
end

section
/-! SUPPORT. The FIFO port on the card and as a word (45_fifo_port.md R311 to R313, 30_encoding.md R109): the bytes of
an access, and what the count of them, the auto-stop check and the line leave. -/

namespace Sys2Proof

/-- Bytes in stream order form their number, cut to a word (30_encoding.md R109). -/
theorem toNat_streamWord (b : List Byte) : (streamWord b).toNat = Claims.leNat b % 2 ^ 32 := by
  induction b with
  | nil => rfl
  | cons x rest ih => rw [toNat_streamWord_cons, Claims.leNat, ih, Nat.add_mod, Nat.mul_mod_mod, ← Nat.add_mod]

/-- Four bytes fill a word: nothing of their number is cut. -/
theorem leNat_mod_of_length_four {b : List Byte} (h : b.length = 4) : Claims.leNat b % 2 ^ 32 =
    (b.getD 0 0).toNat + (b.getD 1 0).toNat * 2 ^ 8 + (b.getD 2 0).toNat * 2 ^ 16 + (b.getD 3 0).toNat * 2 ^ 24 := by
  obtain ⟨b0, b1, b2, b3, rfl⟩ := List.length_eq_four.1 h
  have h0 := b0.isLt
  have h1 := b1.isLt
  have h2 := b2.isLt
  have h3 := b3.isLt
  simp only [Claims.leNat, List.getD_cons_zero, List.getD_cons_succ]
  omega

end Sys2Proof

namespace Sys2Proof.Machine

variable {s q : State}

theorem card_sendBytes (s : State) (b : List Byte) : (s.sendBytes b).card = b.foldl Card.writeByte s.card := by
  induction b generalizing s with
  | nil => rfl
  | cons x rest ih => exact ih _

/-- `WR FIFO` sends the bytes of its word by their bit positions, then counts them (45_fifo_port.md R311, R109). -/
theorem exec_wrFifo (v : Word) (s : State) : exec (.wrFifo v) s = .next ((s.noteWrite .fifo v).sendBytes
    ((List.range s.cfg.fifoBytes).map (fun k => v.extractLsb' (8 * k) 8))).afterFifo := by
  rw [← streamBytes_eq]
  rfl

/-- `RD FIFO` with data ready takes the card's next bytes, counts them and returns their word (R312). -/
theorem exec_rdFifo_of_dataReady (h : s.card.dataReady = true) : exec .rdFifo s =
    .next ((s.cardDataReady.2.takeBytes s.cfg.fifoBytes).2.afterFifo.busReturn accessBytes
      (streamWord (s.card.gives s.cfg.fifoBytes))) := by
  have hgives : (s.cardDataReady.2.takeBytes s.cfg.fifoBytes).1 = s.card.gives s.cfg.fifoBytes := takeBytes_fst _ _
  rw [← hgives]
  exact congrArg Host.Outcome.next (if_pos h)

/-- Where no stop command is due the auto-stop check does nothing (41_command_engine.md R230). -/
theorem autoStopCheck_of_not_due (h : autostop s.cfg.pos (s.cell .cmdr) = false ∨ s.xfer ≠ 0) :
    s.autoStopCheck = s := by
  obtain ⟨-, hself⟩ | ⟨ha, hx, -⟩ := autoStopCheck_cases s
  · exact hself
  · simp [ha, hx] at h

theorem noBytes_afterFifo (s : State) : NoBytes s s.afterFifo :=
  ((noBytes_of_trace (trace_xferUpdate s _)).trans (noBytes_autoStopCheck _)).trans (noBytes_irqUpdate _)

/-- A FIFO access from `s` whose bytes had passed at `q` has counted them at `t` and made its auto-stop check
(45_fifo_port.md R313). -/
structure Counted (s q t : State) : Prop where
  bytes : NoBytes q t
  xfer : t.xfer.toNat = s.xfer.toNat - s.cfg.fifoBytes
  mem : t.mem = q.mem
  log : t.log = q.log
  touches : Touches s t [.risr, .resp0, .resp1, .resp2, .resp3]
  level : ∃ es, t.trace = .irqSet t.irqLevel :: es
  unstopped : autostop s.cfg.pos (s.cell .cmdr) = false ∨ t.xfer ≠ 0 →
    s.keepsCells t [.risr] ∧
    t.cell .risr = (if t.xfer = 0 then setBit (s.cell .risr) s.cfg.pos.dataComplete else s.cell .risr) ∧
    t.card = q.card ∧ t.trace = .irqSet t.irqLevel :: q.trace

/-- With no auto-stop due only the count and the line follow the movement of the bytes. -/
theorem afterFifo_of_not_due (h : BytesOnly s q)
    (hdue : autostop s.cfg.pos (s.cell .cmdr) = false ∨ q.afterFifo.xfer ≠ 0) :
    q.afterFifo = (q.xferUpdate q.cfg.fifoBytes).irqUpdate := by
  have hframe := frame_xferUpdate q q.cfg.fifoBytes
  have hcmdr : (q.xferUpdate q.cfg.fifoBytes).cell .cmdr = s.cell .cmdr :=
    (hframe.cells .cmdr (by decide)).trans (h.cell .cmdr)
  have hxfer : (q.xferUpdate q.cfg.fifoBytes).xfer = q.afterFifo.xfer := by simp
  rw [State.afterFifo, autoStopCheck_of_not_due]
  rwa [hcmdr, hxfer, hframe.cfg, h.touches.cfg]

theorem counted_afterFifo (h : BytesOnly s q) : Counted s q q.afterFifo where
  bytes := noBytes_afterFifo q
  xfer := by rw [xfer_afterFifo, toNat_satSub, h.xfer, h.touches.cfg]
  mem := mem_afterFifo q
  log := (frame_afterFifo q).log
  touches := (h.touches.mono (List.nil_subset _)).trans ((frame_afterFifo q).touches (by decide))
  level := ⟨_, rfl⟩
  unstopped hdue := by
    rw [afterFifo_of_not_due h hdue]
    refine ⟨fun c hc => ?_, ?_, by simp, by simp⟩
    · exact ((frame_xferUpdate q _).cells c hc).trans (h.cell c)
    · simp [risr_xferUpdate, h.cell, h.touches.cfg]

end Sys2Proof.Machine
end

section
/-! SUPPORT. The obligations of 45_fifo_port.md that are settled here. -/

namespace Sys2Proof.Claims

open Sys2Proof.Machine

/-- Settles O49: the bytes pass before they are counted, and the count passes none. -/
theorem fifoWriteSendsFourBytesInOrder : Obligations.FifoWriteSendsFourBytesInOrder := by
  intro s v sent
  let q := (s.noteWrite .fifo v).sendBytes sent
  have hq : BytesOnly s q := (bytesOnly_noteWrite s .fifo v).trans (bytesOnly_sendBytes _ _)
  have hcard : q.card = sent.foldl Card.writeByte s.card := by simp [q, card_sendBytes]
  have htrace : q.trace = (sent.map ExtEvent.cardWrite).reverse ++ s.trace := by simp [q, trace_sendBytes]
  have hgiven : cardReads q.trace = cardReads s.trace := by simp [q, cardReads_sendBytes]
  have hmem : q.mem = s.mem := by simp [q]
  have hlog : q.log = s.logAfterWrite .fifo v := by simp [q, (frame_sendBytes _ _).log]
  have hcount := counted_afterFifo hq
  have hwrites : cardWrites q.afterFifo.trace = sent.reverse ++ cardWrites s.trace :=
    hcount.bytes.sent.trans (by simp [q, cardWrites_sendBytes])
  refine ⟨q.afterFifo, exec_wrFifo v s, hwrites, hcount.bytes.given.trans hgiven, fun h4 => ?_, hcount.xfer,
    hcount.mem.trans hmem, hcount.touches.cfg, hcount.touches.inbox, hcount.log.trans hlog, hcount.touches.cells,
    fun hdue => ?_⟩
  · rw [hwrites]
    simp [sent, h4, List.range_succ]
  · obtain ⟨hcells, hrisr, hcard', htrace'⟩ := hcount.unstopped hdue
    exact ⟨hcells, hrisr, hcard'.trans hcard, htrace'.trans (congrArg _ htrace)⟩

/-- Settles O50: the bytes pass before they are counted, and the word is what the card gave then. -/
theorem fifoReadReturnsFourBytesLittleEndian : Obligations.FifoReadReturnsFourBytesLittleEndian := by
  intro s hready b
  let q := (s.cardDataReady.2.takeBytes s.cfg.fifoBytes).2
  have hq : BytesOnly s q := (bytesOnly_cardDataReady s).trans (bytesOnly_takeBytes _ _)
  have hcard : q.card = s.card.after s.cfg.fifoBytes := card_takeBytes _ _
  have hgiven : cardReads q.trace = b.reverse ++ cardReads s.trace := cardReads_takeBytes _ _
  have hsent : cardWrites q.trace = cardWrites s.trace := cardWrites_takeBytes _ _
  have hmem : q.mem = s.mem := mem_takeBytes _ _
  have hlog : q.log = s.log := (frame_takeBytes _ _).log
  have hcount := counted_afterFifo hq
  have hword := toNat_streamWord b
  obtain ⟨es, hlevel⟩ := hcount.level
  refine ⟨q.afterFifo.busReturn accessBytes (streamWord b), streamWord b, exec_rdFifo_of_dataReady hready, hword,
    fun h4 => hword.trans (leNat_mod_of_length_four ?_), ⟨es, congrArg _ hlevel⟩, hcount.bytes.given.trans hgiven,
    hcount.bytes.sent.trans hsent, hcount.xfer, hcount.mem.trans hmem, hcount.touches.cfg, hcount.touches.inbox,
    hcount.log.trans hlog, hcount.touches.cells, fun hdue => ?_⟩
  · simp [b, h4]
  · obtain ⟨hcells, hrisr, hcard', -⟩ := hcount.unstopped hdue
    exact ⟨hcells, hrisr, hcard'.trans hcard⟩

/-- Settles O51: the branch of the row that takes no byte. -/
theorem fifoReadWithoutDataReadsZero : Obligations.FifoReadWithoutDataReadsZero := by
  intro s hready
  have hbranch : ¬s.cardDataReady.1 = true := by simp [hready]
  exact congrArg Host.Outcome.next (if_neg hbranch)

end Sys2Proof.Claims
end

section
/-! SUPPORT. What the log does to an operation (60_exceptions.md R340): run from any log, it does what it does from the empty
log, and what it logs from the empty log stands after the entries that were there. -/

namespace Sys2Proof.Machine

variable (s : State) (l : List Diag) (u : List Reg)

/-- The entries a legal write of `v` to `r` adds to the log where `UNIMP_SET` is `u` (60_exceptions.md R344). -/
def entriesOfWrite (u : List Reg) (r : Reg) (v : Word) : List Diag :=
  if u.contains r then [.unimplemented r v] else []

@[simp] theorem logAfterWrite_relabel (r : Reg) (v : Word) :
    (s.relabel l u).logAfterWrite r v = l ++ entriesOfWrite u r v := by
  have hadded : (s.relabel l u).logAfterWrite r v = if u.contains r then l ++ [.unimplemented r v] else l := rfl
  rw [hadded, entriesOfWrite]
  split <;> simp

@[simp] theorem offsets_relabel : (s.relabel l u).cfg.offsets = s.cfg.offsets := rfl

@[simp] theorem raise_relabel (d : Diag) : (s.relabel l u).raise d = s.relabel (l ++ [d]) u := rfl

@[simp] theorem latch_relabel (w : Word) :
    (s.relabel l u).latch w = (s.latch w).relabel (l ++ entriesOfWrite u .cmdr w) u := by
  simp only [State.latch, noteWrite_relabel, logAfterWrite_relabel, noteWrite_eq s]
  rfl

@[simp] theorem capture_relabel (w0 w1 w2 w3 : Word) :
    (s.relabel l u).capture w0 w1 w2 w3 = (s.capture w0 w1 w2 w3).relabel l u := rfl

@[simp] theorem ite_relabel (c : Prop) [Decidable c] (t : State) :
    (if c then s.relabel l u else t.relabel l u) = (if c then s else t).relabel l u :=
  (apply_ite (State.relabel · l u) c s t).symm

/-- Every operation runs from any log as from the empty one, and leaves that run's entries after those it found: each of
its procedures commutes with another log, and what it logs does not depend on the log. -/
theorem exec_relabel_log {i : Instr} {s q : State} {u : List Reg} (h : exec i (s.relabel [] u) = .next q)
    (l : List Diag) : exec i (s.relabel l u) = .next (q.relabel (l ++ q.log) u) := by
  cases i with
  | cmdNoresp w | cmdShort w | cmdLong w =>
    cases h
    refine congrArg Host.Outcome.next ?_
    simp only [latch_relabel, cardIssue_relabel, pos_relabel, cell_relabel]
    split <;> simp
  | rdFifo =>
    cases h
    cases hready : s.card.dataReady <;> exact congrArg Host.Outcome.next (by simp [hready])
  | evInsert | evRemove | evReset | evSave | evRestore snap =>
    have hlog : q.log = [] := by cases h; rfl
    rw [hlog, List.append_nil]
    cases h
    rfl
  | _ =>
    cases h
    exact congrArg Host.Outcome.next (by simp)

end Sys2Proof.Machine
end

section
/-! SUPPORT. The obligation of 60_exceptions.md about the log. -/

namespace Sys2Proof.Claims

open Sys2Proof.Machine

/-- Settles O59: what the run from the empty log does and logs is what every run does and adds. -/
theorem noOperationReadsTheLog : Obligations.NoOperationReadsTheLog := by
  intro i s l
  obtain ⟨q, hq⟩ := exec_total i (s.relabel [] s.cfg.unimpSet)
  exact ⟨q.relabel (s.log ++ q.log) s.cfg.unimpSet, q.log, exec_relabel_log hq s.log, rfl, exec_relabel_log hq l⟩

end Sys2Proof.Claims
end

section
/-! SUPPORT. Reset, power-on and restore (70_reset_and_hazards.md R380, R381, R383, R390): each is a register file and a
counter put in place of the old ones, and what a reset puts there depends on Card-Present alone. -/

namespace Sys2Proof.Machine

variable {s t : State}

/-! ### Installing a register file and a counter -/

/-- From `s` to `t` the register file `x` and the counter `v` have been installed and the line driven; nothing else has
changed (R380, R386, R390). -/
structure Installed (s t : State) (x : Regs) (v : Word) : Prop where
  regs : t.x = x
  xfer : t.xfer = v
  outside : s.sameOutside t
  log : t.log = s.log
  trace : t.trace = .irqSet t.irqLevel :: s.trace

theorem installed_irqUpdate (s : State) (x : Regs) (v : Word) :
    Installed s ({ s with x := x, xfer := v } : State).irqUpdate x v :=
  ⟨rfl, rfl, ⟨rfl, rfl, rfl, rfl⟩, rfl, rfl⟩

theorem exec_evReset_installed (s : State) :
    ∃ t, exec .evReset s = .next t ∧ Installed s t (resetRegs s.cfg s.x) 0 :=
  ⟨_, rfl, installed_irqUpdate s _ _⟩

theorem exec_evRestore_installed (snap : Snapshot) (s : State) :
    ∃ t, exec (.evRestore snap) s = .next t ∧ Installed s t snap.x snap.xfer :=
  ⟨_, rfl, installed_irqUpdate s _ _⟩

theorem Installed.cell {x : Regs} {v : Word} (h : Installed s t x v) (c : Cell) : t.cell c = x.get c :=
  congrArg (Regs.get · c) h.regs

theorem irqLevel_eq_of_regs (hcfg : t.cfg = s.cfg) (hx : t.x = s.x) : t.irqLevel = s.irqLevel :=
  State.irqLevel_congr s t hcfg (congrArg (Regs.get · .gctl) hx) (congrArg (Regs.get · .risr) hx)
    (congrArg (Regs.get · .imkr) hx)

/-- Installing what a state already holds only repeats its level. -/
theorem Installed.eq_of_own (h : Installed s t s.x s.xfer) : t = { s with trace := .irqSet s.irqLevel :: s.trace } := by
  obtain ⟨hcfg, hcard, hmem, hinbox⟩ := h.outside
  have htrace := h.trace
  rw [irqLevel_eq_of_regs hcfg h.regs] at htrace
  exact State.ext_fields _ _ hcfg h.cell h.xfer h.log hcard hmem htrace hinbox

/-- No raw status, no interrupt: the level is low whatever the masks are (43_interrupt_coalescer.md R280). -/
theorem irqLevel_eq_false_of_risr (h : s.cell .risr = 0) : s.irqLevel = false := by
  simp [State.irqLevel, h]

/-! ### What a reset installs -/

/-- Of the old register file a reset reads Card-Present alone (R381). -/
theorem resetRegs_congr (c : Cfg) {x y : Regs} (h : x.star.getLsbD c.pos.cardPresent = y.star.getLsbD c.pos.cardPresent) :
    resetRegs c x = resetRegs c y := by
  refine Regs.ext_get _ _ fun r => ?_
  by_cases hr : r = .star
  · subst hr
    refine BitVec.eq_of_getLsbD_eq fun k _ => ?_
    refine (getLsbD_star_resetRegs c x k).trans (.trans ?_ (getLsbD_star_resetRegs c y k).symm)
    split
    case isTrue hk => rw [hk, h]
    case isFalse => rfl
  · rw [get_resetRegs c x hr, get_resetRegs c y hr]

/-- A reset keeps Card-Present, so a second one installs the same register file. -/
theorem resetRegs_resetRegs (c : Cfg) (x : Regs) : resetRegs c (resetRegs c x) = resetRegs c x :=
  resetRegs_congr c ((getLsbD_star_resetRegs c x _).trans (if_pos rfl))

/-- Where the table's `STAR` has no other bit than Card-Present, a reset leaves no other bit in it. -/
theorem star_resetRegs_of_within {c : Cfg} (h : c.rst.get .star &&& ~~~(bit c.pos.cardPresent) = 0) (x : Regs) :
    (resetRegs c x).star = if x.star.getLsbD c.pos.cardPresent then bit c.pos.cardPresent else 0 := by
  have hclear : clearBit c.rst.star c.pos.cardPresent = 0 := h
  simp [resetRegs, hclear, and_bit_eq]

/-- Such a table, and a Card-Present bit as at power-on: a reset installs the power-on register file (R383). -/
theorem resetRegs_eq_x_powerOn {c : Cfg} (h : c.rst.get .star &&& ~~~(bit c.pos.cardPresent) = 0) {x : Regs}
    (hpresent : x.star.getLsbD c.pos.cardPresent = c.cardPresentAtPowerOn) (card : Card) (mem : Memory) :
    resetRegs c x = (State.powerOn c card mem).x := by
  have hstar := star_resetRegs_of_within h x
  rw [hpresent] at hstar
  exact congrArg (c.rst.set · .star) hstar

theorem cell_powerOn (c : Cfg) (card : Card) (mem : Memory) {r : Cell} (hr : r ≠ .star) :
    (State.powerOn c card mem).cell r = c.rst.get r :=
  (Regs.get_set c.rst .star r _).trans (if_neg hr)

end Sys2Proof.Machine
end

section
/-! SUPPORT. The obligations of 70_reset_and_hazards.md that are settled here. -/

namespace Sys2Proof.Claims

open Sys2Proof.Machine

/-- Settles O22: a reset installs the table but for Card-Present, which it keeps, so a second reset, in the same
configuration, installs the same. -/
theorem resetRestoresTheTableAndKeepsCardPresent : Obligations.ResetRestoresTheTableAndKeepsCardPresent := by
  intro s
  obtain ⟨t, ht, h⟩ := exec_evReset_installed s
  obtain ⟨u, hu, h'⟩ := exec_evReset_installed t
  have hcell : ∀ c, c ≠ .star → t.cell c = s.cfg.rst.get c := fun c hc => (h.cell c).trans (get_resetRegs _ _ hc)
  refine ⟨t, ht, hcell, fun k _ => ?_, h.xfer, h.log, h.outside, h.trace, fun hdefault => ?_, u, hu, ?_,
    h'.xfer.trans h.xfer.symm⟩
  · rw [h.cell]
    exact getLsbD_star_resetRegs s.cfg s.x k
  · rw [hdefault] at hcell
    have hrisr : t.cell .risr = 0 := hcell .risr (by decide)
    exact ⟨hrisr, hcell .idst (by decide), irqLevel_eq_false_of_risr hrisr⟩
  · rw [h'.regs, h.outside.1, h.regs, resetRegs_resetRegs]

/-- Settles O23: with no other bit in the table's `STAR`, a reset and power-on install the same word there when they agree
on Card-Present. -/
theorem powerOnIsTheResetState : Obligations.PowerOnIsTheResetState := by
  intro c card mem _ hstar
  refine ⟨fun r hr => cell_powerOn c card mem hr, rfl, rfl, rfl, fun hdefault => ?_, ?_⟩
  · refine irqLevel_eq_false_of_risr ((cell_powerOn c card mem (by decide)).trans ?_)
    rw [hdefault]
    rfl
  · rintro s rfl hpresent
    obtain ⟨t, ht, h⟩ := exec_evReset_installed s
    have hregs := h.regs.trans (resetRegs_eq_x_powerOn hstar hpresent card mem)
    exact ⟨t, ht, hregs, h.xfer, irqLevel_eq_of_regs h.outside.1 hregs⟩

/-- Settles O25: a save records the pair that a restore installs, and the codec is injective by its type. -/
theorem snapshotSavesAndRestoresRegistersAndCounter : Obligations.SnapshotSavesAndRestoresRegistersAndCounter := by
  refine ⟨Config.snapshotCodec.injective, fun s => ⟨rfl, fun snap => ?_⟩⟩
  obtain ⟨t, ht, h⟩ := exec_evRestore_installed snap s
  refine ⟨t, ht, h.regs, h.xfer, h.outside, h.log, h.trace, ?_⟩
  rintro rfl
  exact h.eq_of_own

end Sys2Proof.Claims
end
